-- ==== Sys2Proof/Word.lean ====
section
/-! DEFINITION. The words the block computes on: 32-bit patterns, bytes, and register numbers (R6, R9, R17, R71). -/

namespace Sys2Proof

/-- A raw 32-bit pattern (R2): an FP10 value, an integer, a float, a mask or a packed colour, as the
command that reads it decides (R17). -/
abbrev Word := BitVec 32

/-- One byte of MEM, the only unit the block accesses there (R56). -/
abbrev Byte := BitVec 8

/-- A general register number, 0 to 15 (R17, R71). -/
abbrev Reg := Fin 16

end Sys2Proof
end

