-- ==== Sys2Proof/Syntax.lean ====
section
/-! DEFINITION. The commands, one constructor per row of the opcode table (R75). -/

namespace Sys2Proof

/-- A command of the block (R69, R75). Register operands are `rd`, `ra`, `rb` of R71, `k` is the shift count of R72
and `imm` is LI's second word (R73). -/
inductive Instr where
  /-- R83, fixed + fixed. -/
  | fadd (rd ra rb : Reg)
  /-- R84, fixed − fixed. -/
  | fsub (rd ra rb : Reg)
  /-- R85, fixed + integer. -/
  | faddi (rd ra rb : Reg)
  /-- R86, fixed − integer. -/
  | fsubi (rd ra rb : Reg)
  /-- R87, fixed × fixed, re-normalised. -/
  | fmul (rd ra rb : Reg)
  /-- R88, fixed × integer. -/
  | fmuli (rd ra rb : Reg)
  /-- R89, fixed ÷ integer. -/
  | fdivi (rd ra rb : Reg)
  /-- R90, left shift by `k`. -/
  | fshl (rd ra : Reg) (k : Nat)
  /-- R91, arithmetic right shift by `k`. -/
  | fshr (rd ra : Reg) (k : Nat)
  /-- R92, bitwise AND with a mask. -/
  | fand (rd ra rb : Reg)
  /-- R93, integer part. -/
  | ffloor (rd ra : Reg)
  /-- R94, fractional part. -/
  | ffract (rd ra : Reg)
  /-- R101, signed integer to FP10. -/
  | fromi (rd ra : Reg)
  /-- R102, unsigned integer to FP10. -/
  | fromu (rd ra : Reg)
  /-- R103, byte to FP10. -/
  | fromb (rd ra : Reg)
  /-- R104, binary32 float to FP10. -/
  | fromf (rd ra : Reg)
  /-- R105, FP10 to signed integer. -/
  | toi (rd ra : Reg)
  /-- R106, FP10 to unsigned integer. -/
  | tou (rd ra : Reg)
  /-- R107, FP10 to byte. -/
  | tob (rd ra : Reg)
  /-- R108, FP10 to binary32 float. -/
  | tof (rd ra : Reg)
  /-- R124, nearest height sample. -/
  | tgeth (rd ra rb : Reg)
  /-- R125, bilinear height sample. -/
  | tgethi (rd ra rb : Reg)
  /-- R126, nearest texel sample. -/
  | tgetc (rd ra rb : Reg)
  /-- R127, bilinear texel sample. -/
  | tgetci (rd ra rb : Reg)
  /-- R109, load a 32-bit immediate: the one two-word command (R76). -/
  | li (rd : Reg) (imm : Word)
  /-- R131, render one frame. -/
  | draw
  deriving DecidableEq, Repr

end Sys2Proof
end

