-- ==== Sys2Proof/WellFormed.lean ====
section
/-! DEFINITION. The checks a command term must pass to have an encoding. Register numbers and the immediate are
bounded by their types; the shift count of format RRS is the one operand that is not (R72). -/

namespace Sys2Proof

/-- R72: a shift count is in 0..31; a shift by 32 or more cannot be encoded. -/
def shiftEncodable (k : Nat) : Bool := decide (k < 32)

/-- `i` has an encoding. -/
def Instr.wellFormed : Instr → Bool
  | .fadd _ _ _ => true
  | .fsub _ _ _ => true
  | .faddi _ _ _ => true
  | .fsubi _ _ _ => true
  | .fmul _ _ _ => true
  | .fmuli _ _ _ => true
  | .fdivi _ _ _ => true
  | .fshl _ _ k => shiftEncodable k
  | .fshr _ _ k => shiftEncodable k
  | .fand _ _ _ => true
  | .ffloor _ _ => true
  | .ffract _ _ => true
  | .fromi _ _ => true
  | .fromu _ _ => true
  | .fromb _ _ => true
  | .fromf _ _ => true
  | .toi _ _ => true
  | .tou _ _ => true
  | .tob _ _ => true
  | .tof _ _ => true
  | .tgeth _ _ _ => true
  | .tgethi _ _ _ => true
  | .tgetc _ _ _ => true
  | .tgetci _ _ _ => true
  | .li _ _ => true
  | .draw => true

end Sys2Proof
end

