-- ==== Sys2Proof/Decode.lean ====
section
/-! DEFINITION. Decoding command words by the opcode table of R75, and encoding commands by the layouts of R70. -/

namespace Sys2Proof

/-- Why words are no command. -/
inductive DecodeError where
  /-- R79: the opcode is not in the table of R75. -/
  | unassignedOpcode
  /-- R79: a field that the format requires to be zero is not. -/
  | reservedBitSet
  /-- No word was given. -/
  | noWord
  /-- R76: LI's command word was given without its immediate word. -/
  | noImmediate
  deriving DecidableEq, Repr

/-- What one command word is (R76): a whole command, or LI's first word, whose immediate is still to come. -/
inductive Decoded where
  | command (i : Instr)
  | needsImmediate (rd : Reg)
  deriving DecidableEq, Repr

/-- The five formats of R70, each with the command it builds from its operand fields. -/
inductive Format where
  | rrr (mk : Reg → Reg → Reg → Instr)
  | rr (mk : Reg → Reg → Instr)
  | rrs (mk : Reg → Reg → Nat → Instr)
  | ri
  | n (i : Instr)

/-- Field `op` of R70. -/
def opField (w : Word) : Nat := (w.extractLsb' 26 6).toNat

/-- Field `rd` of R70 and R71. -/
def rdField (w : Word) : Reg := (w.extractLsb' 22 4).toFin

/-- Field `ra` of R70 and R71. -/
def raField (w : Word) : Reg := (w.extractLsb' 18 4).toFin

/-- Field `rb` of R70 and R71. -/
def rbField (w : Word) : Reg := (w.extractLsb' 14 4).toFin

/-- Field `sh` of R70: the shift count of R72. -/
def shField (w : Word) : Nat := (w.extractLsb' 0 5).toNat

/-- The opcode map of R75; none for the unassigned opcodes of R79. -/
def opcodeFormat (op : Nat) : Option Format :=
  match op with
  | 0x01 => some (.rrr .fadd)
  | 0x02 => some (.rrr .fsub)
  | 0x03 => some (.rrr .faddi)
  | 0x04 => some (.rrr .fsubi)
  | 0x05 => some (.rrr .fmul)
  | 0x06 => some (.rrr .fmuli)
  | 0x07 => some (.rrr .fdivi)
  | 0x08 => some (.rrs .fshl)
  | 0x09 => some (.rrs .fshr)
  | 0x0A => some (.rrr .fand)
  | 0x0B => some (.rr .ffloor)
  | 0x0C => some (.rr .ffract)
  | 0x10 => some (.rr .fromi)
  | 0x11 => some (.rr .fromu)
  | 0x12 => some (.rr .fromb)
  | 0x13 => some (.rr .fromf)
  | 0x14 => some (.rr .toi)
  | 0x15 => some (.rr .tou)
  | 0x16 => some (.rr .tob)
  | 0x17 => some (.rr .tof)
  | 0x20 => some (.rrr .tgeth)
  | 0x21 => some (.rrr .tgethi)
  | 0x22 => some (.rrr .tgetc)
  | 0x23 => some (.rrr .tgetci)
  | 0x30 => some .ri
  | 0x38 => some (.n .draw)
  | _ => none

/-- The bits a format requires to be zero (R70). -/
def mustBeZero (f : Format) : Word :=
  match f with
  | .rrr _ => 0x00003FFF#32
  | .rr _ => 0x0003FFFF#32
  | .rrs _ => 0x0003FFE0#32
  | .ri => 0x003FFFFF#32
  | .n _ => 0x03FFFFFF#32

/-- The command that the operand fields of `w` give a format (R71, R72, R76). -/
def buildCommand (f : Format) (w : Word) : Decoded :=
  match f with
  | .rrr mk => .command (mk (rdField w) (raField w) (rbField w))
  | .rr mk => .command (mk (rdField w) (raField w))
  | .rrs mk => .command (mk (rdField w) (raField w) (shField w))
  | .ri => .needsImmediate (rdField w)
  | .n i => .command i

/-- Decodes one command word: the third branch of R78, rejecting the illegal words of R79 by name. -/
def decodeWord (w : Word) : Except DecodeError Decoded :=
  match opcodeFormat (opField w) with
  | none => .error .unassignedOpcode
  | some f => if w &&& mustBeZero f = 0#32 then .ok (buildCommand f w) else .error .reservedBitSet

/-- Decodes the first command of a list of words and gives the words after it (R69, R76). -/
def decode (ws : List Word) : Except DecodeError (Instr × List Word) :=
  match ws with
  | [] => .error .noWord
  | w :: rest =>
    match decodeWord w with
    | .error e => .error e
    | .ok (.command i) => .ok (i, rest)
    | .ok (.needsImmediate rd) =>
      match rest with
      | [] => .error .noImmediate
      | imm :: rest' => .ok (.li rd imm, rest')

/-- The instruction whose bits are `w`, the first word in bits 31..0 and the second in bits 63..32 (the numbering of
opcode_table.json). A command word is one 32-bit MMIO write (R49), so words have no byte order here. -/
def decodeTableWord (nbits w : Nat) : Option Instr :=
  let v := w % 2 ^ nbits
  match decode [BitVec.ofNat 32 v, BitVec.ofNat 32 (v / 2 ^ 32)] with
  | .ok (i, _) => some i
  | .error _ => none

/-- Bits of a register field. -/
def regBits (r : Reg) : BitVec 4 := .ofFin r

/-- Layout RRR of R70. -/
def encodeRRR (op : BitVec 6) (rd ra rb : Reg) : Word :=
  op ++ regBits rd ++ regBits ra ++ regBits rb ++ 0#14

/-- Layout RR of R70. -/
def encodeRR (op : BitVec 6) (rd ra : Reg) : Word :=
  op ++ regBits rd ++ regBits ra ++ 0#18

/-- Layout RRS of R70. -/
def encodeRRS (op : BitVec 6) (rd ra : Reg) (k : Nat) : Word :=
  op ++ regBits rd ++ regBits ra ++ 0#13 ++ BitVec.ofNat 5 k

/-- Layout RI of R70: the command word of LI. -/
def encodeRI (op : BitVec 6) (rd : Reg) : Word :=
  op ++ regBits rd ++ 0#22

/-- Layout N of R70. -/
def encodeN (op : BitVec 6) : Word :=
  op ++ 0#26

/-- The words of a command (R69, R70, R75, R76). -/
def encode (i : Instr) : List Word :=
  match i with
  | .fadd rd ra rb => [encodeRRR 0x01#6 rd ra rb]
  | .fsub rd ra rb => [encodeRRR 0x02#6 rd ra rb]
  | .faddi rd ra rb => [encodeRRR 0x03#6 rd ra rb]
  | .fsubi rd ra rb => [encodeRRR 0x04#6 rd ra rb]
  | .fmul rd ra rb => [encodeRRR 0x05#6 rd ra rb]
  | .fmuli rd ra rb => [encodeRRR 0x06#6 rd ra rb]
  | .fdivi rd ra rb => [encodeRRR 0x07#6 rd ra rb]
  | .fshl rd ra k => [encodeRRS 0x08#6 rd ra k]
  | .fshr rd ra k => [encodeRRS 0x09#6 rd ra k]
  | .fand rd ra rb => [encodeRRR 0x0A#6 rd ra rb]
  | .ffloor rd ra => [encodeRR 0x0B#6 rd ra]
  | .ffract rd ra => [encodeRR 0x0C#6 rd ra]
  | .fromi rd ra => [encodeRR 0x10#6 rd ra]
  | .fromu rd ra => [encodeRR 0x11#6 rd ra]
  | .fromb rd ra => [encodeRR 0x12#6 rd ra]
  | .fromf rd ra => [encodeRR 0x13#6 rd ra]
  | .toi rd ra => [encodeRR 0x14#6 rd ra]
  | .tou rd ra => [encodeRR 0x15#6 rd ra]
  | .tob rd ra => [encodeRR 0x16#6 rd ra]
  | .tof rd ra => [encodeRR 0x17#6 rd ra]
  | .tgeth rd ra rb => [encodeRRR 0x20#6 rd ra rb]
  | .tgethi rd ra rb => [encodeRRR 0x21#6 rd ra rb]
  | .tgetc rd ra rb => [encodeRRR 0x22#6 rd ra rb]
  | .tgetci rd ra rb => [encodeRRR 0x23#6 rd ra rb]
  | .li rd imm => [encodeRI 0x30#6 rd, imm]
  | .draw => [encodeN 0x38#6]

end Sys2Proof
end

