-- ==== Sys2Proof/Config.lean ====
section
/-! DEFINITION. What an implementation fixes: the parameters of R7 with the values the spec decides (DEDUCED,
notes/assumptions/11.md), the platform's window address, and the values this model names where the spec gives none. -/

namespace Sys2Proof

/-- `MUL_MODE` of R7: the width of the fixed × fixed product before its 10-bit shift. -/
inductive MulMode where
  | wrap32
  | wide64
  deriving DecidableEq, Repr

namespace Config

/-- `MUL_MODE`, decided `WRAP32` (R7, R87, decision D10). -/
def mulMode : MulMode := .wrap32

/-- `DIV0_RESULT`, decided to be 0 for every dividend (R7, R89, decision D11). -/
def div0Result (_dividend : Word) : Word := 0#32

/-- `MAX_WIDTH`, the capacity of the column max array, decided to be 4096 (R7, R41, decision D33). -/
def maxWidth : Nat := 4096

/-- The upper 24 bits of `MMIO_BASE`. R7 leaves the base OPEN (any 256-byte-aligned address): a free value
(DESIGN CHOICE, safe, notes/assumptions/10.md). -/
opaque mmioPage : BitVec 24

/-- `MMIO_BASE`: a 256-byte-aligned platform address (R7, R23). -/
def mmioBase : Word := mmioPage ++ 0#8

/-- What ID reads (R27). -/
def idValue : Word := 0x4D4E5431#32

/-- What every general register holds at reset. DESIGN CHOICE, unsafe (notes/assumptions/1.md): R19 gives no value
and says that zero must not be picked. -/
def resetReg : Word := 0xDEADBEEF#32

/-- What every COLMAX entry holds at reset. DESIGN CHOICE, unsafe in form only: R41 says the value is unobservable
(notes/assumptions/3.md). -/
def resetColmax : Word := 0#32

/-- What a byte of MEM that nothing has written reads as. DESIGN CHOICE, unsafe (notes/assumptions/2.md). -/
def memDefault : Byte := 0#8

end Config

end Sys2Proof
end

