-- ==== Sys2Proof/Machine/Conversion.lean ====
section
/-! DEFINITION. The pure conversion functions (R12, R101 to R108), binary32 among them. PRESUMED, as the spec marks it: the
float format and its rounding (notes/assumptions/12.md). -/

namespace Sys2Proof.Machine

open Sys2Proof

/-- `fx_from_int` of R101. -/
def fxFromInt (n : Word) : Word := n <<< 10

/-- R102: the register is read as an unsigned integer and the product wraps. -/
def fxFromUnsigned (u : Word) : Word := BitVec.ofNat 32 (u.toNat * 1024)

/-- `fx_from_byte` of R103. -/
def fxFromByte (v : Byte) : Word := v.zeroExtend 32 * 1024#32

/-- `fx_to_int` of R105: floor, by an arithmetic shift. -/
def fxToInt (a : Word) : Word := a.sshiftRight 10

/-- R106: the same shift; the result is read as unsigned and never clamped. -/
def fxToUnsigned (a : Word) : Word := a.sshiftRight 10

/-- `fx_to_byte` of R107: the low 8 bits of the integer part. -/
def fxToByte (a : Word) : Byte := (a.sshiftRight 10).setWidth 8

/-- The low byte of a register operand (R103). -/
def lowByte (w : Word) : Byte := w.setWidth 8

/-- The sign bit of a binary32 pattern (41_conversions.md, introduction). -/
def floatSign (f : Word) : Bool := f.msb

/-- The biased exponent of a binary32 pattern. -/
def floatExponent (f : Word) : Nat := (f.extractLsb' 23 8).toNat

/-- The fraction field of a binary32 pattern. -/
def floatFraction (f : Word) : Nat := (f.extractLsb' 0 23).toNat

/-- A finite binary32 value is ± `floatSignificand f` · 2^(`floatScale f` − 150). -/
def floatSignificand (f : Word) : Nat :=
  if floatExponent f = 0 then floatFraction f else 2 ^ 23 + floatFraction f

/-- The exponent that goes with `floatSignificand`; a subnormal has that of the smallest normal. -/
def floatScale (f : Word) : Nat := max (floatExponent f) 1

/-- `significand · 2^(scale − 150) · 1024`, rounded down: the magnitude of R104's `t`. -/
def scaledMagnitude (significand scale : Nat) : Nat :=
  if scale < 140 then significand / 2 ^ (140 - scale) else significand * 2 ^ (scale - 140)

/-- Saturation of R104 for a value of magnitude `m`. -/
def saturate (negative : Bool) (m : Nat) : Word :=
  if negative then (if 2 ^ 31 < m then 0x80000000#32 else -(BitVec.ofNat 32 m))
  else (if 2 ^ 31 ≤ m then 0x7FFFFFFF#32 else BitVec.ofNat 32 m)

/-- FROMF of R104: multiply by 1024 and truncate toward zero; NaN gives 0, and infinities and values out of range
saturate. -/
def fxFromFloat (f : Word) : Word :=
  if floatExponent f = 255 then
    if floatFraction f = 0 then saturate (floatSign f) (2 ^ 32) else 0#32
  else saturate (floatSign f) (scaledMagnitude (floatSignificand f) (floatScale f))

/-- `n / 2^k` rounded to nearest, ties to even (R108). -/
def roundShift (n k : Nat) : Nat :=
  let q := n / 2 ^ k
  let r := n % 2 ^ k
  if 2 ^ k < 2 * r ∨ (2 * r = 2 ^ k ∧ q % 2 = 1) then q + 1 else q

/-- The binary32 pattern, without its sign, of `m / 1024` for a positive `m`: `m` rounded to a 24-bit significand, with
an exponent 10 below that of `m` (R108). A significand that rounds up to 2^24 carries into the exponent. -/
def magnitudeToFloat (m : Nat) : Nat :=
  let e := Nat.log2 m
  let significand := if e ≤ 23 then m * 2 ^ (23 - e) else roundShift m (e - 23)
  (e + 117) * 2 ^ 23 + (significand - 2 ^ 23)

/-- TOF of R108: 0 gives +0.0. -/
def fxToFloat (a : Word) : Word :=
  if a = 0#32 then 0#32
  else
    let pattern := BitVec.ofNat 32 (magnitudeToFloat a.toInt.natAbs)
    if a.msb then pattern ||| 0x80000000#32 else pattern

end Sys2Proof.Machine
end

