-- ==== Sys2Proof/Machine/State.lean ====
section
/-! DEFINITION. The machine's state as plain data, its fault and refusal reasons, and the state after reset (R16 to
R43). INVENTORY.md lists every field with its rule. -/

namespace Sys2Proof.Machine

open Sys2Proof

/-- Why the machine stops. Each is an error of the host that the block does not detect and that R153 tells a model to
stop on; no command raises one. -/
inductive Fault where
  /-- R39, R153(a): an MMIO access that is not an aligned 32-bit word access. Raised by `mmioWrite` and `mmioRead`.
  DESIGN CHOICE, safe (notes/assumptions/7.md): the hardware's response is implementation-defined and nothing is claimed of it. -/
  | badMmioAccess
  /-- R62(b), R153(c): the host read a frame-buffer byte while BUSY = 1. Raised by `hostMemRead`. Safe: the hardware
  returns any value. -/
  | frameReadDuringPass
  /-- R62(b), R153(c): the host wrote a frame-buffer byte while BUSY = 1. Raised by `hostMemWrite`. Safe: the
  hardware leaves the frame unspecified. -/
  | frameWriteDuringPass
  /-- R62(b), R153(c): the host wrote a height-map or texture byte while BUSY = 1. Raised by `hostMemWrite`. Safe:
  the hardware leaves the frame unspecified. -/
  | mapWriteDuringPass
  deriving DecidableEq, Repr

/-- Why a command has no meaning here. -/
inductive Refusal where
  /-- The command has no meaning in this model yet. Raised by `exec`'s refused arms only (there are none). Safe. -/
  | notModelled (mnemonic : String)
  deriving DecidableEq, Repr

/-- The outcome type of this machine. -/
abbrev Result (σ : Type) := Host.Outcome σ Fault Refusal

/-- MEM (R44): the bytes that differ from what an unlisted address reads as, addresses strictly rising. The
operations and the canonical form are in Machine/Memory.lean. -/
abbrev Memory := List Host.Cell

/-- The host-written registers of the MMIO window (R23 to R34), and what a pass latches of them (R42, R133). Bits a
register reserves are 0 (R38). -/
structure ControlRegs where
  ctrl : Word
  camX : Word
  camY : Word
  camZ : Word
  camCos : Word
  camSin : Word
  horizon : Word
  fogStart : Word
  distMax : Word
  scaleHeight : Word
  skyColor : Word
  fbBase : Word
  fbStride : Word
  fbWidth : Word
  fbHeight : Word
  hmapBase : Word
  tmapBase : Word
  deriving DecidableEq, Repr

/-- The reset values of R43. -/
def ControlRegs.reset : ControlRegs where
  ctrl := 0x000024A0#32
  camX := 0#32
  camY := 0#32
  camZ := 0#32
  camCos := 0x00000400#32
  camSin := 0#32
  horizon := 0#32
  fogStart := 0#32
  distMax := 0#32
  scaleHeight := 0#32
  skyColor := 0x00FA7850#32
  fbBase := 0#32
  fbStride := 0#32
  fbWidth := 0#32
  fbHeight := 0#32
  hmapBase := 0#32
  tmapBase := 0#32

/-- The three channels a pixel write writes, in its order (R54). -/
inductive Channel where
  | red
  | green
  | blue
  deriving DecidableEq, Repr

/-- The scan-line values of one depth (R42, R137): the left endpoint and the stride. -/
structure ScanLine where
  lx : Word
  ly : Word
  dx : Word
  dy : Word
  deriving DecidableEq, Repr

/-- Where the sequencer stands in a pass (R42): the loop counters of R134 to R140. -/
inductive Phase where
  /-- R134: the next byte to write is channel `ch` of pixel (`x`, `y`), in the sky colour. -/
  | sky (y x : Nat) (ch : Channel)
  /-- R135: the column array is to be cleared. -/
  | clear
  /-- R136, R137: depth `z` is about to start. -/
  | depth (z : Nat)
  /-- R138, R139: column `i` of depth `z` is about to be sampled. -/
  | column (z i : Nat) (scan : ScanLine)
  /-- R140: the next byte to write is channel `ch` of height `hh` of the line that column `i` draws up to `top`, in
  colour `color`; the column's new height is `rh`. -/
  | line (z i : Nat) (scan : ScanLine) (hh top : Nat) (rh color : Word) (ch : Channel)
  deriving DecidableEq, Repr

/-- A pass in progress (R42): the latched registers and where it stands. -/
structure Pass where
  latch : ControlRegs
  phase : Phase
  deriving DecidableEq, Repr

/-- The width of an MMIO access. Only `word` is defined (R39). -/
inductive AccessSize where
  | byte
  | half
  | word
  deriving DecidableEq, Repr

/-- What the outside does to the block at one step (R16, R44, R168). MMIO accesses are named by their offset in the
256-byte window (R23). -/
inductive HostAction where
  /-- The host writes the MMIO window. -/
  | mmioWrite (size : AccessSize) (offset : BitVec 8) (value : Word)
  /-- The host reads the MMIO window. -/
  | mmioRead (size : AccessSize) (offset : BitVec 8)
  /-- The host, or another bus master, writes a byte of MEM. -/
  | memWrite (addr : Word) (value : Byte)
  /-- The host, or another bus master, reads a byte of MEM. -/
  | memRead (addr : Word)
  /-- The platform asserts reset (R168). -/
  | reset
  /-- The host does nothing and the sequencer takes its turn. -/
  | wait
  deriving DecidableEq, Repr

/-- The whole machine. -/
structure State where
  /-- R0 to R15 (R17). -/
  regs : Vector Word 16
  /-- The model's own: which registers have been written since reset (R19, R153(b)). No step depends on it.
  DESIGN CHOICE, safe (notes/assumptions/14.md). -/
  written : Vector Bool 16
  /-- The host-written registers (R23). -/
  ctl : ControlRegs
  /-- STATUS.ILL (R25). -/
  ill : Bool
  /-- STATUS.WERR (R25). -/
  werr : Bool
  /-- STATUS.CFGERR (R25). -/
  cfgerr : Bool
  /-- LIPEND (R40). -/
  lipend : Bool
  /-- LIRD (R40). -/
  lird : Reg
  /-- COLMAX (R41): its entries from entry 0 up, each a signed word. An entry not listed holds
  `Config.resetColmax`. The operations are in Machine/Rasterizer.lean. -/
  colmax : List Word
  /-- The pass in progress (R42). STATUS.BUSY is 1 exactly while there is one (R25). -/
  pass : Option Pass
  /-- MEM (R44). -/
  mem : Memory
  /-- The model's own: what the outside does next, first action first. DESIGN CHOICE, safe (notes/assumptions/4.md). -/
  inputs : List HostAction
  /-- The model's own: what the last host read returned. DESIGN CHOICE, safe (notes/assumptions/8.md). -/
  readData : Word
  deriving DecidableEq, Repr

/-- The machine right after power-on reset (R43, R168, R171). -/
def State.reset : State where
  regs := Vector.replicate 16 Config.resetReg
  written := Vector.replicate 16 false
  ctl := ControlRegs.reset
  ill := false
  werr := false
  cfgerr := false
  lipend := false
  lird := 0
  colmax := []
  pass := none
  mem := []
  inputs := []
  readData := 0#32

end Sys2Proof.Machine
end

