-- ==== Sys2Proof/Machine/Memory.lean ====
section
/-! DEFINITION. MEM as a list of cells in one canonical form (R44, R46, R50, R58). -/

namespace Sys2Proof.Machine

open Sys2Proof

/-- The byte at address `a`, where the cells listed are `m`. -/
def cellAt (m : Memory) (a : Nat) : Byte :=
  match m with
  | [] => Config.memDefault
  | (b, v) :: rest => if b = a then v else cellAt rest a

/-- `m` without the cell of address `a`. -/
def dropCell (m : Memory) (a : Nat) : Memory :=
  match m with
  | [] => []
  | (b, w) :: rest => if b = a then rest else (b, w) :: dropCell rest a

/-- `m` with byte `v` listed at address `a`, in rising order. -/
def putCell (m : Memory) (a : Nat) (v : Byte) : Memory :=
  match m with
  | [] => [(a, v)]
  | (b, w) :: rest =>
    if a < b then (a, v) :: (b, w) :: rest
    else if b = a then (a, v) :: rest
    else (b, w) :: putCell rest a v

/-- `MemRead(addr, 1)` of R11: every 32-bit address exists (R44, R46). -/
def Memory.read (m : Memory) (addr : Word) : Byte := cellAt m addr.toNat

/-- `MemWrite(addr, 1, v)` of R11. Writing the value an unlisted address reads as unlists the address. -/
def Memory.write (m : Memory) (addr : Word) (v : Byte) : Memory :=
  if v = Config.memDefault then dropCell m addr.toNat else putCell m addr.toNat v

/-- The addresses of `m` rise strictly and are all above `lo`. -/
def risingFrom (lo : Nat) (m : Memory) : Bool :=
  match m with
  | [] => true
  | (a, _) :: rest => decide (lo < a) && risingFrom a rest

/-- The addresses of `m` rise strictly. -/
def rising (m : Memory) : Bool :=
  match m with
  | [] => true
  | (a, _) :: rest => risingFrom a rest

/-- The canonical form: addresses strictly rising and below 2^32 (R44), and no cell listed that an unlisted address
would read the same as. -/
def Memory.wf (m : Memory) : Bool :=
  rising m && m.all fun c => decide (c.1 < 2 ^ 32) && decide (c.2 ≠ Config.memDefault)

end Sys2Proof.Machine
end

