-- ==== Sys2Proof/Machine/Ops.lean ====
section
/-! DEFINITION. The named operations over the register file, the error events and LI's two words. The block raises no
trap, exception or interrupt (R151, R157): recording an error event is what stands in the place of exception entry, and
the host's write to STATUS (Machine/Flags.lean) in the place of the return. -/

namespace Sys2Proof.Machine

open Sys2Proof

/-- `x[i]` of R11 and R17: no register is hardwired and none has an alias. -/
def State.reg (s : State) (r : Reg) : Word := s.regs[r.val]

/-- `x[i] <- v` of R11. The register now counts as written since reset (R19). -/
def State.setReg (s : State) (r : Reg) (v : Word) : State :=
  { s with regs := s.regs.set r.val v, written := s.written.set r.val true }

/-- Has `r` been written since reset (R19)? -/
def State.wasWritten (s : State) (r : Reg) : Bool := s.written[r.val]

/-- STATUS.BUSY: 1 while a pass is in progress (R25). -/
def State.busy (s : State) : Bool := s.pass.isSome

/-- The three error events of R151. -/
inductive ErrorEvent where
  | illegalCommand
  | writeWhileBusy
  | configuration
  deriving DecidableEq, Repr

/-- What an error event does (R151, R154): its sticky bit becomes 1 and nothing else changes. -/
def State.record (s : State) (e : ErrorEvent) : State :=
  match e with
  | .illegalCommand => { s with ill := true }
  | .writeWhileBusy => { s with werr := true }
  | .configuration => { s with cfgerr := true }

/-- LI's command word is accepted (R76, R109): no register is written yet. -/
def State.acceptLoad (s : State) (rd : Reg) : State := { s with lipend := true, lird := rd }

/-- LI's immediate word is accepted (R78, R109). -/
def State.acceptImmediate (s : State) (imm : Word) : State :=
  { s.setReg s.lird imm with lipend := false }

/-- Reset is applied (R168 to R171): the block's state takes its reset values, MEM is not changed (R50), and what the
outside still has to do and has last read is not the block's to change. The values of R0 to R15 and COLMAX are DESIGN
CHOICE, unsafe (notes/assumptions/18.md). -/
def State.applyReset (s : State) : State :=
  { State.reset with mem := s.mem, inputs := s.inputs, readData := s.readData }

end Sys2Proof.Machine
end

