-- ==== Sys2Proof/Machine/Operands.lean ====
section
/-! DEFINITION. The operand forms of commands (R18, R71 to R74): every source is read before Rd is written, and all
operands but shift counts and LI's immediate come from registers. -/

namespace Sys2Proof.Machine

open Sys2Proof

/-- Format RRR: Rd takes `f` of Ra and Rb. -/
def State.writeBinary (s : State) (f : Word → Word → Word) (rd ra rb : Reg) : State :=
  s.setReg rd (f (s.reg ra) (s.reg rb))

/-- Format RR: Rd takes `f` of Ra. -/
def State.writeUnary (s : State) (f : Word → Word) (rd ra : Reg) : State :=
  s.setReg rd (f (s.reg ra))

/-- Format RRS: Rd takes `f` of Ra and the shift count. -/
def State.writeShift (s : State) (f : Word → Nat → Word) (rd ra : Reg) (k : Nat) : State :=
  s.setReg rd (f (s.reg ra) k)

/-- The registers a command reads (R18, R71). DRAW reads none and LI reads none. -/
def sources (i : Instr) : List Reg :=
  match i with
  | .fadd _ ra rb => [ra, rb]
  | .fsub _ ra rb => [ra, rb]
  | .faddi _ ra rb => [ra, rb]
  | .fsubi _ ra rb => [ra, rb]
  | .fmul _ ra rb => [ra, rb]
  | .fmuli _ ra rb => [ra, rb]
  | .fdivi _ ra rb => [ra, rb]
  | .fshl _ ra _ => [ra]
  | .fshr _ ra _ => [ra]
  | .fand _ ra rb => [ra, rb]
  | .ffloor _ ra => [ra]
  | .ffract _ ra => [ra]
  | .fromi _ ra => [ra]
  | .fromu _ ra => [ra]
  | .fromb _ ra => [ra]
  | .fromf _ ra => [ra]
  | .toi _ ra => [ra]
  | .tou _ ra => [ra]
  | .tob _ ra => [ra]
  | .tof _ ra => [ra]
  | .tgeth _ ra rb => [ra, rb]
  | .tgethi _ ra rb => [ra, rb]
  | .tgetc _ ra rb => [ra, rb]
  | .tgetci _ ra rb => [ra, rb]
  | .li _ _ => []
  | .draw => []

/-- The register a command writes, if any (R18, R131). -/
def destination (i : Instr) : Option Reg :=
  match i with
  | .fadd rd _ _ => some rd
  | .fsub rd _ _ => some rd
  | .faddi rd _ _ => some rd
  | .fsubi rd _ _ => some rd
  | .fmul rd _ _ => some rd
  | .fmuli rd _ _ => some rd
  | .fdivi rd _ _ => some rd
  | .fshl rd _ _ => some rd
  | .fshr rd _ _ => some rd
  | .fand rd _ _ => some rd
  | .ffloor rd _ => some rd
  | .ffract rd _ => some rd
  | .fromi rd _ => some rd
  | .fromu rd _ => some rd
  | .fromb rd _ => some rd
  | .fromf rd _ => some rd
  | .toi rd _ => some rd
  | .tou rd _ => some rd
  | .tob rd _ => some rd
  | .tof rd _ => some rd
  | .tgeth rd _ _ => some rd
  | .tgethi rd _ _ => some rd
  | .tgetc rd _ _ => some rd
  | .tgetci rd _ _ => some rd
  | .li rd _ => some rd
  | .draw => none

end Sys2Proof.Machine
end

