-- ==== Sys2Proof/Machine/Convert.lean ====
section
/-! DEFINITION. The conversion commands (R101 to R108) and LI (R109). -/

namespace Sys2Proof.Machine

open Sys2Proof

/-- FROMI, R101. -/
def execFromi (rd ra : Reg) (s : State) : Result State := .next (s.writeUnary fxFromInt rd ra)

/-- FROMU, R102. -/
def execFromu (rd ra : Reg) (s : State) : Result State := .next (s.writeUnary fxFromUnsigned rd ra)

/-- FROMB, R103: bits 31:8 of Ra are ignored. -/
def execFromb (rd ra : Reg) (s : State) : Result State :=
  .next (s.writeUnary (fun w => fxFromByte (lowByte w)) rd ra)

/-- FROMF, R104. -/
def execFromf (rd ra : Reg) (s : State) : Result State := .next (s.writeUnary fxFromFloat rd ra)

/-- TOI, R105. -/
def execToi (rd ra : Reg) (s : State) : Result State := .next (s.writeUnary fxToInt rd ra)

/-- TOU, R106. -/
def execTou (rd ra : Reg) (s : State) : Result State := .next (s.writeUnary fxToUnsigned rd ra)

/-- TOB, R107: the byte is zero-extended. -/
def execTob (rd ra : Reg) (s : State) : Result State :=
  .next (s.writeUnary (fun w => (fxToByte w).zeroExtend 32) rd ra)

/-- TOF, R108. -/
def execTof (rd ra : Reg) (s : State) : Result State := .next (s.writeUnary fxToFloat rd ra)

/-- LI, R109: its two words accepted one after the other. The words of one LI reach the block as two host writes to
CMD, which Machine/HostBus.lean processes one at a time (R78). -/
def execLi (rd : Reg) (imm : Word) (s : State) : Result State :=
  .next ((s.acceptLoad rd).acceptImmediate imm)

end Sys2Proof.Machine
end

