-- ==== Sys2Proof/Machine/FixedPoint.lean ====
section
/-! DEFINITION. The pure functions of the FXU (R12, R83 to R94), on raw FP10 patterns. -/

namespace Sys2Proof.Machine

open Sys2Proof

/-- `ONE` of R6: the raw value of 1.0. -/
def one : Word := 0x00000400#32

/-- `fx_add` of R83: the sum wraps to 32 bits. -/
def fxAdd (a b : Word) : Word := a + b

/-- `fx_sub` of R84. -/
def fxSub (a b : Word) : Word := a - b

/-- `fx_addi` of R85: the integer is scaled by 1024 first. -/
def fxAddi (a n : Word) : Word := a + n * 1024#32

/-- `fx_subi` of R86. -/
def fxSubi (a n : Word) : Word := a - n * 1024#32

/-- `fx_mul` of R87 under a given `MUL_MODE`: WRAP32 wraps the product and then shifts it arithmetically by 10; WIDE64
shifts the exact product and then wraps. -/
def fxMulIn (mode : MulMode) (a b : Word) : Word :=
  match mode with
  | .wrap32 => (a * b).sshiftRight 10
  | .wide64 => BitVec.ofInt 32 (a.toInt * b.toInt / 1024)

/-- `fx_mul` of R87. -/
def fxMul (a b : Word) : Word := fxMulIn Config.mulMode a b

/-- `fx_muli` of R88. -/
def fxMuli (a n : Word) : Word := a * n

/-- `fx_divi` of R89: the quotient rounds toward zero; a zero divisor gives `DIV0_RESULT`. -/
def fxDivi (a n : Word) : Word := if n = 0#32 then Config.div0Result a else a.sdiv n

/-- `fx_shl` of R90. -/
def fxShl (a : Word) (k : Nat) : Word := a <<< k

/-- `fx_shr` of R91: copies of bit 31 enter at the top. -/
def fxShr (a : Word) (k : Nat) : Word := a.sshiftRight k

/-- `fx_and` of R92: the mask is the raw pattern. -/
def fxAnd (a mask : Word) : Word := a &&& mask

/-- `fx_floor` of R93. -/
def fxFloor (a : Word) : Word := a &&& 0xFFFFFC00#32

/-- `fx_fract` of R94. -/
def fxFract (a : Word) : Word := a &&& 0x000003FF#32

end Sys2Proof.Machine
end

