-- ==== Sys2Proof/Machine/Fxu.lean ====
section
/-! DEFINITION. The arithmetic commands of the FXU (R83 to R94): each writes Rd and changes nothing else (R100). -/

namespace Sys2Proof.Machine

open Sys2Proof

/-- FADD, R83. -/
def execFadd (rd ra rb : Reg) (s : State) : Result State := .next (s.writeBinary fxAdd rd ra rb)

/-- FSUB, R84. -/
def execFsub (rd ra rb : Reg) (s : State) : Result State := .next (s.writeBinary fxSub rd ra rb)

/-- FADDI, R85. -/
def execFaddi (rd ra rb : Reg) (s : State) : Result State := .next (s.writeBinary fxAddi rd ra rb)

/-- FSUBI, R86. -/
def execFsubi (rd ra rb : Reg) (s : State) : Result State := .next (s.writeBinary fxSubi rd ra rb)

/-- FMUL, R87. -/
def execFmul (rd ra rb : Reg) (s : State) : Result State := .next (s.writeBinary fxMul rd ra rb)

/-- FMULI, R88. -/
def execFmuli (rd ra rb : Reg) (s : State) : Result State := .next (s.writeBinary fxMuli rd ra rb)

/-- FDIVI, R89: a zero divisor is no event (R152). -/
def execFdivi (rd ra rb : Reg) (s : State) : Result State := .next (s.writeBinary fxDivi rd ra rb)

/-- FSHL, R90. -/
def execFshl (rd ra : Reg) (k : Nat) (s : State) : Result State := .next (s.writeShift fxShl rd ra k)

/-- FSHR, R91. -/
def execFshr (rd ra : Reg) (k : Nat) (s : State) : Result State := .next (s.writeShift fxShr rd ra k)

/-- FAND, R92. -/
def execFand (rd ra rb : Reg) (s : State) : Result State := .next (s.writeBinary fxAnd rd ra rb)

/-- FFLOOR, R93. -/
def execFfloor (rd ra : Reg) (s : State) : Result State := .next (s.writeUnary fxFloor rd ra)

/-- FFRACT, R94. -/
def execFfract (rd ra : Reg) (s : State) : Result State := .next (s.writeUnary fxFract rd ra)

end Sys2Proof.Machine
end

