-- ==== Sys2Proof/Machine/Flags.lean ====
section
/-! DEFINITION. The STATUS register (R25). The block has no arithmetic flags (R21): its only status bits are BUSY, LIPEND
and the three sticky event bits. -/

namespace Sys2Proof.Machine

open Sys2Proof

/-- What STATUS reads: BUSY in bit 0, ILL in bit 1, WERR in bit 2, CFGERR in bit 3, LIPEND in bit 4 (R25). -/
def State.status (s : State) : Word :=
  BitVec.ofNat 32
    (s.busy.toNat + 2 * s.ill.toNat + 4 * s.werr.toNat + 8 * s.cfgerr.toNat + 16 * s.lipend.toNat)

/-- A host write to STATUS (R25, R158): bits 1 to 3 written as 1 clear their events; every other bit is ignored. -/
def State.clearEvents (s : State) (v : Word) : State :=
  { s with
    ill := s.ill && !v.getLsbD 1
    werr := s.werr && !v.getLsbD 2
    cfgerr := s.cfgerr && !v.getLsbD 3 }

end Sys2Proof.Machine
end

