-- ==== Sys2Proof/Machine/Registers.lean ====
section
/-! DEFINITION. The MMIO window (R23 to R38): which register stands at which offset, the fields of CTRL and of the
frame size, and what a word read from or written to each register is. -/

namespace Sys2Proof.Machine

open Sys2Proof

/-- The registers of the window (R23). -/
inductive MmioReg where
  | id
  | ctrl
  | status
  | cmd
  | camX
  | camY
  | camZ
  | camCos
  | camSin
  | horizon
  | fogStart
  | distMax
  | scaleHeight
  | skyColor
  | fbBase
  | fbStride
  | fbWidth
  | fbHeight
  | hmapBase
  | tmapBase
  | gpr (r : Reg)
  | reserved
  deriving DecidableEq, Repr

/-- The register at an offset of the window (R23); the offset's two low bits are not looked at here. -/
def mmioReg (offset : BitVec 8) : MmioReg :=
  if offset.extractLsb' 6 2 = 0b10#2 then .gpr (offset.extractLsb' 2 4).toFin
  else
    match (offset.extractLsb' 2 6).toNat with
    | 0x00 => .id
    | 0x01 => .ctrl
    | 0x02 => .status
    | 0x03 => .cmd
    | 0x04 => .camX
    | 0x05 => .camY
    | 0x06 => .camZ
    | 0x07 => .camCos
    | 0x08 => .camSin
    | 0x09 => .horizon
    | 0x0A => .fogStart
    | 0x0B => .distMax
    | 0x0C => .scaleHeight
    | 0x0D => .skyColor
    | 0x0E => .fbBase
    | 0x0F => .fbStride
    | 0x10 => .fbWidth
    | 0x11 => .fbHeight
    | 0x12 => .hmapBase
    | 0x13 => .tmapBase
    | _ => .reserved

/-- The offset of CMD (R26). -/
def cmdOffset : BitVec 8 := 0x0C#8

/-- R39: only aligned 32-bit accesses are defined. -/
def properAccess (size : AccessSize) (offset : BitVec 8) : Bool :=
  decide (size = .word) && decide (offset.extractLsb' 0 2 = 0#2)

/-- The window offset that a platform address selects: the window is the 256 bytes from `MMIO_BASE` (R23). -/
def windowOffset (addr : Word) : Option (BitVec 8) :=
  if addr.extractLsb' 8 24 = Config.mmioPage then some (addr.extractLsb' 0 8) else none

/-- The host action that is a write of `v` at a platform address in the window. -/
def busWrite (size : AccessSize) (addr v : Word) : Option HostAction :=
  (windowOffset addr).map fun o => .mmioWrite size o v

/-- The host action that is a read at a platform address in the window. -/
def busRead (size : AccessSize) (addr : Word) : Option HostAction :=
  (windowOffset addr).map fun o => .mmioRead size o

/-- The bits of CTRL that are stored (R24, R38). -/
def ctrlMask : Word := 0x00003FF3#32

/-- The bits of SKY_COLOR that are stored (R32, R38). -/
def skyMask : Word := 0x00FFFFFF#32

/-- The bits of FB_WIDTH and of FB_HEIGHT that are stored (R33, R38). -/
def sizeMask : Word := 0x0000FFFF#32

/-- The host-written registers after the host wrote `v` to `r`: reserved bits are dropped (R38). A register that is not
one of them leaves them as they are. -/
def ControlRegs.write (c : ControlRegs) (r : MmioReg) (v : Word) : ControlRegs :=
  match r with
  | .ctrl => { c with ctrl := v &&& ctrlMask }
  | .camX => { c with camX := v }
  | .camY => { c with camY := v }
  | .camZ => { c with camZ := v }
  | .camCos => { c with camCos := v }
  | .camSin => { c with camSin := v }
  | .horizon => { c with horizon := v }
  | .fogStart => { c with fogStart := v }
  | .distMax => { c with distMax := v }
  | .scaleHeight => { c with scaleHeight := v }
  | .skyColor => { c with skyColor := v &&& skyMask }
  | .fbBase => { c with fbBase := v }
  | .fbStride => { c with fbStride := v }
  | .fbWidth => { c with fbWidth := v &&& sizeMask }
  | .fbHeight => { c with fbHeight := v &&& sizeMask }
  | .hmapBase => { c with hmapBase := v }
  | .tmapBase => { c with tmapBase := v }
  | .id | .status | .cmd | .gpr _ | .reserved => c

/-- What the host reads from a register of the window (R23, R25 to R35). Reads change nothing. -/
def State.readMmio (s : State) (r : MmioReg) : Word :=
  match r with
  | .id => Config.idValue
  | .ctrl => s.ctl.ctrl
  | .status => s.status
  | .cmd => 0#32
  | .camX => s.ctl.camX
  | .camY => s.ctl.camY
  | .camZ => s.ctl.camZ
  | .camCos => s.ctl.camCos
  | .camSin => s.ctl.camSin
  | .horizon => s.ctl.horizon
  | .fogStart => s.ctl.fogStart
  | .distMax => s.ctl.distMax
  | .scaleHeight => s.ctl.scaleHeight
  | .skyColor => s.ctl.skyColor
  | .fbBase => s.ctl.fbBase
  | .fbStride => s.ctl.fbStride
  | .fbWidth => s.ctl.fbWidth
  | .fbHeight => s.ctl.fbHeight
  | .hmapBase => s.ctl.hmapBase
  | .tmapBase => s.ctl.tmapBase
  | .gpr i => s.reg i
  | .reserved => 0#32

/-- CTRL.FOG_EN (R24). -/
def ControlRegs.fogEn (c : ControlRegs) : Bool := c.ctrl.getLsbD 0

/-- CTRL.FILTER (R24): bilinear sampling in DRAW. -/
def ControlRegs.filter (c : ControlRegs) : Bool := c.ctrl.getLsbD 1

/-- CTRL.MAP_LOG2 (R24). -/
def ControlRegs.mapLog2 (c : ControlRegs) : Nat := (c.ctrl.extractLsb' 4 4).toNat

/-- CTRL.R_OFF, G_OFF and B_OFF (R24): a channel's byte offset inside a pixel. -/
def ControlRegs.channelOffset (c : ControlRegs) (ch : Channel) : Word :=
  match ch with
  | .red => (c.ctrl.extractLsb' 8 2).zeroExtend 32
  | .green => (c.ctrl.extractLsb' 10 2).zeroExtend 32
  | .blue => (c.ctrl.extractLsb' 12 2).zeroExtend 32

/-- `W` of R33: FB_WIDTH[15:0]. -/
def ControlRegs.width (c : ControlRegs) : Nat := (c.fbWidth.extractLsb' 0 16).toNat

/-- `H` of R33: FB_HEIGHT[15:0]. -/
def ControlRegs.height (c : ControlRegs) : Nat := (c.fbHeight.extractLsb' 0 16).toNat

end Sys2Proof.Machine
end

