-- ==== Sys2Proof/Machine/Sampler.lean ====
section
/-! DEFINITION. The terrain sample unit (R114 to R127). The sample functions read the map registers they are given: the
live ones for the TGET commands, the latched ones for a pass. -/

namespace Sys2Proof.Machine

open Sys2Proof

/-- `S` of R114, in 1..32768. -/
def ControlRegs.mapSize (c : ControlRegs) : Word := 1#32 <<< c.mapLog2

/-- `wrap` of R114, on the 32-bit pattern. -/
def wrap (c : ControlRegs) (n : Word) : Word := n &&& (c.mapSize - 1#32)

/-- The wrapped integer cell of a coordinate (R115). -/
def cellOf (c : ControlRegs) (coord : Word) : Word := wrap c (fxToInt coord)

/-- `haddr` of R116. -/
def heightAddr (c : ControlRegs) (ci cj : Word) : Word := c.hmapBase + (cj * c.mapSize + ci)

/-- `taddr` of R116; `k` is 0 for red, 1 for green, 2 for blue and 3 for alpha (R52). -/
def texelAddr (c : ControlRegs) (ci cj k : Word) : Word := c.tmapBase + 4#32 * (cj * c.mapSize + ci) + k

/-- The height byte of a wrapped cell (R51). -/
def heightByte (c : ControlRegs) (m : Memory) (ci cj : Word) : Byte := m.read (heightAddr c ci cj)

/-- One byte of the texel of a wrapped cell (R52). -/
def texelByte (c : ControlRegs) (m : Memory) (ci cj k : Word) : Byte := m.read (texelAddr c ci cj k)

/-- The cells and weights of a bilinear sample (R117): `w10` goes with the corner (`i1`, `j0`). -/
structure Corners where
  i0 : Word
  i1 : Word
  j0 : Word
  j1 : Word
  w00 : Word
  w10 : Word
  w01 : Word
  w11 : Word
  deriving DecidableEq, Repr

/-- R117: each coordinate's cell and wrapped successor, and the four weights. -/
def corners (c : ControlRegs) (i j : Word) : Corners :=
  let i0 := cellOf c i
  let j0 := cellOf c j
  let fx := fxFract i
  let fy := fxFract j
  { i0 := i0
    i1 := wrap c (i0 + 1#32)
    j0 := j0
    j1 := wrap c (j0 + 1#32)
    w00 := fxMul (fxSub one fx) (fxSub one fy)
    w10 := fxMul fx (fxSub one fy)
    w01 := fxMul (fxSub one fx) fy
    w11 := fxMul fx fy }

/-- `blend` of R119. -/
def blend (q : Corners) (s00 s10 s01 s11 : Byte) : Word :=
  fxAdd
    (fxAdd (fxAdd (fxMul (fxFromByte s00) q.w00) (fxMul (fxFromByte s10) q.w10))
      (fxMul (fxFromByte s01) q.w01))
    (fxMul (fxFromByte s11) q.w11)

/-- A packed colour (R122, decision D22): red in bits 7:0, alpha in bits 31:24. -/
def packColor (a b g r : Byte) : Word := a ++ b ++ g ++ r

/-- `sample_h` of R120. -/
def sampleHeight (c : ControlRegs) (m : Memory) (i j : Word) : Word :=
  fxFromByte (heightByte c m (cellOf c i) (cellOf c j))

/-- `sample_hi` of R121. -/
def sampleHeightBilinear (c : ControlRegs) (m : Memory) (i j : Word) : Word :=
  let q := corners c i j
  blend q (heightByte c m q.i0 q.j0) (heightByte c m q.i1 q.j0) (heightByte c m q.i0 q.j1)
    (heightByte c m q.i1 q.j1)

/-- `sample_c` of R122. -/
def sampleColor (c : ControlRegs) (m : Memory) (i j : Word) : Word :=
  let ci := cellOf c i
  let cj := cellOf c j
  packColor (texelByte c m ci cj 3#32) (texelByte c m ci cj 2#32) (texelByte c m ci cj 1#32)
    (texelByte c m ci cj 0#32)

/-- One interpolated channel of R123, cut to a byte by floor. -/
def blendChannel (c : ControlRegs) (m : Memory) (q : Corners) (k : Word) : Byte :=
  fxToByte (blend q (texelByte c m q.i0 q.j0 k) (texelByte c m q.i1 q.j0 k) (texelByte c m q.i0 q.j1 k)
    (texelByte c m q.i1 q.j1 k))

/-- `sample_ci` of R123: alpha is that of corner (`i0`, `j0`), not blended. -/
def sampleColorBilinear (c : ControlRegs) (m : Memory) (i j : Word) : Word :=
  let q := corners c i j
  packColor (texelByte c m q.i0 q.j0 3#32) (blendChannel c m q 2#32) (blendChannel c m q 1#32)
    (blendChannel c m q 0#32)

/-- TGETH, R124. -/
def execTgeth (rd ra rb : Reg) (s : State) : Result State :=
  .next (s.writeBinary (sampleHeight s.ctl s.mem) rd ra rb)

/-- TGETHI, R125. -/
def execTgethi (rd ra rb : Reg) (s : State) : Result State :=
  .next (s.writeBinary (sampleHeightBilinear s.ctl s.mem) rd ra rb)

/-- TGETC, R126. -/
def execTgetc (rd ra rb : Reg) (s : State) : Result State :=
  .next (s.writeBinary (sampleColor s.ctl s.mem) rd ra rb)

/-- TGETCI, R127. -/
def execTgetci (rd ra rb : Reg) (s : State) : Result State :=
  .next (s.writeBinary (sampleColorBilinear s.ctl s.mem) rd ra rb)

end Sys2Proof.Machine
end

