-- ==== Sys2Proof/Machine/Rasterizer.lean ====
section
/-! DEFINITION. The column rasterizer unit (R131 to R146): DRAW starts a pass, and each turn of the sequencer advances
the pass by one byte write or one column's sampling, in the order of R146. -/

namespace Sys2Proof.Machine

open Sys2Proof

/-- The channel written after `ch` in a pixel (R54); none after blue. -/
def Channel.next (ch : Channel) : Option Channel :=
  match ch with
  | .red => some .green
  | .green => some .blue
  | .blue => none

/-- A channel's byte of a packed colour (R54). -/
def channelByte (color : Word) (ch : Channel) : Byte :=
  match ch with
  | .red => color.extractLsb' 0 8
  | .green => color.extractLsb' 8 8
  | .blue => color.extractLsb' 16 8

/-- The address of byte 0 of pixel (`x`, `y`) (R53): the row product wraps. -/
def pixelAddr (c : ControlRegs) (x y : Nat) : Word :=
  c.fbBase + BitVec.ofNat 32 y * c.fbStride + 4#32 * BitVec.ofNat 32 x

/-- The address of a channel's byte of pixel (`x`, `y`) (R53). -/
def channelAddr (c : ControlRegs) (x y : Nat) (ch : Channel) : Word := pixelAddr c x y + c.channelOffset ch

/-- One of the three byte writes of `put_pixel` (R54). -/
def putChannel (c : ControlRegs) (m : Memory) (x y : Nat) (color : Word) (ch : Channel) : Memory :=
  m.write (channelAddr c x y ch) (channelByte color ch)

/-- The scan line of depth `z` (R137): `dx` and `dy` truncate toward zero. -/
def scanLine (c : ControlRegs) (z : Nat) : ScanLine :=
  let zw := BitVec.ofNat 32 z
  let cz := fxMuli c.camCos zw
  let sz := fxMuli c.camSin zw
  let lx := -cz - sz + c.camX
  let ly := sz - cz + c.camY
  let rx := cz - sz + c.camX
  let ry := -sz - cz + c.camY
  let w := BitVec.ofNat 32 c.width
  { lx := lx, ly := ly, dx := fxDivi (fxSub rx lx) w, dy := fxDivi (fxSub ry ly) w }

/-- `px` of R137. -/
def columnX (scan : ScanLine) (i : Nat) : Word := fxAdd scan.lx (fxMuli scan.dx (BitVec.ofNat 32 i))

/-- `py` of R137. -/
def columnY (scan : ScanLine) (i : Nat) : Word := fxAdd scan.ly (fxMuli scan.dy (BitVec.ofNat 32 i))

/-- The height sample of R138. -/
def passHeight (c : ControlRegs) (m : Memory) (px py : Word) : Word :=
  if c.filter then sampleHeightBilinear c m px py else sampleHeight c m px py

/-- The colour sample of R138. -/
def passColor (c : ControlRegs) (m : Memory) (px py : Word) : Word :=
  if c.filter then sampleColorBilinear c m px py else sampleColor c m px py

/-- `t` of R139, before it is cut to an integer. -/
def projected (c : ControlRegs) (h : Word) (z : Nat) : Word :=
  fxAddi (fxDivi (fxMuli (fxSub h c.camZ) c.scaleHeight) (BitVec.ofNat 32 z)) c.horizon

/-- `rh` of R139: the floor of `t`, clamped to a minimum of 0. -/
def projectedHeight (c : ControlRegs) (h : Word) (z : Nat) : Word :=
  let rh := fxToInt (projected c h z)
  if rh.slt 0#32 then 0#32 else rh

/-- The fog weight `w` of R141, not clamped. -/
def fogWeight (c : ControlRegs) (z : Nat) : Word :=
  fxDivi (fxFromInt (BitVec.ofNat 32 z - c.fogStart)) (c.distMax - c.fogStart)

/-- One channel of the fog blend of R141. -/
def fogChannel (weight color sky : Word) (ch : Channel) : Byte :=
  fxToByte
    (fxAdd (fxMul (fxFromByte (channelByte color ch)) (fxSub one weight))
      (fxMul (fxFromByte (channelByte sky ch)) weight))

/-- `fog(c, z)` of R141; the top byte plays no part in a pixel write. -/
def fogColor (c : ControlRegs) (color : Word) (z : Nat) : Word :=
  let w := fogWeight c z
  packColor 0#8 (fogChannel w color c.skyColor .blue) (fogChannel w color c.skyColor .green)
    (fogChannel w color c.skyColor .red)

/-- Is depth `z` fogged (R140)? The comparison is signed. -/
def fogApplies (c : ControlRegs) (z : Nat) : Bool := c.fogEn && decide (c.fogStart.toInt < (z : Int))

/-- `col` of R140. -/
def lineColor (c : ControlRegs) (color : Word) (z : Nat) : Word :=
  if fogApplies c z then fogColor c color z else color &&& 0x00FFFFFF#32

/-- `min(rh, H)` of R140, for an `rh` that R139 has clamped. -/
def lineTop (c : ControlRegs) (rh : Word) : Nat := min rh.toNat c.height

/-- Entry `i` of a column array (R41). -/
def columnAt (cols : List Word) (i : Nat) : Word := cols.getD i Config.resetColmax

/-- A column array with entry `i` set to `v`. -/
def setColumn (cols : List Word) (i : Nat) (v : Word) : List Word :=
  match cols, i with
  | [], 0 => [v]
  | [], k + 1 => Config.resetColmax :: setColumn [] k v
  | _ :: rest, 0 => v :: rest
  | x :: rest, k + 1 => x :: setColumn rest k v

/-- A column array with entries 0 to `n` − 1 set to 0 (R135). -/
def clearColumns (n : Nat) (cols : List Word) : List Word :=
  match n, cols with
  | 0, cols => cols
  | k + 1, [] => 0#32 :: clearColumns k []
  | k + 1, _ :: rest => 0#32 :: clearColumns k rest

/-- `COLMAX[i]` (R140). -/
def State.columnMax (s : State) (i : Nat) : Word := columnAt s.colmax i

/-- `COLMAX[i] <- v` (R140). -/
def State.setColumnMax (s : State) (i : Nat) (v : Word) : State :=
  { s with colmax := setColumn s.colmax i v }

/-- The pass `p` goes on at `phase`. -/
def State.goOn (s : State) (p : Pass) (phase : Phase) : State :=
  { s with pass := some { p with phase := phase } }

/-- R134: what follows the sky byte of channel `ch` of pixel (`x`, `y`). -/
def afterSky (c : ControlRegs) (y x : Nat) (ch : Channel) : Phase :=
  match ch.next with
  | some ch' => .sky y x ch'
  | none =>
    if x + 1 < c.width then .sky y (x + 1) .red
    else if y + 1 < c.height then .sky (y + 1) 0 .red
    else .clear

/-- R136: what follows column `i` of depth `z`. -/
def afterColumn (c : ControlRegs) (z i : Nat) (scan : ScanLine) : Phase :=
  if i + 1 < c.width then .column z (i + 1) scan else .depth (z + 1)

/-- R136, R144: depth `z` starts with its scan line, or the pass ends and BUSY becomes 0. -/
def State.startDepth (s : State) (p : Pass) (z : Nat) : State :=
  if (z : Int) ≤ p.latch.distMax.toInt then s.goOn p (.column z 0 (scanLine p.latch z))
  else { s with pass := none }

/-- R138 to R140: column `i` of depth `z` is sampled and projected. A line with no height to draw only raises COLMAX;
the others draw first and raise it after. -/
def State.sampleColumn (s : State) (p : Pass) (z i : Nat) (scan : ScanLine) : State :=
  let c := p.latch
  let px := columnX scan i
  let py := columnY scan i
  let rh := projectedHeight c (passHeight c s.mem px py) z
  let old := s.columnMax i
  if old.slt rh then
    let lo := old.toInt.toNat
    let top := lineTop c rh
    if lo < top then
      s.goOn p (.line z i scan lo top rh (lineColor c (passColor c s.mem px py) z) .red)
    else (s.setColumnMax i rh).goOn p (afterColumn c z i scan)
  else s.goOn p (afterColumn c z i scan)

/-- R140, R54: one byte of a line is written; row 0 is the top of the screen. After the line's last byte COLMAX takes
the unclamped `rh`. -/
def State.drawLineByte (s : State) (p : Pass) (z i : Nat) (scan : ScanLine) (hh top : Nat) (rh color : Word)
    (ch : Channel) : State :=
  let c := p.latch
  let s' := { s with mem := putChannel c s.mem i (c.height - 1 - hh) color ch }
  match ch.next with
  | some ch' => s'.goOn p (.line z i scan hh top rh color ch')
  | none =>
    if hh + 1 < top then s'.goOn p (.line z i scan (hh + 1) top rh color .red)
    else (s'.setColumnMax i rh).goOn p (afterColumn c z i scan)

/-- One turn of the sequencer in pass `p` (R16, R42). DEDUCED, safe (notes/assumptions/16.md and 17.md): what one turn
holds. -/
def State.advance (s : State) (p : Pass) : State :=
  match p.phase with
  | .sky y x ch =>
    { s with mem := putChannel p.latch s.mem x y p.latch.skyColor ch }.goOn p (afterSky p.latch y x ch)
  | .clear => { s with colmax := clearColumns p.latch.width s.colmax }.goOn p (.depth 1)
  | .depth z => s.startDepth p z
  | .column z i scan => s.sampleColumn p z i scan
  | .line z i scan hh top rh color ch => s.drawLineByte p z i scan hh top rh color ch

/-- The sequencer's turn: it advances a pass, and does nothing while there is none (R167). -/
def State.sequencerTurn (s : State) : State :=
  match s.pass with
  | none => s
  | some p => s.advance p

/-- R132, R133: DRAW is rejected, is a no-op, or latches the registers and starts a pass. -/
def State.startPass (s : State) : State :=
  if Config.maxWidth < s.ctl.width then s.record .configuration
  else if s.ctl.width = 0 ∨ s.ctl.height = 0 then s
  else { s with pass := some { latch := s.ctl, phase := .sky 0 0 .red } }

/-- DRAW, R131. -/
def execDraw (s : State) : Result State := .next s.startPass

end Sys2Proof.Machine
end

