-- ==== Sys2Proof/Machine/Dispatch.lean ====
section
/-! DEFINITION. The meaning of each command (R75), one arm per constructor. -/

namespace Sys2Proof.Machine

open Sys2Proof

/-- Executes a command's rule (the last branch of R78). -/
def exec (i : Instr) (s : State) : Host.Outcome State Fault Refusal :=
  match i with
  | .fadd rd ra rb => Sys2Proof.Machine.execFadd rd ra rb s
  | .fsub rd ra rb => Sys2Proof.Machine.execFsub rd ra rb s
  | .faddi rd ra rb => Sys2Proof.Machine.execFaddi rd ra rb s
  | .fsubi rd ra rb => Sys2Proof.Machine.execFsubi rd ra rb s
  | .fmul rd ra rb => Sys2Proof.Machine.execFmul rd ra rb s
  | .fmuli rd ra rb => Sys2Proof.Machine.execFmuli rd ra rb s
  | .fdivi rd ra rb => Sys2Proof.Machine.execFdivi rd ra rb s
  | .fshl rd ra k => Sys2Proof.Machine.execFshl rd ra k s
  | .fshr rd ra k => Sys2Proof.Machine.execFshr rd ra k s
  | .fand rd ra rb => Sys2Proof.Machine.execFand rd ra rb s
  | .ffloor rd ra => Sys2Proof.Machine.execFfloor rd ra s
  | .ffract rd ra => Sys2Proof.Machine.execFfract rd ra s
  | .fromi rd ra => Sys2Proof.Machine.execFromi rd ra s
  | .fromu rd ra => Sys2Proof.Machine.execFromu rd ra s
  | .fromb rd ra => Sys2Proof.Machine.execFromb rd ra s
  | .fromf rd ra => Sys2Proof.Machine.execFromf rd ra s
  | .toi rd ra => Sys2Proof.Machine.execToi rd ra s
  | .tou rd ra => Sys2Proof.Machine.execTou rd ra s
  | .tob rd ra => Sys2Proof.Machine.execTob rd ra s
  | .tof rd ra => Sys2Proof.Machine.execTof rd ra s
  | .tgeth rd ra rb => Sys2Proof.Machine.execTgeth rd ra rb s
  | .tgethi rd ra rb => Sys2Proof.Machine.execTgethi rd ra rb s
  | .tgetc rd ra rb => Sys2Proof.Machine.execTgetc rd ra rb s
  | .tgetci rd ra rb => Sys2Proof.Machine.execTgetci rd ra rb s
  | .li rd imm => Sys2Proof.Machine.execLi rd imm s
  | .draw => Sys2Proof.Machine.execDraw s

end Sys2Proof.Machine
end

