-- ==== Sys2Proof/Machine/HostBus.lean ====
section
/-! DEFINITION. What the outside does to the block: host accesses to the MMIO window (R36 to R39, R78), accesses to MEM
(R62), reset (R168), and the sequencer's turn. -/

namespace Sys2Proof.Machine

open Sys2Proof

/-- A CMD word that is neither dropped nor an immediate (R78): decoded, then executed or rejected as illegal (R79).
LI's command word only makes the next word its immediate (R76). -/
def runCommandWord (w : Word) (s : State) : Result State :=
  match decodeWord w with
  | .error _ => .next (s.record .illegalCommand)
  | .ok (.command i) => exec i s
  | .ok (.needsImmediate rd) => .next (s.acceptLoad rd)

/-- A host write of `w` to CMD (R78, R155). With LIPEND = 1 the word completes the LI of register LIRD. -/
def writeCommand (w : Word) (s : State) : Result State :=
  if s.busy then .next (s.record .writeWhileBusy)
  else if s.lipend then exec (.li s.lird w) s
  else runCommandWord w s

/-- A host write to CTRL, a camera or configuration register, or the register-file window: dropped while BUSY = 1
(R35, R37, R38). -/
def writeRegister (r : MmioReg) (v : Word) (s : State) : State :=
  if s.busy then s.record .writeWhileBusy
  else
    match r with
    | .gpr i => s.setReg i v
    | r => { s with ctl := s.ctl.write r v }

/-- A host write to the MMIO window. Writes to ID and to reserved offsets are ignored, and STATUS takes writes while
BUSY = 1 (R25, R27, R37). -/
def mmioWrite (size : AccessSize) (offset : BitVec 8) (v : Word) (s : State) : Result State :=
  if properAccess size offset then
    match mmioReg offset with
    | .id => .next s
    | .reserved => .next s
    | .status => .next (s.clearEvents v)
    | .cmd => writeCommand v s
    | r => .next (writeRegister r v s)
  else .fault .badMmioAccess

/-- A host read of the MMIO window: always allowed, without side effect (R26, R37). -/
def mmioRead (size : AccessSize) (offset : BitVec 8) (s : State) : Result State :=
  if properAccess size offset then .next { s with readData := s.readMmio (mmioReg offset) }
  else .fault .badMmioAccess

/-- Some number below `n` satisfies `p`. -/
def anyBelow (n : Nat) (p : Nat → Bool) : Bool :=
  match n with
  | 0 => false
  | k + 1 => p k || anyBelow k p

/-- Is `a` one of the four bytes of some pixel of the W×H frame (R53)? -/
def inFrame (c : ControlRegs) (a : Word) : Bool :=
  anyBelow c.height fun y => decide ((a - pixelAddr c 0 y).toNat < 4 * c.width)

/-- Is `a` a byte of the height map (R51)? -/
def inHeightMap (c : ControlRegs) (a : Word) : Bool :=
  decide ((a - c.hmapBase).toNat < 2 ^ c.mapLog2 * 2 ^ c.mapLog2)

/-- Is `a` a byte of the texture (R52)? -/
def inTexture (c : ControlRegs) (a : Word) : Bool :=
  decide ((a - c.tmapBase).toNat < 4 * (2 ^ c.mapLog2 * 2 ^ c.mapLog2))

/-- The host, or another bus master, writes a byte of MEM. During a pass the frame buffer and the maps are not to be
written (R62(b), R153(c)). DESIGN CHOICE, safe (notes/assumptions/6.md). The write goes through as soon as the pass has ended,
although R62(c) and R64 order the pass only at the host's read of STATUS: DESIGN CHOICE, unsafe (notes/assumptions/22.md). -/
def hostMemWrite (addr : Word) (v : Byte) (s : State) : Result State :=
  match s.pass with
  | none => .next { s with mem := s.mem.write addr v }
  | some p =>
    if inFrame p.latch addr then .fault .frameWriteDuringPass
    else if inHeightMap p.latch addr || inTexture p.latch addr then .fault .mapWriteDuringPass
    else .next { s with mem := s.mem.write addr v }

/-- The host, or another bus master, reads a byte of MEM. During a pass the frame buffer is not to be read (R62(b),
R153(c)). DESIGN CHOICE, safe (notes/assumptions/6.md). Every byte the pass wrote is visible as soon as the pass has ended,
although R62(c) and R64 order the pass only at the host's read of STATUS: DESIGN CHOICE, unsafe
(notes/assumptions/22.md). -/
def hostMemRead (addr : Word) (s : State) : Result State :=
  let answer := { s with readData := (s.mem.read addr).zeroExtend 32 }
  match s.pass with
  | none => .next answer
  | some p => if inFrame p.latch addr then .fault .frameReadDuringPass else .next answer

/-- One action of the outside. -/
def perform (a : HostAction) (s : State) : Result State :=
  match a with
  | .mmioWrite size offset v => mmioWrite size offset v s
  | .mmioRead size offset => mmioRead size offset s
  | .memWrite addr v => hostMemWrite addr v s
  | .memRead addr => hostMemRead addr s
  | .reset => .next s.applyReset
  | .wait => .next s.sequencerTurn

/-- The host write of `w` to CMD. -/
def commandWrite (w : Word) : HostAction := .mmioWrite .word cmdOffset w

/-- `s` with the words of one command about to reach the block as the host's next writes to CMD: no pass runs, and for LI
the command word is already accepted and its immediate word is the next write. -/
def State.withCommand (s : State) (w imm : Word) : State :=
  match decodeWord w with
  | .ok (.needsImmediate rd) =>
    { s with pass := none, lipend := true, lird := rd, inputs := commandWrite imm :: s.inputs }
  | _ => { s with pass := none, lipend := false, inputs := commandWrite w :: s.inputs }

end Sys2Proof.Machine
end

