-- ==== Sys2Proof/Machine/Step.lean ====
section
/-! DEFINITION. One step of the machine: the next action of the outside or, when it has none, the sequencer's turn. -/

namespace Sys2Proof.Machine

open Sys2Proof

/-- One step (R16, R20). DESIGN CHOICE, safe (notes/assumptions/5.md): how the outside and a pass interleave is what
`inputs` says. -/
def step (s : State) : Host.Outcome State Fault Refusal :=
  match s.inputs with
  | [] => .next s.sequencerTurn
  | a :: rest => perform a { s with inputs := rest }

/-- `s` with the instruction whose bits are `w` placed where the next step takes it: as the host's next write to CMD
(notes/assumptions/9.md). The first word is in bits 31..0 and LI's immediate in bits 63..32. -/
def State.withFetchWord (s : State) (nbits w : Nat) : State :=
  let v := w % 2 ^ nbits
  s.withCommand (BitVec.ofNat 32 v) (BitVec.ofNat 32 (v / 2 ^ 32))

end Sys2Proof.Machine
end

