-- ==== Sys2Proof/Machine/Frame.lean ====
section
/-! DEFINITION. A whole pass as one function: the loops of R134 to R140 as the spec writes them. The machine does not call
it; statements compare the pass the machine runs with it. -/

namespace Sys2Proof.Machine

open Sys2Proof

/-- `f 0`, then `f 1`, up to `f (n - 1)`. -/
def loop {α : Type} (n : Nat) (f : Nat → α → α) (a : α) : α :=
  match n with
  | 0 => a
  | k + 1 => f k (loop k f a)

/-- `put_pixel` of R54: three byte writes in order. -/
def putPixel (c : ControlRegs) (m : Memory) (x y : Nat) (color : Word) : Memory :=
  putChannel c (putChannel c (putChannel c m x y color .red) x y color .green) x y color .blue

/-- What a pass changes: MEM and the column array. -/
structure Canvas where
  mem : Memory
  cols : List Word
  deriving DecidableEq, Repr

/-- R134: every pixel takes the sky colour. -/
def skyFill (c : ControlRegs) (m : Memory) : Memory :=
  loop c.height (fun y m => loop c.width (fun x m => putPixel c m x y c.skyColor) m) m

/-- The `for hh` loop of R140. -/
def drawLine (c : ControlRegs) (i lo top : Nat) (color : Word) (m : Memory) : Memory :=
  loop (top - lo) (fun k m => putPixel c m i (c.height - 1 - (lo + k)) color) m

/-- R138 to R140 for one column of one depth. -/
def drawColumn (c : ControlRegs) (z : Nat) (i : Nat) (v : Canvas) : Canvas :=
  let px := columnX (scanLine c z) i
  let py := columnY (scanLine c z) i
  let rh := projectedHeight c (passHeight c v.mem px py) z
  let old := columnAt v.cols i
  if old.slt rh then
    { mem := drawLine c i old.toInt.toNat (lineTop c rh) (lineColor c (passColor c v.mem px py) z) v.mem
      cols := setColumn v.cols i rh }
  else v

/-- R137 to R140 for one depth. -/
def drawDepth (c : ControlRegs) (z : Nat) (v : Canvas) : Canvas := loop c.width (drawColumn c z) v

/-- R134 to R140: the sky, the cleared column array, and the depths 1 to DIST_MAX. -/
def drawFrame (c : ControlRegs) (v : Canvas) : Canvas :=
  loop c.distMax.toInt.toNat (fun k => drawDepth c (k + 1))
    { mem := skyFill c v.mem, cols := clearColumns c.width v.cols }

end Sys2Proof.Machine
end

