-- ==== Sys2Proof/Safety.lean ====
section
/-! DEFINITION. What counts as a safe run, in the terms statements use: the machine's invariant, and the host's
obligations (R19, R39, R62, R153). -/

namespace Sys2Proof.Machine

open Sys2Proof

/-- The bits that R24, R32 and R33 reserve are 0 (R38). -/
def ControlRegs.reservedZero (c : ControlRegs) : Bool :=
  decide (c.ctrl &&& ~~~ctrlMask = 0#32) && decide (c.skyColor &&& ~~~skyMask = 0#32)
    && decide (c.fbWidth &&& ~~~sizeMask = 0#32) && decide (c.fbHeight &&& ~~~sizeMask = 0#32)

/-- The latched registers allow a pass to have started (R132). -/
def ControlRegs.drawable (c : ControlRegs) : Bool :=
  decide (0 < c.width) && decide (c.width ≤ Config.maxWidth) && decide (0 < c.height)

/-- The loop counters of a phase are in the ranges of R134 to R140. -/
def Phase.inRange (c : ControlRegs) (ph : Phase) : Bool :=
  match ph with
  | .sky y x _ => decide (y < c.height) && decide (x < c.width)
  | .clear => true
  | .depth z => decide (1 ≤ z) && decide (z ≤ 2 ^ 31)
  | .column z i scan =>
    decide (1 ≤ z) && decide ((z : Int) ≤ c.distMax.toInt) && decide (i < c.width) && decide (scan = scanLine c z)
  | .line z i scan hh top rh _ _ =>
    decide (1 ≤ z) && decide ((z : Int) ≤ c.distMax.toInt) && decide (i < c.width) && decide (scan = scanLine c z)
      && decide (hh < top) && decide (top = lineTop c rh) && decide (0 ≤ rh.toInt)

/-- A line being drawn starts at its column's recorded height and will raise it (R140). -/
def Phase.raises (cols : List Word) (ph : Phase) : Bool :=
  match ph with
  | .line _ i _ hh _ rh _ _ =>
    decide ((columnAt cols i).toInt < rh.toInt) && decide ((columnAt cols i).toInt ≤ (hh : Int))
  | .sky _ _ _ | .clear | .depth _ | .column _ _ _ => true

/-- A pass holds the registers as they stand (R133), may have started, its counters are in range, and the line it is
drawing raises its column. -/
def passSound (ctl : ControlRegs) (cols : List Word) (p : Pass) : Bool :=
  decide (p.latch = ctl) && p.latch.drawable && p.phase.inRange p.latch && p.phase.raises cols

/-- No entry of the column array is negative, and there are at most `MAX_WIDTH` (R41, R148). -/
def columnsSound (cols : List Word) : Bool :=
  decide (cols.length ≤ Config.maxWidth) && cols.all fun v => decide (0 ≤ v.toInt)

/-- The machine's invariant: MEM is in its canonical form, reserved bits read 0, no LI is pending during a pass, and a
pass in progress is sound. -/
def State.inv (s : State) : Bool :=
  s.mem.wf && s.ctl.reservedZero && columnsSound s.colmax
    && match s.pass with
      | none => true
      | some p => !s.lipend && passSound s.ctl s.colmax p

/-- The registers that the machine's next action reads (R18, R19). -/
def nextReads (s : State) : List Reg :=
  match s.inputs with
  | .mmioRead _ offset :: _ =>
    match mmioReg offset with
    | .gpr r => [r]
    | _ => []
  | .mmioWrite _ offset w :: _ =>
    if decide (mmioReg offset = .cmd) && !s.busy && !s.lipend then
      match decodeWord w with
      | .ok (.command i) => sources i
      | _ => []
    else []
  | _ => []

/-- R153(b): the next action does not read a register that nothing has written since reset. -/
def State.readsDefined (s : State) : Bool := (nextReads s).all fun r => s.wasWritten r

/-- No step of the next `n` breaks the host's obligations. -/
def SafeRun (n : Nat) (s : State) : Prop :=
  match n with
  | 0 => True
  | k + 1 => s.readsDefined = true ∧ ∃ t, step s = .next t ∧ SafeRun k t

end Sys2Proof.Machine
end

