-- ==== Sys2Proof/Certificates/Slice0/Obligations.lean ====
section
/-! DEFINITION. What this model is claimed to satisfy, each statement in the spec's own arithmetic: integers, numbers and
bytes, not the bit operations the model computes with. OBLIGATIONS.json lists them with the rules they formalise. -/

namespace Sys2Proof.Claim

open Sys2Proof Sys2Proof.Machine

/-- `s32` of R10, as the raw pattern of the wrapped value. -/
def s32 (v : Int) : Word := BitVec.ofInt 32 v

/-- A word of format RRR with the operand fields of R70. -/
def rrr (op : Nat) (d a b : Reg) : Word :=
  BitVec.ofNat 32 (op * 2 ^ 26 + d.val * 2 ^ 22 + a.val * 2 ^ 18 + b.val * 2 ^ 14)

/-- A word of format RR. -/
def rr (op : Nat) (d a : Reg) : Word := BitVec.ofNat 32 (op * 2 ^ 26 + d.val * 2 ^ 22 + a.val * 2 ^ 18)

/-- A word of format RRS. -/
def rrs (op : Nat) (d a : Reg) (k : Fin 32) : Word :=
  BitVec.ofNat 32 (op * 2 ^ 26 + d.val * 2 ^ 22 + a.val * 2 ^ 18 + k.val)

/-- The same general registers. -/
def SameRegisters (s t : State) : Prop :=
  (∀ r, t.reg r = s.reg r) ∧ ∀ r, t.wasWritten r = s.wasWritten r

/-- The same host-written registers. -/
def SameControl (s t : State) : Prop := t.ctl = s.ctl

/-- The same LI state. -/
def SameLoad (s t : State) : Prop := t.lipend = s.lipend ∧ t.lird = s.lird

/-- The same event bits. -/
def SameEvents (s t : State) : Prop := t.ill = s.ill ∧ t.werr = s.werr ∧ t.cfgerr = s.cfgerr

/-- The same pass in progress, and the same column array. -/
def SamePass (s t : State) : Prop := t.pass = s.pass ∧ t.colmax = s.colmax

/-- Every byte of MEM reads as before. -/
def SameMemory (s t : State) : Prop := ∀ a, t.mem.read a = s.mem.read a

/-- The same coming actions of the outside, and the same last answer. -/
def SameOutside (s t : State) : Prop := t.inputs = s.inputs ∧ t.readData = s.readData

/-- `t` is `s` with `rd` written with `v`, and nothing else changed. -/
def WritesOnly (s t : State) (rd : Reg) (v : Word) : Prop :=
  (∀ r, t.reg r = if r = rd then v else s.reg r) ∧
  (∀ r, t.wasWritten r = (decide (r = rd) || s.wasWritten r)) ∧
  SameControl s t ∧ SameLoad s t ∧ SameEvents s t ∧ SamePass s t ∧ SameMemory s t ∧ SameOutside s t

/-- Everything but the event bits is unchanged. -/
def OnlyEvents (s t : State) : Prop :=
  SameRegisters s t ∧ SameControl s t ∧ SameLoad s t ∧ SamePass s t ∧ SameMemory s t ∧ SameOutside s t

/-- `i` completes in every state, writing its value into `rd` and changing nothing else. -/
def Computes (i : Instr) (rd : Reg) (v : State → Word) : Prop :=
  ∀ s, ∃ t, exec i s = .next t ∧ WritesOnly s t rd (v s)

end Sys2Proof.Claim

open Sys2Proof Sys2Proof.Machine Sys2Proof.Claim

/-- R83, R84: FADD and FSUB. -/
def Obligations.AddAndSubtractWrap : Prop :=
  (∀ a b : Word, fxAdd a b = s32 (a.toInt + b.toInt) ∧ fxSub a b = s32 (a.toInt - b.toInt)) ∧
  ∀ rd ra rb : Reg,
    decodeWord (rrr 0x01 rd ra rb) = .ok (.command (.fadd rd ra rb)) ∧
    decodeWord (rrr 0x02 rd ra rb) = .ok (.command (.fsub rd ra rb)) ∧
    Computes (.fadd rd ra rb) rd (fun s => s32 ((s.reg ra).toInt + (s.reg rb).toInt)) ∧
    Computes (.fsub rd ra rb) rd (fun s => s32 ((s.reg ra).toInt - (s.reg rb).toInt))

/-- R85, R86: FADDI and FSUBI scale the integer by 1024 first. -/
def Obligations.AddAndSubtractIntegerScale : Prop :=
  (∀ a n : Word, fxAddi a n = s32 (a.toInt + n.toInt * 1024) ∧ fxSubi a n = s32 (a.toInt - n.toInt * 1024)) ∧
  ∀ rd ra rb : Reg,
    decodeWord (rrr 0x03 rd ra rb) = .ok (.command (.faddi rd ra rb)) ∧
    decodeWord (rrr 0x04 rd ra rb) = .ok (.command (.fsubi rd ra rb)) ∧
    Computes (.faddi rd ra rb) rd (fun s => s32 ((s.reg ra).toInt + (s32 ((s.reg rb).toInt * 1024)).toInt)) ∧
    Computes (.fsubi rd ra rb) rd (fun s => s32 ((s.reg ra).toInt - (s32 ((s.reg rb).toInt * 1024)).toInt))

/-- 40_fixed_point.md section 2: FMUL under both values of MUL_MODE, the decided one in the command, and their agreement
where the true product fits in 32 bits. (R87's "exactly when" is not claimed: see NOTES.md.) -/
def Obligations.MultiplyRenormalises : Prop :=
  (∀ a b : Word, fxMulIn .wrap32 a b = s32 ((s32 (a.toInt * b.toInt)).toInt / 1024)) ∧
  (∀ a b : Word, fxMulIn .wide64 a b = s32 (a.toInt * b.toInt / 1024)) ∧
  (∀ a b : Word, -2 ^ 31 ≤ a.toInt * b.toInt → a.toInt * b.toInt < 2 ^ 31 →
    fxMulIn .wrap32 a b = fxMulIn .wide64 a b) ∧
  ∀ rd ra rb : Reg,
    decodeWord (rrr 0x05 rd ra rb) = .ok (.command (.fmul rd ra rb)) ∧
    Computes (.fmul rd ra rb) rd (fun s => s32 ((s32 ((s.reg ra).toInt * (s.reg rb).toInt)).toInt / 1024))

/-- R88: FMULI does not re-normalise. -/
def Obligations.MultiplyIntegerWraps : Prop :=
  (∀ a n : Word, fxMuli a n = s32 (a.toInt * n.toInt)) ∧
  ∀ rd ra rb : Reg,
    decodeWord (rrr 0x06 rd ra rb) = .ok (.command (.fmuli rd ra rb)) ∧
    Computes (.fmuli rd ra rb) rd (fun s => s32 ((s.reg ra).toInt * (s.reg rb).toInt))

/-- R89: FDIVI truncates toward zero; a zero divisor gives 0 and no event. -/
def Obligations.DivideTruncatesTowardZero : Prop :=
  (∀ a : Word, fxDivi a 0#32 = 0#32) ∧
  (∀ a n : Word, n ≠ 0#32 → fxDivi a n = s32 (Int.tdiv a.toInt n.toInt)) ∧
  ∀ rd ra rb : Reg,
    decodeWord (rrr 0x07 rd ra rb) = .ok (.command (.fdivi rd ra rb)) ∧
    Computes (.fdivi rd ra rb) rd (fun s =>
      if (s.reg rb).toInt = 0 then 0#32 else s32 (Int.tdiv (s.reg ra).toInt (s.reg rb).toInt))

/-- R90: FSHL loses the bits shifted out. -/
def Obligations.ShiftLeftMultiplies : Prop :=
  (∀ (a : Word) (k : Nat), fxShl a k = s32 (a.toInt * 2 ^ k)) ∧
  ∀ (rd ra : Reg) (k : Fin 32),
    decodeWord (rrs 0x08 rd ra k) = .ok (.command (.fshl rd ra k)) ∧
    Computes (.fshl rd ra k) rd (fun s => s32 ((s.reg ra).toInt * 2 ^ k.val))

/-- R91: FSHR rounds toward −∞. -/
def Obligations.ShiftRightFloors : Prop :=
  (∀ (a : Word) (k : Nat), fxShr a k = s32 (a.toInt / 2 ^ k)) ∧
  ∀ (rd ra : Reg) (k : Fin 32),
    decodeWord (rrs 0x09 rd ra k) = .ok (.command (.fshr rd ra k)) ∧
    Computes (.fshr rd ra k) rd (fun s => s32 ((s.reg ra).toInt / 2 ^ k.val))

/-- R92: FAND works bit for bit on the raw patterns, and a mask of `S·1024 − 1` wraps a coordinate into [0, S). -/
def Obligations.AndMasksRawPattern : Prop :=
  (∀ (a m : Word) (n : Nat), (fxAnd a m).getLsbD n = (a.getLsbD n && m.getLsbD n)) ∧
  (∀ (a : Word) (n : Fin 22), (fxAnd a (s32 (2 ^ n.val * 1024 - 1))).toInt = a.toInt % (2 ^ n.val * 1024)) ∧
  ∀ rd ra rb : Reg,
    decodeWord (rrr 0x0A rd ra rb) = .ok (.command (.fand rd ra rb)) ∧
    Computes (.fand rd ra rb) rd (fun s => fxAnd (s.reg ra) (s.reg rb))

/-- R93, R94, R95: FFLOOR is the greatest multiple of 1024 that is not above, FFRACT what it leaves, and the two sum to
the value. -/
def Obligations.FloorAndFractionSplit : Prop :=
  (∀ a : Word, fxFloor a = s32 (1024 * (a.toInt / 1024)) ∧ (fxFloor a).toInt ≤ a.toInt ∧
    fxFloor a = a &&& 0xFFFFFC00#32) ∧
  (∀ a : Word, fxFract a = s32 (a.toInt % 1024) ∧ fxFract a = a &&& 0x000003FF#32) ∧
  (∀ x : Word, s32 ((fxFloor x).toInt + (fxFract x).toInt) = x) ∧
  ∀ rd ra : Reg,
    decodeWord (rr 0x0B rd ra) = .ok (.command (.ffloor rd ra)) ∧
    decodeWord (rr 0x0C rd ra) = .ok (.command (.ffract rd ra)) ∧
    Computes (.ffloor rd ra) rd (fun s => s32 (1024 * ((s.reg ra).toInt / 1024))) ∧
    Computes (.ffract rd ra) rd (fun s => s32 ((s.reg ra).toInt % 1024))

/-- R96: shifting left and back returns the value exactly where the left shift does not overflow. -/
def Obligations.ShiftRoundTripRange : Prop :=
  ∀ (x : Word) (k : Fin 32),
    fxShr (fxShl x k) k = x ↔ -(2 ^ (31 - k.val)) ≤ x.toInt ∧ x.toInt ≤ 2 ^ (31 - k.val) - 1

/-- R101, R102: FROMI and FROMU. -/
def Obligations.IntegersBecomeFixed : Prop :=
  (∀ n : Word, fxFromInt n = s32 (n.toInt * 1024)) ∧
  ∀ rd ra : Reg,
    decodeWord (rr 0x10 rd ra) = .ok (.command (.fromi rd ra)) ∧
    decodeWord (rr 0x11 rd ra) = .ok (.command (.fromu rd ra)) ∧
    Computes (.fromi rd ra) rd (fun s => s32 ((s.reg ra).toInt * 1024)) ∧
    Computes (.fromu rd ra) rd (fun s => s32 ((s.reg ra).toNat * 1024))

/-- R103: FROMB takes bits 7:0 only. -/
def Obligations.BytesBecomeFixed : Prop :=
  (∀ v : Byte, fxFromByte v = s32 (v.toNat * 1024)) ∧
  ∀ rd ra : Reg,
    decodeWord (rr 0x12 rd ra) = .ok (.command (.fromb rd ra)) ∧
    Computes (.fromb rd ra) rd (fun s => s32 (((s.reg ra).toNat % 256 : Nat) * 1024))

namespace Sys2Proof.Claim

/-- The biased exponent of a binary32 pattern (41_conversions.md, introduction). -/
def exponent (f : Word) : Nat := f.toNat / 2 ^ 23 % 256

/-- The fraction field of a binary32 pattern. -/
def fraction (f : Word) : Nat := f.toNat % 2 ^ 23

/-- The value of a finite binary32 pattern. -/
def floatValue (f : Word) : ℚ :=
  (if 2 ^ 31 ≤ f.toNat then -1 else 1) *
    (if exponent f = 0 then (fraction f : ℚ) else 2 ^ 23 + fraction f) *
    (2 : ℚ) ^ ((max (exponent f) 1 : Int) - 150)

/-- A real rounded toward zero: `tdiv_real` of R82. -/
def truncate (q : ℚ) : Int := if 0 ≤ q then ⌊q⌋ else ⌈q⌉

/-- R104's result for the binary32 pattern `f`. -/
def fixedOfFloat (f : Word) : Word :=
  if exponent f = 255 then
    if fraction f ≠ 0 then 0#32 else if 2 ^ 31 ≤ f.toNat then 0x80000000#32 else 0x7FFFFFFF#32
  else
    let t := truncate (floatValue f * 1024)
    if 2 ^ 31 - 1 < t then 0x7FFFFFFF#32 else if t < -2 ^ 31 then 0x80000000#32 else s32 t

/-- `r` is R108's result for the raw value `a`: +0.0 for 0; otherwise the finite pattern whose 1024-fold value is nearest
to `a` among all finite binary32 values, with an even fraction field on a tie. -/
def IsFloatOfFixed (a : Int) (r : Word) : Prop :=
  (a = 0 → r = 0#32) ∧
  (a ≠ 0 → exponent r ≠ 255 ∧ ∀ g : Word, exponent g ≠ 255 →
    |floatValue r * 1024 - a| ≤ |floatValue g - a| ∧
    (|floatValue r * 1024 - a| = |floatValue g - a| → floatValue g = floatValue r * 1024 ∨ fraction r % 2 = 0))

end Sys2Proof.Claim

/-- 41_conversions.md section 1 (R104): FROMF multiplies by 1024 exactly and truncates toward zero; NaN gives 0; the rest
saturates. The binary32 layout and the NaN and saturation rule are what the spec marks as general knowledge (G1, G3), and
PRESUMED here: notes/assumptions/12.md. -/
def Obligations.FloatBecomesFixed : Prop :=
  ∀ rd ra : Reg,
    decodeWord (rr 0x13 rd ra) = .ok (.command (.fromf rd ra)) ∧
    Computes (.fromf rd ra) rd (fun s => fixedOfFloat (s.reg ra))

/-- R105, R106: TOI and TOU floor, and never clamp. -/
def Obligations.FixedBecomesInteger : Prop :=
  (∀ a : Word, fxToInt a = s32 (a.toInt / 1024)) ∧
  ∀ rd ra : Reg,
    decodeWord (rr 0x14 rd ra) = .ok (.command (.toi rd ra)) ∧
    decodeWord (rr 0x15 rd ra) = .ok (.command (.tou rd ra)) ∧
    Computes (.toi rd ra) rd (fun s => s32 ((s.reg ra).toInt / 1024)) ∧
    Computes (.tou rd ra) rd (fun s => s32 ((s.reg ra).toInt / 1024))

/-- R107: TOB keeps the integer part modulo 256, zero-extended. -/
def Obligations.FixedBecomesByte : Prop :=
  (∀ a : Word, ((fxToByte a).toNat : Int) = a.toInt / 1024 % 256) ∧
  ∀ rd ra : Reg,
    decodeWord (rr 0x16 rd ra) = .ok (.command (.tob rd ra)) ∧
    Computes (.tob rd ra) rd (fun s => s32 ((s.reg ra).toInt / 1024 % 256))

/-- 41_conversions.md section 2 (R108): TOF rounds to nearest, ties to even. The binary32 layout and this rounding are what
the spec marks as general knowledge (G1, G2), and PRESUMED here: notes/assumptions/12.md. -/
def Obligations.FixedBecomesFloat : Prop :=
  ∀ rd ra : Reg,
    decodeWord (rr 0x17 rd ra) = .ok (.command (.tof rd ra)) ∧
    ∀ s, ∃ t v, exec (.tof rd ra) s = .next t ∧ WritesOnly s t rd v ∧ IsFloatOfFixed (s.reg ra).toInt v

/-- R110, R112, R113: the integer and byte round trips, and the pairs of conversions that agree. -/
def Obligations.ConversionRoundTrips : Prop :=
  (∀ n : Word, fxToInt (fxFromInt n) = n ↔ -2 ^ 21 ≤ n.toInt ∧ n.toInt ≤ 2 ^ 21 - 1) ∧
  (∀ v : Byte, fxToByte (fxFromByte v) = v ∧ (fxToInt (fxFromByte v)).toInt = v.toNat) ∧
  (∀ n : Word, fxFromInt n = fxFromUnsigned n ∧ fxToInt n = fxToUnsigned n)

/-- 41_conversions.md section 4 (R111): a float in range comes back within 1/1024, and never further from zero. It rests on
the binary32 layout and on TOF's rounding, PRESUMED here: notes/assumptions/12.md. -/
def Obligations.FloatRoundTripLosesLittle : Prop :=
  ∀ f : Word, exponent f ≠ 255 → -2097152 ≤ floatValue f → floatValue f < 2097152 →
    |floatValue (fxToFloat (fxFromFloat f)) - floatValue f| < 1 / 1024 ∧
    |floatValue (fxToFloat (fxFromFloat f))| ≤ |floatValue f|

/-- 41_conversions.md section 3 (R109) and R73: LI as a command. Its two words, taken as one command (DEDUCED,
notes/assumptions/21.md), leave the immediate unchanged in Rd, LIPEND at 0 and LIRD naming Rd. -/
def Obligations.LoadImmediateCompletes : Prop :=
  ∀ (rd : Reg) (imm : Word) (s : State), ∃ t, exec (.li rd imm) s = .next t ∧
    (∀ r, t.reg r = if r = rd then imm else s.reg r) ∧
    (∀ r, t.wasWritten r = (decide (r = rd) || s.wasWritten r)) ∧
    t.lipend = false ∧ t.lird = rd ∧
    SameControl s t ∧ SameEvents s t ∧ SamePass s t ∧ SameMemory s t ∧ SameOutside s t

namespace Sys2Proof.Claim

open Sys2Proof.Machine

/-- `S` of R114. -/
def side (c : ControlRegs) : Nat := 2 ^ (c.ctrl.toNat / 2 ^ 4 % 16)

/-- The wrapped cell of a coordinate: the Euclidean remainder of its floor (R114, R115). -/
def cell (c : ControlRegs) (x : Word) : Nat := (x.toInt / 1024 % (side c : Int)).toNat

/-- The wrapped successor of the cell of a coordinate (R117). -/
def nextCell (c : ControlRegs) (x : Word) : Nat := (cell c x + 1) % side c

/-- The fraction of a coordinate, 0 to 1023 (R117). -/
def part (x : Word) : Nat := (x.toInt % 1024).toNat

/-- The height byte of a cell (R51, R116). -/
def heightOf (c : ControlRegs) (m : Memory) (i j : Nat) : Nat :=
  (m.read (BitVec.ofNat 32 (c.hmapBase.toNat + (j * side c + i)))).toNat

/-- Byte `k` of the texel of a cell (R52, R116). -/
def texelOf (c : ControlRegs) (m : Memory) (k : Nat) (i j : Nat) : Nat :=
  (m.read (BitVec.ofNat 32 (c.tmapBase.toNat + 4 * (j * side c + i) + k))).toNat

/-- The blend of R119 of the bytes `f` at the four corners of (`x`, `y`), with the weights of R117. -/
def mix (c : ControlRegs) (x y : Word) (f : Nat → Nat → Nat) : Nat :=
  f (cell c x) (cell c y) * ((1024 - part x) * (1024 - part y) / 1024) +
  f (nextCell c x) (cell c y) * (part x * (1024 - part y) / 1024) +
  f (cell c x) (nextCell c y) * ((1024 - part x) * part y / 1024) +
  f (nextCell c x) (nextCell c y) * (part x * part y / 1024)

/-- The result of `sample_h` (R120). -/
def nearestHeight (c : ControlRegs) (m : Memory) (x y : Word) : Word :=
  BitVec.ofNat 32 (heightOf c m (cell c x) (cell c y) * 1024)

/-- The result of `sample_hi` (R121). -/
def bilinearHeight (c : ControlRegs) (m : Memory) (x y : Word) : Word :=
  BitVec.ofNat 32 (mix c x y (heightOf c m))

/-- The result of `sample_c` (R122). -/
def nearestColor (c : ControlRegs) (m : Memory) (x y : Word) : Word :=
  BitVec.ofNat 32 (texelOf c m 0 (cell c x) (cell c y) + 2 ^ 8 * texelOf c m 1 (cell c x) (cell c y) +
    2 ^ 16 * texelOf c m 2 (cell c x) (cell c y) + 2 ^ 24 * texelOf c m 3 (cell c x) (cell c y))

/-- The result of `sample_ci` (R123). -/
def bilinearColor (c : ControlRegs) (m : Memory) (x y : Word) : Word :=
  BitVec.ofNat 32 (mix c x y (texelOf c m 0) / 1024 + 2 ^ 8 * (mix c x y (texelOf c m 1) / 1024) +
    2 ^ 16 * (mix c x y (texelOf c m 2) / 1024) + 2 ^ 24 * texelOf c m 3 (cell c x) (cell c y))

end Sys2Proof.Claim

/-- R120, R124: TGETH. -/
def Obligations.NearestHeightSample : Prop :=
  (∀ c m x y, sampleHeight c m x y = nearestHeight c m x y) ∧
  ∀ rd ra rb : Reg,
    decodeWord (rrr 0x20 rd ra rb) = .ok (.command (.tgeth rd ra rb)) ∧
    Computes (.tgeth rd ra rb) rd (fun s => nearestHeight s.ctl s.mem (s.reg ra) (s.reg rb))

/-- R121, R125: TGETHI. -/
def Obligations.BilinearHeightSample : Prop :=
  (∀ c m x y, sampleHeightBilinear c m x y = bilinearHeight c m x y) ∧
  ∀ rd ra rb : Reg,
    decodeWord (rrr 0x21 rd ra rb) = .ok (.command (.tgethi rd ra rb)) ∧
    Computes (.tgethi rd ra rb) rd (fun s => bilinearHeight s.ctl s.mem (s.reg ra) (s.reg rb))

/-- R122, R126: TGETC. -/
def Obligations.NearestTexelSample : Prop :=
  (∀ c m x y, sampleColor c m x y = nearestColor c m x y) ∧
  ∀ rd ra rb : Reg,
    decodeWord (rrr 0x22 rd ra rb) = .ok (.command (.tgetc rd ra rb)) ∧
    Computes (.tgetc rd ra rb) rd (fun s => nearestColor s.ctl s.mem (s.reg ra) (s.reg rb))

/-- R123, R127: TGETCI. -/
def Obligations.BilinearTexelSample : Prop :=
  (∀ c m x y, sampleColorBilinear c m x y = bilinearColor c m x y) ∧
  ∀ rd ra rb : Reg,
    decodeWord (rrr 0x23 rd ra rb) = .ok (.command (.tgetci rd ra rb)) ∧
    Computes (.tgetci rd ra rb) rd (fun s => bilinearColor s.ctl s.mem (s.reg ra) (s.reg rb))

/-- R118: the weights are the same under both values of MUL_MODE, at most 1024 each, exact on the grid, and sum to 1024
or 1022. -/
def Obligations.BilinearWeightBounds : Prop :=
  ∀ (c : ControlRegs) (i j : Word),
    let q := corners c i j
    let fx := part i
    let fy := part j
    (∀ mode : MulMode,
      q.w00 = fxMulIn mode (s32 (1024 - fx)) (s32 (1024 - fy)) ∧ q.w10 = fxMulIn mode (s32 fx) (s32 (1024 - fy)) ∧
      q.w01 = fxMulIn mode (s32 (1024 - fx)) (s32 fy) ∧ q.w11 = fxMulIn mode (s32 fx) (s32 fy)) ∧
    q.w00.toNat ≤ 1024 ∧ q.w10.toNat ≤ 1024 ∧ q.w01.toNat ≤ 1024 ∧ q.w11.toNat ≤ 1024 ∧
    (fx = 0 ∨ fy = 0 → 1024 * q.w00.toNat = (1024 - fx) * (1024 - fy) ∧ 1024 * q.w10.toNat = fx * (1024 - fy) ∧
      1024 * q.w01.toNat = (1024 - fx) * fy ∧ 1024 * q.w11.toNat = fx * fy) ∧
    q.w00.toNat + q.w10.toNat + q.w01.toNat + q.w11.toNat = if 1024 ∣ fx * fy then 1024 else 1022

/-- R119: the blend is the weighted sum of the bytes, exact under both values of MUL_MODE and at most 255.0. -/
def Obligations.BlendIsExactSum : Prop :=
  (∀ (mode : MulMode) (s : Byte) (w : Fin 1025),
    fxMulIn mode (fxFromByte s) (BitVec.ofNat 32 w.val) = BitVec.ofNat 32 (s.toNat * w.val)) ∧
  ∀ (c : ControlRegs) (i j : Word) (s00 s10 s01 s11 : Byte),
    let q := corners c i j
    (blend q s00 s10 s01 s11).toNat =
      s00.toNat * q.w00.toNat + s10.toNat * q.w10.toNat + s01.toNat * q.w01.toNat + s11.toNat * q.w11.toNat ∧
    (blend q s00 s10 s01 s11).toNat ≤ 261120

/-- R128: at grid points bilinear sampling is nearest sampling. -/
def Obligations.BilinearIsNearestOnGrid : Prop :=
  ∀ (c : ControlRegs) (m : Memory) (i j : Word), fxFract i = 0#32 → fxFract j = 0#32 →
    (corners c i j).w00 = 1024#32 ∧ (corners c i j).w10 = 0#32 ∧ (corners c i j).w01 = 0#32 ∧
    (corners c i j).w11 = 0#32 ∧
    sampleHeightBilinear c m i j = sampleHeight c m i j ∧ sampleColorBilinear c m i j = sampleColor c m i j

/-- R129: all four sample functions repeat with period S in both coordinates, across the 32-bit wrap too. -/
def Obligations.SamplesArePeriodic : Prop :=
  ∀ (c : ControlRegs) (m : Memory) (i j : Word) (n : Int),
    let d := fxFromInt (s32 (n * side c))
    (sampleHeight c m (fxAdd i d) j = sampleHeight c m i j ∧ sampleHeight c m i (fxAdd j d) = sampleHeight c m i j) ∧
    (sampleHeightBilinear c m (fxAdd i d) j = sampleHeightBilinear c m i j ∧
      sampleHeightBilinear c m i (fxAdd j d) = sampleHeightBilinear c m i j) ∧
    (sampleColor c m (fxAdd i d) j = sampleColor c m i j ∧ sampleColor c m i (fxAdd j d) = sampleColor c m i j) ∧
    (sampleColorBilinear c m (fxAdd i d) j = sampleColorBilinear c m i j ∧
      sampleColorBilinear c m i (fxAdd j d) = sampleColorBilinear c m i j)

/-- R132, R133: DRAW is rejected with CFGERR, does nothing, or latches the registers and starts a pass; it never does more
than that. The bound 4096 is R7's parameter MAX_WIDTH at its decided value (DEDUCED, notes/assumptions/11.md). -/
def Obligations.DrawStartsAPass : Prop :=
  decodeWord 0xE0000000#32 = .ok (.command .draw) ∧
  ∀ s : State, ∃ t, exec .draw s = .next t ∧
    SameRegisters s t ∧ SameControl s t ∧ SameLoad s t ∧ SameMemory s t ∧ SameOutside s t ∧
    t.colmax = s.colmax ∧ t.ill = s.ill ∧ t.werr = s.werr ∧
    (if 4096 < s.ctl.fbWidth.toNat % 2 ^ 16 then t.cfgerr = true ∧ t.pass = s.pass
     else if s.ctl.fbWidth.toNat % 2 ^ 16 = 0 ∨ s.ctl.fbHeight.toNat % 2 ^ 16 = 0 then
       t.cfgerr = s.cfgerr ∧ t.pass = s.pass
     else t.cfgerr = s.cfgerr ∧ t.pass = some { latch := s.ctl, phase := .sky 0 0 .red })

namespace Sys2Proof.Claim

open Sys2Proof.Machine

/-- A channel of a packed colour (R54): red in bits 7:0, green in 15:8, blue in 23:16. -/
def colorChannel (color : Word) (ch : Channel) : Nat :=
  match ch with
  | .red => color.toNat % 2 ^ 8
  | .green => color.toNat / 2 ^ 8 % 2 ^ 8
  | .blue => color.toNat / 2 ^ 16 % 2 ^ 8

end Sys2Proof.Claim

/-- 43_rasterizer.md section 2 (R137): the scan line and the sample positions of a depth. -/
def Obligations.ScanLineOfADepth : Prop :=
  ∀ (c : ControlRegs) (z i : Nat),
    let cz := c.camCos.toInt * z
    let sz := c.camSin.toInt * z
    let lx := s32 (-cz - sz + c.camX.toInt)
    let ly := s32 (sz - cz + c.camY.toInt)
    let rx := s32 (cz - sz + c.camX.toInt)
    let ry := s32 (-sz - cz + c.camY.toInt)
    let w : Int := (c.fbWidth.toNat % 2 ^ 16 : Nat)
    let dx := s32 (Int.tdiv (s32 (rx.toInt - lx.toInt)).toInt w)
    let dy := s32 (Int.tdiv (s32 (ry.toInt - ly.toInt)).toInt w)
    scanLine c z = { lx := lx, ly := ly, dx := dx, dy := dy } ∧
    dx = s32 (Int.tdiv (s32 (2 * cz)).toInt w) ∧ dy = s32 (Int.tdiv (s32 (-2 * sz)).toInt w) ∧
    columnX (scanLine c z) i = s32 (lx.toInt + dx.toInt * i) ∧
    columnY (scanLine c z) i = s32 (ly.toInt + dy.toInt * i)

/-- 43_rasterizer.md section 2 (R139): the projected height, each operation wrapping, clamped to a minimum of 0. -/
def Obligations.ProjectedHeightIsFloorClamped : Prop :=
  ∀ (c : ControlRegs) (h : Word) (z : Nat), 1 ≤ z → z < 2 ^ 31 →
    let t₁ := s32 (h.toInt - c.camZ.toInt)
    let t₂ := s32 (t₁.toInt * c.scaleHeight.toInt)
    let t₃ := s32 (Int.tdiv t₂.toInt z)
    let t₄ := s32 (t₃.toInt + (s32 (c.horizon.toInt * 1024)).toInt)
    (projectedHeight c h z).toInt = max 0 (t₄.toInt / 1024)

/-- 43_rasterizer.md section 2 (R140 to R142): where fog applies, what its weight is, with every operation wrapping; that it
is in 0..1024 when nothing wraps and 1024 at DIST_MAX; what each channel of a fogged line is, for any weight, under the
decided MUL_MODE (DEDUCED, notes/assumptions/11.md); that a depth where fog does not apply keeps the texel's colour; and that
no depth is fogged with FOG_EN = 0 or FOG_START ≥ DIST_MAX. -/
def Obligations.FogWeightRange : Prop :=
  (∀ (c : ControlRegs) (z : Nat),
    let num := (s32 ((s32 ((z : Int) - c.fogStart.toInt)).toInt * 1024)).toInt
    let den := (s32 (c.distMax.toInt - c.fogStart.toInt)).toInt
    fogWeight c z = if den = 0 then 0#32 else s32 (Int.tdiv num den)) ∧
  (∀ (c : ControlRegs) (z : Nat) (color : Word) (ch : Channel), fogApplies c z = true →
    channelByte (lineColor c color z) ch = fogChannel (fogWeight c z) color c.skyColor ch) ∧
  (∀ (c : ControlRegs) (z : Nat) (color : Word), fogApplies c z = false →
    lineColor c color z = color &&& 0x00FFFFFF#32) ∧
  (∀ (w color sky : Word) (ch : Channel),
    let a : Int := colorChannel color ch
    let b : Int := colorChannel sky ch
    let p := (s32 (a * 1024 * (s32 (1024 - w.toInt)).toInt)).toInt / 1024
    let q := (s32 (b * 1024 * w.toInt)).toInt / 1024
    ((fogChannel w color sky ch).toNat : Int) = (s32 (p + q)).toInt / 1024 % 256) ∧
  (∀ (c : ControlRegs) (z : Nat), fogApplies c z = true ↔ c.ctrl.getLsbD 0 = true ∧ c.fogStart.toInt < z) ∧
  (∀ (c : ControlRegs) (z : Nat), c.fogStart.toInt < z → (z : Int) ≤ c.distMax.toInt →
    (z : Int) - c.fogStart.toInt ≤ 2 ^ 21 - 1 → c.distMax.toInt - c.fogStart.toInt ≤ 2 ^ 31 - 1 →
    (fogWeight c z).toInt = ((z : Int) - c.fogStart.toInt) * 1024 / (c.distMax.toInt - c.fogStart.toInt) ∧
    0 ≤ (fogWeight c z).toInt ∧ (fogWeight c z).toInt ≤ 1024 ∧
    ((z : Int) = c.distMax.toInt → (fogWeight c z).toInt = 1024)) ∧
  (∀ (c : ControlRegs) (z : Nat) (color : Word), (z : Int) ≤ c.distMax.toInt →
    (c.ctrl.getLsbD 0 = false ∨ c.distMax.toInt ≤ c.fogStart.toInt) →
    lineColor c color z = color &&& 0x00FFFFFF#32)

/-- R143: for a weight in 0..1024 no product leaves 32 bits, and each channel is the floored linear blend, which lies
between the two colours and is one of them at either end. -/
def Obligations.FogBlendRange : Prop :=
  ∀ (color sky : Word) (ch : Channel) (w : Fin 1025),
    let a := colorChannel color ch
    let b := colorChannel sky ch
    let out := (fogChannel (BitVec.ofNat 32 w.val) color sky ch).toNat
    a * 1024 * (1024 - w.val) ≤ 255 * 2 ^ 20 ∧ b * 1024 * w.val ≤ 255 * 2 ^ 20 ∧
    out = (a * (1024 - w.val) + b * w.val) / 1024 ∧ min a b ≤ out ∧ out ≤ max a b ∧
    (w.val = 0 → out = a) ∧ (w.val = 1024 → out = b)

/-- 20_memory.md section 3 (R53, R54): three turns of the sequencer write one pixel: red, green and blue, in that order, to
the bytes CTRL names. That one turn writes one byte is the model's choice: notes/assumptions/5.md. And 00_scope.md section 4
and 20_memory.md section 4 (R11, R58): a read of MEM returns the last byte written there. -/
def Obligations.PixelIsThreeByteWrites : Prop :=
  (∀ (m : Memory) (a b : Word) (v : Byte), m.wf = true → (m.write a v).read b = if b = a then v else m.read b) ∧
  ∀ (s : State) (c : ControlRegs) (y x : Nat) (color : Word),
    ((s.pass = some { latch := c, phase := .sky y x .red } ∧ color = c.skyColor) ∨
      (∃ z scan hh top rh, s.pass = some { latch := c, phase := .line z x scan hh top rh color .red } ∧
        y = c.height - 1 - hh)) →
    let p := c.fbBase.toNat + y * c.fbStride.toNat + 4 * x
    s.sequencerTurn.sequencerTurn.sequencerTurn.mem =
      ((s.mem.write (BitVec.ofNat 32 (p + c.ctrl.toNat / 2 ^ 8 % 4)) (BitVec.ofNat 8 color.toNat)).write
        (BitVec.ofNat 32 (p + c.ctrl.toNat / 2 ^ 10 % 4)) (BitVec.ofNat 8 (color.toNat / 2 ^ 8))).write
        (BitVec.ofNat 32 (p + c.ctrl.toNat / 2 ^ 12 % 4)) (BitVec.ofNat 8 (color.toNat / 2 ^ 16))

/-- 43_rasterizer.md sections 2 and 3 (R135, R140, R148): a line's top is min(rh, H); clearing the columns and recording a
height change the entries they name and no other, and a pass about to clear them clears entries 0 to W − 1; while a pass is
in its depth loop no column's recorded height falls, and a column that has reached H draws nothing. That one turn of the
sequencer clears all W entries is the model's choice, where R135 loops over them: DEDUCED, notes/assumptions/17.md, and 5.md
for the grain of a turn. -/
def Obligations.OcclusionNeverRecedes : Prop :=
  (∀ (c : ControlRegs) (rh : Word), 0 ≤ rh.toInt →
    (lineTop c rh : Int) = min rh.toInt (c.fbHeight.toNat % 2 ^ 16 : Nat)) ∧
  (∀ (cols : List Word) (n i : Nat), columnAt (clearColumns n cols) i = if i < n then 0#32 else columnAt cols i) ∧
  (∀ (cols : List Word) (i j : Nat) (rh : Word),
    columnAt (setColumn cols i rh) j = if j = i then rh else columnAt cols j) ∧
  (∀ (s : State) (c : ControlRegs), s.pass = some { latch := c, phase := .clear } →
    ∀ i, s.sequencerTurn.columnMax i = if i < c.fbWidth.toNat % 2 ^ 16 then 0#32 else s.columnMax i) ∧
  ∀ (s : State) (p : Pass), s.inv = true → s.pass = some p → (∀ y x ch, p.phase ≠ .sky y x ch) → p.phase ≠ .clear →
    (∀ i, (s.columnMax i).toInt ≤ (s.sequencerTurn.columnMax i).toInt) ∧
    (∀ z i scan, p.phase = .column z i scan → (p.latch.height : Int) ≤ (s.columnMax i).toInt →
      SameMemory s s.sequencerTurn ∧
      ∃ q, s.sequencerTurn.pass = some q ∧ ∀ z i scan hh top rh color ch, q.phase ≠ .line z i scan hh top rh color ch)

/-- 43_rasterizer.md sections 2 and 3 (R134 to R141, R144 to R146): left alone, a pass that DRAW has started ends after
some number of steps with BUSY = 0, and MEM and the column array are then what the nested loops of the spec leave; nothing
else has changed. -/
def Obligations.PassDrawsTheFrame : Prop :=
  ∀ s : State, s.inputs = [] → s.inv = true → s.pass = some { latch := s.ctl, phase := .sky 0 0 .red } →
    ∃ n t, Sys2Proof.core.run n s = .next t ∧ t.busy = false ∧
      t.mem = (drawFrame s.ctl { mem := s.mem, cols := s.colmax }).mem ∧
      t.colmax = (drawFrame s.ctl { mem := s.mem, cols := s.colmax }).cols ∧
      SameRegisters s t ∧ SameControl s t ∧ SameLoad s t ∧ SameEvents s t ∧ SameOutside s t

namespace Sys2Proof.Claim

/-- A register field of a word as R71 reads it. -/
def field (w : Word) (lo : Nat) : Reg := ⟨w.toNat / 2 ^ lo % 16, Nat.mod_lt _ (by decide)⟩

/-- One row of R75: match, mask, and the command of a word that selects the row. -/
structure TableRow where
  pattern : Word
  mask : Word
  command : Word → Decoded

/-- A row of format RRR. -/
def rowRRR (pattern : Word) (mk : Reg → Reg → Reg → Instr) : TableRow :=
  { pattern := pattern, mask := 0xFC003FFF#32
    command := fun w => .command (mk (field w 22) (field w 18) (field w 14)) }

/-- A row of format RR. -/
def rowRR (pattern : Word) (mk : Reg → Reg → Instr) : TableRow :=
  { pattern := pattern, mask := 0xFC03FFFF#32, command := fun w => .command (mk (field w 22) (field w 18)) }

/-- A row of format RRS. -/
def rowRRS (pattern : Word) (mk : Reg → Reg → Nat → Instr) : TableRow :=
  { pattern := pattern, mask := 0xFC03FFE0#32
    command := fun w => .command (mk (field w 22) (field w 18) (w.toNat % 32)) }

/-- The table of R75, row by row. -/
def opcodeTable : List TableRow :=
  [rowRRR 0x04000000#32 .fadd, rowRRR 0x08000000#32 .fsub, rowRRR 0x0C000000#32 .faddi, rowRRR 0x10000000#32 .fsubi,
   rowRRR 0x14000000#32 .fmul, rowRRR 0x18000000#32 .fmuli, rowRRR 0x1C000000#32 .fdivi, rowRRS 0x20000000#32 .fshl,
   rowRRS 0x24000000#32 .fshr, rowRRR 0x28000000#32 .fand, rowRR 0x2C000000#32 .ffloor, rowRR 0x30000000#32 .ffract,
   rowRR 0x40000000#32 .fromi, rowRR 0x44000000#32 .fromu, rowRR 0x48000000#32 .fromb, rowRR 0x4C000000#32 .fromf,
   rowRR 0x50000000#32 .toi, rowRR 0x54000000#32 .tou, rowRR 0x58000000#32 .tob, rowRR 0x5C000000#32 .tof,
   rowRRR 0x80000000#32 .tgeth, rowRRR 0x84000000#32 .tgethi, rowRRR 0x88000000#32 .tgetc,
   rowRRR 0x8C000000#32 .tgetci,
   { pattern := 0xC0000000#32, mask := 0xFC3FFFFF#32, command := fun w => .needsImmediate (field w 22) },
   { pattern := 0xE0000000#32, mask := 0xFFFFFFFF#32, command := fun _ => .command .draw }]

/-- The unassigned opcodes that R79 lists. -/
def unassigned (op : Nat) : Prop :=
  op = 0x00 ∨ (0x0D ≤ op ∧ op ≤ 0x0F) ∨ (0x18 ≤ op ∧ op ≤ 0x1F) ∨ (0x24 ≤ op ∧ op ≤ 0x2F) ∨
    (0x31 ≤ op ∧ op ≤ 0x37) ∨ (0x39 ≤ op ∧ op ≤ 0x3F)

end Sys2Proof.Claim

/-- R71, R75: a word is the command of the row it selects, and a word that selects no row is none. -/
def Obligations.DecodeFollowsOpcodeTable : Prop :=
  ∀ w : Word,
    (∀ r ∈ opcodeTable, w &&& r.mask = r.pattern → decodeWord w = .ok (r.command w)) ∧
    ((∀ r ∈ opcodeTable, w &&& r.mask ≠ r.pattern) → ∃ e, decodeWord w = .error e)

/-- R79: an illegal word sets ILL and changes nothing else; every word of an unassigned opcode is illegal, and so is every
word of an assigned one with a nonzero bit where its format has none. -/
def Obligations.IllegalWordSetsIllOnly : Prop :=
  (∀ w : Word, unassigned (w.toNat / 2 ^ 26) → ∃ e, decodeWord w = .error e) ∧
  (∀ w : Word, ∀ r ∈ opcodeTable, w.toNat / 2 ^ 26 = r.pattern.toNat / 2 ^ 26 → w &&& r.mask ≠ r.pattern →
    ∃ e, decodeWord w = .error e) ∧
  ∀ (w : Word) (s : State) (e : DecodeError), decodeWord w = .error e → s.busy = false → s.lipend = false →
    ∃ t, mmioWrite .word 0x0C#8 w s = .next t ∧ t.ill = true ∧ t.werr = s.werr ∧ t.cfgerr = s.cfgerr ∧ OnlyEvents s t

/-- R70, R75, R76: decoding the words of a well-formed command gives it back, whatever follows. -/
def Obligations.DecodeOfEncode : Prop :=
  ∀ (i : Instr) (rest : List Word), i.wellFormed = true → decode (encode i ++ rest) = .ok (i, rest)

/-- R70, R75, R76: whatever words decode to a command are that command's encoding, and the command is well-formed. -/
def Obligations.EncodeOfDecode : Prop :=
  ∀ (ws rest : List Word) (i : Instr), decode ws = .ok (i, rest) → ws = encode i ++ rest ∧ i.wellFormed = true

/-- A few words of the spec's own examples decode to the commands they stand for (95_test_vectors.md). -/
def Obligations.ExampleWordsDecode : Prop :=
  decode [0x04C48000#32] = .ok (.fadd 3 1 2, []) ∧ decode [0x20480005#32] = .ok (.fshl 1 2 5, []) ∧
  decode [0x5F500000#32] = .ok (.tof 13 4, []) ∧ decode [0x8ECD0000#32] = .ok (.tgetci 11 3 4, []) ∧
  decode [0xC1C00000#32, 0x00000600#32] = .ok (.li 7 0x00000600#32, []) ∧
  decode [0xE0000000#32] = .ok (.draw, []) ∧ decode [0x04C48001#32] = .error .reservedBitSet ∧
  decode [0x34000000#32] = .error .unassignedOpcode

/-- R78: a host write of `w` to CMD is dropped with WERR, is LI's immediate word, is illegal, is LI's command word, or
executes its command. -/
def Obligations.CommandWriteProcessing : Prop :=
  ∀ (w : Word) (s : State),
    (s.busy = true → ∃ t, mmioWrite .word 0x0C#8 w s = .next t ∧ t.werr = true ∧ t.ill = s.ill ∧
      t.cfgerr = s.cfgerr ∧ OnlyEvents s t) ∧
    (s.busy = false → s.lipend = true → ∃ t, mmioWrite .word 0x0C#8 w s = .next t ∧
      (∀ r, t.reg r = if r = s.lird then w else s.reg r) ∧ t.lipend = false ∧ t.lird = s.lird ∧
      SameControl s t ∧ SameEvents s t ∧ SamePass s t ∧ SameMemory s t ∧ SameOutside s t) ∧
    (s.busy = false → s.lipend = false →
      ((∀ r ∈ opcodeTable, w &&& r.mask ≠ r.pattern) → ∃ t, mmioWrite .word 0x0C#8 w s = .next t ∧ t.ill = true ∧
        t.werr = s.werr ∧ t.cfgerr = s.cfgerr ∧ OnlyEvents s t) ∧
      (∀ r ∈ opcodeTable, w &&& r.mask = r.pattern →
        (∀ i, r.command w = .command i → mmioWrite .word 0x0C#8 w s = exec i s) ∧
        (∀ d, r.command w = .needsImmediate d → ∃ t, mmioWrite .word 0x0C#8 w s = .next t ∧
          t.lipend = true ∧ t.lird = d ∧
          SameRegisters s t ∧ SameControl s t ∧ SameEvents s t ∧ SamePass s t ∧ SameMemory s t ∧ SameOutside s t)))

/-- R76, R109: LI over the host's two writes. The first word only names the register and sets LIPEND. Whatever has
happened since, the next word accepted, whatever its bits, goes unchanged to that register, and a host write to a register
in between leaves the LI pending; a word written during a pass is dropped and LIPEND stays; reset loses the immediate. An LI
word with a nonzero bit in 21:0 sets no LIPEND. -/
def Obligations.LoadImmediateProtocol : Prop :=
  (∀ (d : Reg) (s : State), s.busy = false → s.lipend = false →
    ∃ t, mmioWrite .word 0x0C#8 (BitVec.ofNat 32 (0x30 * 2 ^ 26 + d.val * 2 ^ 22)) s = .next t ∧
      t.lipend = true ∧ t.lird = d ∧ SameRegisters s t ∧ SameControl s t ∧ SameEvents s t ∧ SamePass s t ∧
      SameMemory s t ∧ SameOutside s t) ∧
  (∀ (imm : Word) (s : State), s.busy = false → s.lipend = true →
    ∃ t, mmioWrite .word 0x0C#8 imm s = .next t ∧ t.lipend = false ∧ t.lird = s.lird ∧
      (∀ r, t.reg r = if r = s.lird then imm else s.reg r) ∧ SameControl s t ∧ SameEvents s t ∧ SamePass s t ∧
      SameMemory s t ∧ SameOutside s t) ∧
  (∀ (i : Reg) (v : Word) (s : State), s.busy = false →
    ∃ t, mmioWrite .word (BitVec.ofNat 8 (0x80 + 4 * i.val)) v s = .next t ∧ t.reg i = v ∧ SameLoad s t) ∧
  (∀ (w : Word) (s : State), s.busy = true → ∃ t, mmioWrite .word 0x0C#8 w s = .next t ∧ t.werr = true ∧
    t.lipend = s.lipend ∧ t.lird = s.lird ∧ SameRegisters s t) ∧
  (∀ s : State, ∃ t, perform .reset s = .next t ∧ t.lipend = false) ∧
  (∀ (w : Word) (s : State), s.busy = false → s.lipend = false → w.toNat / 2 ^ 26 = 0x30 → w.toNat % 2 ^ 22 ≠ 0 →
    ∃ t, mmioWrite .word 0x0C#8 w s = .next t ∧ t.lipend = false ∧ t.ill = true)

/-- R25: what STATUS reads, what a write to it clears, at any time, and that nothing but such a write or reset clears an
event bit. -/
def Obligations.StatusBitsStick : Prop :=
  State.reset.status = 0#32 ∧
  (∀ s : State, mmioRead .word 0x08#8 s = .next { s with readData := s.status }) ∧
  (∀ s : State, s.status.getLsbD 0 = s.busy ∧ s.status.getLsbD 1 = s.ill ∧ s.status.getLsbD 2 = s.werr ∧
    s.status.getLsbD 3 = s.cfgerr ∧ s.status.getLsbD 4 = s.lipend ∧ ∀ n, 5 ≤ n → s.status.getLsbD n = false) ∧
  (∀ (s : State) (v : Word), ∃ t, mmioWrite .word 0x08#8 v s = .next t ∧
    t.ill = (s.ill && !v.getLsbD 1) ∧ t.werr = (s.werr && !v.getLsbD 2) ∧ t.cfgerr = (s.cfgerr && !v.getLsbD 3) ∧
    OnlyEvents s t) ∧
  ∀ s t : State, step s = .next t →
    (s.ill = true → t.ill = true ∨ s.inputs.head? = some .reset ∨
      ∃ v, s.inputs.head? = some (.mmioWrite .word 0x08#8 v) ∧ v.getLsbD 1 = true) ∧
    (s.werr = true → t.werr = true ∨ s.inputs.head? = some .reset ∨
      ∃ v, s.inputs.head? = some (.mmioWrite .word 0x08#8 v) ∧ v.getLsbD 2 = true) ∧
    (s.cfgerr = true → t.cfgerr = true ∨ s.inputs.head? = some .reset ∨
      ∃ v, s.inputs.head? = some (.mmioWrite .word 0x08#8 v) ∧ v.getLsbD 3 = true)

namespace Sys2Proof.Claim

/-- The offsets of the registers the host writes and the block may drop a write to (R37). -/
def guarded (o : BitVec 8) : Prop :=
  o.toNat % 4 = 0 ∧ (o.toNat = 0x04 ∨ o.toNat = 0x0C ∨ (0x10 ≤ o.toNat ∧ o.toNat ≤ 0x4C) ∨
    (0x80 ≤ o.toNat ∧ o.toNat ≤ 0xBC))

/-- The offsets where writes are ignored and set nothing: ID and the reserved ones (R23, R27, R37). -/
def inert (o : BitVec 8) : Prop :=
  o.toNat % 4 = 0 ∧ (o.toNat = 0x00 ∨ (0x50 ≤ o.toNat ∧ o.toNat ≤ 0x7C) ∨ 0xC0 ≤ o.toNat)

/-- The bits of a host-written register that are stored (R24, R32, R33, R38). -/
def storedBits (o : BitVec 8) : Word :=
  if o.toNat = 0x04 then 0x00003FF3#32
  else if o.toNat = 0x34 then 0x00FFFFFF#32
  else if o.toNat = 0x40 ∨ o.toNat = 0x44 then 0x0000FFFF#32
  else 0xFFFFFFFF#32

/-- The current value of the register at an offset of the window, as R23's table names them. -/
def windowValue (s : Machine.State) (o : Nat) : Word :=
  match o with
  | 0x00 => 0x4D4E5431#32
  | 0x04 => s.ctl.ctrl
  | 0x08 => s.status
  | 0x0C => 0#32
  | 0x10 => s.ctl.camX
  | 0x14 => s.ctl.camY
  | 0x18 => s.ctl.camZ
  | 0x1C => s.ctl.camCos
  | 0x20 => s.ctl.camSin
  | 0x24 => s.ctl.horizon
  | 0x28 => s.ctl.fogStart
  | 0x2C => s.ctl.distMax
  | 0x30 => s.ctl.scaleHeight
  | 0x34 => s.ctl.skyColor
  | 0x38 => s.ctl.fbBase
  | 0x3C => s.ctl.fbStride
  | 0x40 => s.ctl.fbWidth
  | 0x44 => s.ctl.fbHeight
  | 0x48 => s.ctl.hmapBase
  | 0x4C => s.ctl.tmapBase
  | n => if 0x80 ≤ n ∧ n ≤ 0xBC then s.reg ⟨(n - 0x80) / 4 % 16, Nat.mod_lt _ (by decide)⟩ else 0#32

/-- The host-written registers after `v` is stored at an offset of the window, as R23's table names them. -/
def storedAt (c : Machine.ControlRegs) (o : Nat) (v : Word) : Machine.ControlRegs :=
  match o with
  | 0x04 => { c with ctrl := v }
  | 0x10 => { c with camX := v }
  | 0x14 => { c with camY := v }
  | 0x18 => { c with camZ := v }
  | 0x1C => { c with camCos := v }
  | 0x20 => { c with camSin := v }
  | 0x24 => { c with horizon := v }
  | 0x28 => { c with fogStart := v }
  | 0x2C => { c with distMax := v }
  | 0x30 => { c with scaleHeight := v }
  | 0x34 => { c with skyColor := v }
  | 0x38 => { c with fbBase := v }
  | 0x3C => { c with fbStride := v }
  | 0x40 => { c with fbWidth := v }
  | 0x44 => { c with fbHeight := v }
  | 0x48 => { c with hmapBase := v }
  | 0x4C => { c with tmapBase := v }
  | _ => c

/-- What the host reads at an offset in `s`. -/
def reads (s : Machine.State) (o : BitVec 8) (v : Word) : Prop :=
  ∃ t, Machine.mmioRead .word o s = .next t ∧ t.readData = v

end Sys2Proof.Claim

/-- R37: during a pass, writes to guarded registers are dropped and set WERR; STATUS takes writes; ID and reserved offsets
ignore them; reads are allowed; and a turn of the pass changes only BUSY in the window. -/
def Obligations.WritesDuringAPassAreDropped : Prop :=
  ∀ (s : State) (v : Word) (o : BitVec 8), s.busy = true →
    (guarded o → ∃ t, mmioWrite .word o v s = .next t ∧ t.werr = true ∧ t.ill = s.ill ∧ t.cfgerr = s.cfgerr ∧
      OnlyEvents s t) ∧
    (∃ t, mmioWrite .word 0x08#8 v s = .next t ∧ t.ill = (s.ill && !v.getLsbD 1) ∧
      t.werr = (s.werr && !v.getLsbD 2) ∧ t.cfgerr = (s.cfgerr && !v.getLsbD 3) ∧ OnlyEvents s t) ∧
    (inert o → mmioWrite .word o v s = .next s) ∧
    (o.toNat % 4 = 0 → mmioRead .word o s = .next { s with readData := windowValue s o.toNat }) ∧
    (o ≠ 0x08#8 → windowValue s.sequencerTurn o.toNat = windowValue s o.toNat) ∧
    (∀ r, r ≠ .status → s.sequencerTurn.readMmio r = s.readMmio r) ∧
    (∀ n, 1 ≤ n → s.sequencerTurn.status.getLsbD n = s.status.getLsbD n)

/-- R38: every offset reads the register that R23's table names; and a write to an idle block's register stores the defined
fields in that register, which commands and passes then use, the reserved bits read 0, and nothing else that the host can
read changes. -/
def Obligations.RegisterWritesStoreDefinedBits : Prop :=
  (∀ (s : State) (o : BitVec 8), o.toNat % 4 = 0 →
    mmioRead .word o s = .next { s with readData := windowValue s o.toNat }) ∧
  ∀ (s : State) (v : Word) (o : BitVec 8), s.busy = false → guarded o → o ≠ 0x0C#8 →
    ∃ t, mmioWrite .word o v s = .next t ∧ reads t o (v &&& storedBits o) ∧
      t.ctl = storedAt s.ctl o.toNat (v &&& storedBits o) ∧
      (∀ r : Reg, t.reg r = if o.toNat = 0x80 + 4 * r.val then v else s.reg r) ∧
      (∀ r : Reg, t.wasWritten r = (decide (o.toNat = 0x80 + 4 * r.val) || s.wasWritten r)) ∧
      (∀ o' w, o'.toNat % 4 = 0 → o' ≠ o → reads s o' w → reads t o' w) ∧
      SameLoad s t ∧ SameEvents s t ∧ SamePass s t ∧ SameMemory s t ∧ SameOutside s t

/-- R26, R27: ID reads its constant and ignores writes; CMD reads 0 without side effect. And, as R23's table says, writes to
reserved offsets are ignored in every state. -/
def Obligations.IdentityAndCommandPortReads : Prop :=
  (∀ (s : State) (v : Word) (o : BitVec 8), inert o → mmioWrite .word o v s = .next s) ∧
  ∀ (s : State) (v : Word),
    mmioRead .word 0x00#8 s = .next { s with readData := 0x4D4E5431#32 } ∧
    mmioWrite .word 0x00#8 v s = .next s ∧
    mmioRead .word 0x0C#8 s = .next { s with readData := 0#32 } ∧
    mmioWrite .word 0x0C#8 v s = writeCommand v s

/-- R39: an access that is not an aligned 32-bit word access stops the model. -/
def Obligations.ImproperAccessFaults : Prop :=
  ∀ (s : State) (size : AccessSize) (o : BitVec 8) (v : Word), (size ≠ .word ∨ o.toNat % 4 ≠ 0) →
    mmioWrite size o v s = .fault .badMmioAccess ∧ mmioRead size o s = .fault .badMmioAccess

namespace Sys2Proof.Claim

open Sys2Proof.Machine

/-- One of the four bytes of a pixel of the W×H frame (R53). -/
def frameByte (c : ControlRegs) (a : Word) : Prop :=
  ∃ x y k, x < c.width ∧ y < c.height ∧ k < 4 ∧
    a = BitVec.ofNat 32 (c.fbBase.toNat + y * c.fbStride.toNat + 4 * x + k)

/-- A byte of the height map or of the texture (R51, R52). -/
def mapByte (c : ControlRegs) (a : Word) : Prop :=
  ∃ i j, i < side c ∧ j < side c ∧
    (a = BitVec.ofNat 32 (c.hmapBase.toNat + j * side c + i) ∨
      ∃ k, k < 4 ∧ a = BitVec.ofNat 32 (c.tmapBase.toNat + 4 * (j * side c + i) + k))

/-- A red, green or blue byte of a pixel of the W×H frame (R53, R55). -/
def colorByte (c : ControlRegs) (a : Word) : Prop :=
  ∃ x y, x < c.width ∧ y < c.height ∧ ∃ k, (k = c.ctrl.toNat / 2 ^ 8 % 4 ∨ k = c.ctrl.toNat / 2 ^ 10 % 4 ∨
    k = c.ctrl.toNat / 2 ^ 12 % 4) ∧ a = BitVec.ofNat 32 (c.fbBase.toNat + y * c.fbStride.toNat + 4 * x + k)

end Sys2Proof.Claim

/-- R62(b) with R153(c), in the stricter of the two readings it offers: during a pass an access of the outside to a
frame-buffer byte, or a write to a map byte, stops the model (notes/assumptions/6.md); every other access of the outside to
MEM goes through. With no pass in progress every access goes through; that this begins as soon as the pass has ended, before
the host has read STATUS, is the model's choice (notes/assumptions/22.md). -/
def Obligations.OutsideMustLeaveThePassAlone : Prop :=
  (∀ (s : State) (a : Word) (v : Byte), s.pass = none →
    hostMemWrite a v s = .next { s with mem := s.mem.write a v } ∧
    hostMemRead a s = .next { s with readData := BitVec.ofNat 32 (s.mem.read a).toNat }) ∧
  ∀ (s : State) (p : Pass) (a : Word) (v : Byte), s.pass = some p →
    (frameByte p.latch a → hostMemRead a s = .fault .frameReadDuringPass ∧
      hostMemWrite a v s = .fault .frameWriteDuringPass) ∧
    (¬ frameByte p.latch a → mapByte p.latch a → hostMemWrite a v s = .fault .mapWriteDuringPass) ∧
    (¬ frameByte p.latch a → hostMemRead a s = .next { s with readData := BitVec.ofNat 32 (s.mem.read a).toNat }) ∧
    (¬ frameByte p.latch a → ¬ mapByte p.latch a → hostMemWrite a v s = .next { s with mem := s.mem.write a v })

/-- R50, R55: reset leaves MEM alone, and a step changes a byte of MEM only where the outside writes that byte, or where a
pass is in progress and the byte is a red, green or blue byte of its frame. -/
def Obligations.OnlyPassesWriteMemory : Prop :=
  ∀ s t : State, s.inv = true → step s = .next t → ∀ a : Word, t.mem.read a ≠ s.mem.read a →
    (∃ v, s.inputs.head? = some (.memWrite a v)) ∨
    ((s.inputs = [] ∨ s.inputs.head? = some .wait) ∧ ∃ p, s.pass = some p ∧ colorByte p.latch a)

/-- 10_state.md section 7 (R43): what reset leaves of the state whose reset value the spec gives, from any state. (Not
claimed here: the values the model names for R0 to R15 and COLMAX, notes/assumptions/1.md and 3.md.) -/
def Obligations.ResetLeavesTheTable : Prop :=
  ∀ s : State, ∃ t, perform .reset s = .next t ∧
    reads t 0x00#8 0x4D4E5431#32 ∧ reads t 0x04#8 0x000024A0#32 ∧ reads t 0x08#8 0#32 ∧ reads t 0x0C#8 0#32 ∧
    reads t 0x1C#8 0x00000400#32 ∧ reads t 0x34#8 0x00FA7850#32 ∧
    (∀ o : BitVec 8, o.toNat % 4 = 0 → 0x10 ≤ o.toNat → o.toNat ≤ 0x7C → o ≠ 0x1C#8 → o ≠ 0x34#8 → reads t o 0#32) ∧
    t.lird = 0 ∧ t.pass = none ∧ SameMemory s t ∧ t.inputs = s.inputs

/-- R170, R171: after reset the block is idle and waits, ID reads at once, and the next CMD write, whatever the host meant
by it, is decoded: a command is executed, LI's command word is accepted, and any other word is illegal. -/
def Obligations.ResetMakesTheBlockIdle : Prop :=
  ∀ s : State, ∃ t, perform .reset s = .next t ∧ t.busy = false ∧ t.lipend = false ∧ t.lird = 0 ∧
    reads t 0x00#8 0x4D4E5431#32 ∧
    (∀ (w : Word) (i : Instr), decodeWord w = .ok (.command i) → mmioWrite .word 0x0C#8 w t = exec i t) ∧
    (∀ (w : Word) (rd : Reg), decodeWord w = .ok (.needsImmediate rd) →
      ∃ u, mmioWrite .word 0x0C#8 w t = .next u ∧ u.lipend = true ∧ u.lird = rd ∧ SameRegisters t u) ∧
    (∀ (w : Word) (e : DecodeError), decodeWord w = .error e →
      ∃ u, mmioWrite .word 0x0C#8 w t = .next u ∧ u.ill = true ∧ u.lipend = false ∧ SameRegisters t u) ∧
    step { t with inputs := [] } = .next { t with inputs := [] }

/-- R20, R36, R78: where the outside's next action is the host's write of a command word to CMD, and no pass runs and no
LI is pending, a step is the command executed on the state with that action taken; where an LI is pending, the word is its
immediate and the step is that LI executed; and LI's own command word is only accepted. Every other action of the outside is
performed the same way, and with none, or with `wait`, the sequencer has its turn (notes/assumptions/4.md and 5.md). -/
def Obligations.StepRunsTheDecodedCommand : Prop :=
  (∀ s : State, s.inputs = [] → step s = .next s.sequencerTurn) ∧
  (∀ (s : State) (a : HostAction) (rest : List HostAction), s.inputs = a :: rest →
    step s = perform a { s with inputs := rest }) ∧
  (∀ (s : State) (size : AccessSize) (o : BitVec 8) (v addr : Word) (b : Byte),
    perform (.mmioWrite size o v) s = mmioWrite size o v s ∧ perform (.mmioRead size o) s = mmioRead size o s ∧
    perform (.memWrite addr b) s = hostMemWrite addr b s ∧ perform (.memRead addr) s = hostMemRead addr s ∧
    perform .reset s = .next s.applyReset ∧ perform .wait s = .next s.sequencerTurn) ∧
  ∀ (s : State) (w : Word) (rest : List HostAction), s.inputs = .mmioWrite .word 0x0C#8 w :: rest → s.busy = false →
    (s.lipend = false → ∀ i, decode [w] = .ok (i, []) → step s = exec i { s with inputs := rest }) ∧
    (s.lipend = true → step s = exec (.li s.lird w) { s with inputs := rest }) ∧
    (s.lipend = false → ∀ rd, decodeWord w = .ok (.needsImmediate rd) →
      step s = .next { s with inputs := rest, lipend := true, lird := rd })

/-- R151, R154, R155: one host write to the window sets at most one event bit that was not set, and where it sets one it
changes nothing else. -/
def Obligations.EventsArePrecise : Prop :=
  ∀ (s t : State) (o : BitVec 8) (v : Word), mmioWrite .word o v s = .next t →
    (s.ill = false ∧ t.ill = true → t.werr = s.werr ∧ t.cfgerr = s.cfgerr ∧ OnlyEvents s t) ∧
    (s.werr = false ∧ t.werr = true → t.ill = s.ill ∧ t.cfgerr = s.cfgerr ∧ OnlyEvents s t) ∧
    (s.cfgerr = false ∧ t.cfgerr = true → t.ill = s.ill ∧ t.werr = s.werr ∧ OnlyEvents s t)

/-- 60_exceptions.md section 1 and 10_state.md section 3 (R21, R152): every command completes in every state, none sets
ILL or WERR, only DRAW sets CFGERR or starts a pass, only LI touches LIPEND and LIRD, and none writes MEM, a host-written
register or a register that is not its destination. That every state is covered is the model's choice: a register nothing has
written is read like any other where R153(b) asks for a stop (notes/assumptions/1.md), BUSY and LIPEND are tested before a
command is executed (15.md), and LI is taken with both its words (21.md). -/
def Obligations.EveryCommandCompletes : Prop :=
  ∀ (i : Instr) (s : State), ∃ t, exec i s = .next t ∧ t.ill = s.ill ∧ t.werr = s.werr ∧
    (i ≠ .draw → t.cfgerr = s.cfgerr ∧ t.pass = s.pass ∧ t.colmax = s.colmax) ∧
    ((∀ rd imm, i ≠ .li rd imm) → SameLoad s t) ∧
    (∀ r, destination i ≠ some r → t.reg r = s.reg r ∧ t.wasWritten r = s.wasWritten r) ∧ SameControl s t ∧ SameMemory s t ∧ SameOutside s t

/-- 20_memory.md section 1 (R45): no command but TGETH, TGETHI, TGETC, TGETCI and DRAW depends on MEM. -/
def Obligations.OtherCommandsIgnoreMemory : Prop :=
  ∀ (i : Instr) (s : State) (m : Memory),
    (∀ rd ra rb, i ≠ .tgeth rd ra rb ∧ i ≠ .tgethi rd ra rb ∧ i ≠ .tgetc rd ra rb ∧ i ≠ .tgetci rd ra rb) →
    i ≠ .draw → ∃ t, exec i s = .next t ∧ exec i { s with mem := m } = .next { t with mem := m }

/-- R167: an idle block with no access in progress keeps all its state. -/
def Obligations.IdleBlockKeepsItsState : Prop :=
  ∀ s : State, s.busy = false → s.inputs = [] → step s = .next s

/-- R153 (its cases (a) and (c)): a step stops only on a host error: an improper MMIO access, or an access of the outside
to MEM during a pass (notes/assumptions/6.md). It is never refused. That no command stops is the model's choice: R19 and
R153(b) ask a model to stop on a command that reads a register nothing has written (notes/assumptions/1.md). -/
def Obligations.OnlyHostErrorsStopTheModel : Prop :=
  ∀ s : State, (∀ r, step s ≠ .refused r) ∧
    ∀ f, step s = .fault f →
      (f = .badMmioAccess ∧ ∃ size o v, (size ≠ .word ∨ o.toNat % 4 ≠ 0) ∧
        (s.inputs.head? = some (.mmioWrite size o v) ∨ s.inputs.head? = some (.mmioRead size o))) ∨
      (∃ p a, s.pass = some p ∧ frameByte p.latch a ∧
        ((f = .frameReadDuringPass ∧ s.inputs.head? = some (.memRead a)) ∨
          (f = .frameWriteDuringPass ∧ ∃ v, s.inputs.head? = some (.memWrite a v)))) ∨
      (∃ p a v, s.pass = some p ∧ mapByte p.latch a ∧ f = .mapWriteDuringPass ∧
        s.inputs.head? = some (.memWrite a v))

/-- The machine's invariant holds right after reset: MEM in canonical form (R44), reserved bits 0 (R38), no pass. -/
def Obligations.ResetMeetsTheInvariant : Prop := State.reset.inv = true

/-- Every step from any state that meets the invariant keeps it: MEM stays in its canonical form (R44), reserved bits stay
0 (R38), no LI is pending during a pass (R37), and a pass holds the registers as they stand (R133) with its counters in
range (R134 to R140) and no column's height negative (R139). -/
def Obligations.StepKeepsTheInvariant : Prop :=
  ∀ s t : State, s.inv = true → step s = .next t → t.inv = true

/-- 43_rasterizer.md section 2 (R133, R138): a pass samples both maps bilinearly exactly where CTRL.FILTER, bit 1, is 1, and
takes the nearest samples otherwise; and W and H are the low halves of FB_WIDTH and FB_HEIGHT. -/
def Obligations.FilterSelectsTheSamples : Prop :=
  (∀ (c : ControlRegs) (m : Memory) (px py : Word),
    (c.ctrl.getLsbD 1 = true →
      passHeight c m px py = bilinearHeight c m px py ∧ passColor c m px py = bilinearColor c m px py) ∧
    (c.ctrl.getLsbD 1 = false →
      passHeight c m px py = nearestHeight c m px py ∧ passColor c m px py = nearestColor c m px py)) ∧
  ∀ c : ControlRegs, c.width = c.fbWidth.toNat % 2 ^ 16 ∧ c.height = c.fbHeight.toNat % 2 ^ 16
end

