-- ==== Sys2Proof/Laws/Encode.lean ====
section
/-! SUPPORT. Encoded words and the fields of a word as numbers, so that facts about layouts are facts of arithmetic. -/

namespace Sys2Proof

/-- A concatenation as a number (R9). -/
theorem toNat_append_eq_add {n m : Nat} (x : BitVec n) (y : BitVec m) :
    (x ++ y).toNat = x.toNat * 2 ^ m + y.toNat := by
  rw [BitVec.toNat_append, ← Nat.shiftLeft_add_eq_or_of_lt y.isLt, Nat.shiftLeft_eq]

@[simp] theorem regBits_toNat (r : Reg) : (regBits r).toNat = r.val := rfl

theorem encodeRRR_toNat (op : BitVec 6) (rd ra rb : Reg) : (encodeRRR op rd ra rb).toNat =
    op.toNat * 2 ^ 26 + rd.val * 2 ^ 22 + ra.val * 2 ^ 18 + rb.val * 2 ^ 14 := by
  simp only [encodeRRR, toNat_append_eq_add, regBits_toNat, BitVec.toNat_ofNat]
  omega

theorem encodeRR_toNat (op : BitVec 6) (rd ra : Reg) : (encodeRR op rd ra).toNat =
    op.toNat * 2 ^ 26 + rd.val * 2 ^ 22 + ra.val * 2 ^ 18 := by
  simp only [encodeRR, toNat_append_eq_add, regBits_toNat, BitVec.toNat_ofNat]
  omega

theorem encodeRRS_toNat (op : BitVec 6) (rd ra : Reg) (k : Nat) : (encodeRRS op rd ra k).toNat =
    op.toNat * 2 ^ 26 + rd.val * 2 ^ 22 + ra.val * 2 ^ 18 + k % 32 := by
  simp only [encodeRRS, toNat_append_eq_add, regBits_toNat, BitVec.toNat_ofNat]
  omega

theorem encodeRI_toNat (op : BitVec 6) (rd : Reg) :
    (encodeRI op rd).toNat = op.toNat * 2 ^ 26 + rd.val * 2 ^ 22 := by
  simp only [encodeRI, toNat_append_eq_add, regBits_toNat, BitVec.toNat_ofNat]
  omega

theorem encodeN_toNat (op : BitVec 6) : (encodeN op).toNat = op.toNat * 2 ^ 26 := by
  simp only [encodeN, toNat_append_eq_add, BitVec.toNat_ofNat]
  omega

theorem opField_eq (w : Word) : opField w = w.toNat / 2 ^ 26 % 64 := by
  simp [opField, Nat.shiftRight_eq_div_pow]

theorem rdField_val (w : Word) : (rdField w).val = w.toNat / 2 ^ 22 % 16 := by
  simp [rdField, Nat.shiftRight_eq_div_pow]

theorem raField_val (w : Word) : (raField w).val = w.toNat / 2 ^ 18 % 16 := by
  simp [raField, Nat.shiftRight_eq_div_pow]

theorem rbField_val (w : Word) : (rbField w).val = w.toNat / 2 ^ 14 % 16 := by
  simp [rbField, Nat.shiftRight_eq_div_pow]

theorem shField_eq (w : Word) : shField w = w.toNat % 32 := by
  simp [shField]

theorem opField_encodeRRR (op : BitVec 6) (rd ra rb : Reg) : opField (encodeRRR op rd ra rb) = op.toNat := by
  rw [opField_eq, encodeRRR_toNat]; omega

theorem opField_encodeRR (op : BitVec 6) (rd ra : Reg) : opField (encodeRR op rd ra) = op.toNat := by
  rw [opField_eq, encodeRR_toNat]; omega

theorem opField_encodeRRS (op : BitVec 6) (rd ra : Reg) (k : Nat) : opField (encodeRRS op rd ra k) = op.toNat := by
  rw [opField_eq, encodeRRS_toNat]; omega

theorem opField_encodeRI (op : BitVec 6) (rd : Reg) : opField (encodeRI op rd) = op.toNat := by
  rw [opField_eq, encodeRI_toNat]; omega

theorem opField_encodeN (op : BitVec 6) : opField (encodeN op) = op.toNat := by
  rw [opField_eq, encodeN_toNat]; omega

end Sys2Proof
end

