-- ==== Sys2Proof/Laws/Memory.lean ====
section
/-! SUPPORT. The laws of MEM: a read after a write, and that every memory operation keeps the canonical form. -/

namespace Sys2Proof.Machine

open Sys2Proof

/-- Every address of `m` is above `lo`, and the addresses rise: `risingFrom` as a proposition on the head. -/
@[simp] theorem risingFrom_cons (lo a : Nat) (v : Byte) (m : Memory) :
    risingFrom lo ((a, v) :: m) = true ↔ lo < a ∧ risingFrom a m = true := by
  simp [risingFrom]

theorem risingFrom_mono {lo lo' : Nat} (h : lo' ≤ lo) (m : Memory) (hm : risingFrom lo m = true) :
    risingFrom lo' m = true := by
  cases m with
  | nil => rfl
  | cons c m =>
    obtain ⟨a, v⟩ := c
    rw [risingFrom_cons] at hm ⊢
    exact ⟨by omega, hm.2⟩

/-- An address that is not above the listed ones' lower bound is not listed. -/
theorem cellAt_of_risingFrom {lo a : Nat} (h : a ≤ lo) (m : Memory) (hm : risingFrom lo m = true) :
    cellAt m a = Config.memDefault := by
  induction m generalizing lo with
  | nil => rfl
  | cons c m ih =>
    obtain ⟨b, v⟩ := c
    rw [risingFrom_cons] at hm
    have hb : ¬ b = a := by omega
    simp [cellAt, hb, ih (by omega : a ≤ b) hm.2]

theorem cellAt_putCell (m : Memory) (a b : Nat) (v : Byte) :
    cellAt (putCell m a v) b = if b = a then v else cellAt m b := by
  induction m with
  | nil => simp [putCell, cellAt, eq_comm]
  | cons c m ih =>
    obtain ⟨d, w⟩ := c
    unfold putCell
    split
    · by_cases h : b = a
      · simp [cellAt, h]
      · simp [cellAt, h, Ne.symm h]
    · split
      · next h =>
        subst h
        by_cases h : b = d
        · simp [cellAt, h]
        · simp [cellAt, h, Ne.symm h]
      · next h =>
        simp only [cellAt, ih]
        by_cases h' : d = b
        · have : ¬ b = a := fun e => h (h'.trans e)
          simp [h', this]
        · simp [h']

/-- Dropping a cell leaves every other address as it was, in any list. -/
theorem cellAt_dropCell_other (m : Memory) (a b : Nat) (h : b ≠ a) : cellAt (dropCell m a) b = cellAt m b := by
  induction m with
  | nil => rfl
  | cons c m ih =>
    obtain ⟨d, w⟩ := c
    unfold dropCell
    split
    · next h' => subst h'; simp [cellAt, Ne.symm h]
    · simp [cellAt, ih]

/-- A dropped address reads as unlisted, where the addresses rise. -/
theorem cellAt_dropCell_same (m : Memory) (a : Nat) (hm : rising m = true) :
    cellAt (dropCell m a) a = Config.memDefault := by
  induction m with
  | nil => rfl
  | cons c m ih =>
    obtain ⟨d, w⟩ := c
    have hm' : risingFrom d m = true := hm
    have hr : rising m = true := by
      cases m with
      | nil => rfl
      | cons e m => obtain ⟨e, u⟩ := e; exact (risingFrom_cons _ _ _ _ |>.1 hm').2
    unfold dropCell
    split
    · next h => subst h; exact cellAt_of_risingFrom (le_refl d) m hm'
    · next h => simp [cellAt, h, ih hr]

theorem risingFrom_putCell {lo : Nat} (m : Memory) (a : Nat) (v : Byte) (h : lo < a)
    (hm : risingFrom lo m = true) : risingFrom lo (putCell m a v) = true := by
  induction m generalizing lo with
  | nil => simp [putCell, risingFrom, h]
  | cons c m ih =>
    obtain ⟨d, w⟩ := c
    rw [risingFrom_cons] at hm
    unfold putCell
    split
    · next h' => simp [h, h', hm.2]
    · split
      · next h' => subst h'; simp [h, hm.2]
      · next h₁ h₂ => simp [hm.1, ih (by omega : d < a) hm.2]

theorem risingFrom_dropCell {lo : Nat} (m : Memory) (a : Nat) (hm : risingFrom lo m = true) :
    risingFrom lo (dropCell m a) = true := by
  induction m generalizing lo with
  | nil => rfl
  | cons c m ih =>
    obtain ⟨d, w⟩ := c
    rw [risingFrom_cons] at hm
    unfold dropCell
    split
    · exact risingFrom_mono (by omega) m hm.2
    · simp [hm.1, ih hm.2]

/-- `rising` looked at one cell at a time. -/
theorem rising_cons (a : Nat) (v : Byte) (m : Memory) : rising ((a, v) :: m) = risingFrom a m := rfl

theorem mem_putCell (m : Memory) (a : Nat) (v : Byte) (c : Host.Cell) (h : c ∈ putCell m a v) :
    c = (a, v) ∨ c ∈ m := by
  induction m with
  | nil => simpa [putCell] using h
  | cons d m ih =>
    obtain ⟨b, w⟩ := d
    unfold putCell at h
    split at h
    · exact List.mem_cons.1 h
    · split at h
      · simp only [List.mem_cons] at h ⊢
        tauto
      · simp only [List.mem_cons] at h ⊢
        rcases h with h | h
        · tauto
        · have := ih h
          tauto

theorem mem_dropCell (m : Memory) (a : Nat) (c : Host.Cell) (h : c ∈ dropCell m a) : c ∈ m := by
  induction m with
  | nil => exact h
  | cons d m ih =>
    obtain ⟨b, w⟩ := d
    unfold dropCell at h
    split at h
    · exact List.mem_cons_of_mem _ h
    · simp only [List.mem_cons] at h ⊢
      exact h.imp_right ih

/-- The canonical form as a conjunction. -/
theorem Memory.wf_iff (m : Memory) : m.wf = true ↔
    rising m = true ∧ ∀ c ∈ m, c.1 < 2 ^ 32 ∧ c.2 ≠ Config.memDefault := by
  simp [Memory.wf, List.all_eq_true]

theorem rising_putCell (m : Memory) (a : Nat) (v : Byte) (hm : rising m = true) :
    rising (putCell m a v) = true := by
  cases m with
  | nil => rfl
  | cons c m =>
    obtain ⟨d, w⟩ := c
    rw [rising_cons] at hm
    unfold putCell
    split
    · next h => simp [rising_cons, h, hm]
    · split
      · next h => subst h; simpa [rising_cons] using hm
      · next h₁ h₂ => simpa [rising_cons] using risingFrom_putCell m a v (by omega) hm

theorem rising_dropCell (m : Memory) (a : Nat) (hm : rising m = true) : rising (dropCell m a) = true := by
  cases m with
  | nil => rfl
  | cons c m =>
    obtain ⟨d, w⟩ := c
    rw [rising_cons] at hm
    unfold dropCell
    split
    · cases m with
      | nil => rfl
      | cons e m => obtain ⟨e, u⟩ := e; rw [risingFrom_cons] at hm; exact hm.2
    · simpa [rising_cons] using risingFrom_dropCell m a hm

/-- A write keeps the canonical form. -/
theorem Memory.write_wf (m : Memory) (a : Word) (v : Byte) (hm : m.wf = true) : (m.write a v).wf = true := by
  rw [Memory.wf_iff] at hm ⊢
  unfold Memory.write
  split
  · exact ⟨rising_dropCell m _ hm.1, fun c hc => hm.2 c (mem_dropCell m _ c hc)⟩
  · next hv =>
    refine ⟨rising_putCell m _ v hm.1, fun c hc => ?_⟩
    rcases mem_putCell m _ v c hc with h | h
    · subst h; exact ⟨a.isLt, hv⟩
    · exact hm.2 c h

/-- A read of any address but the one written, in any memory. -/
theorem Memory.read_write_other (m : Memory) (a b : Word) (v : Byte) (h : b ≠ a) :
    (m.write a v).read b = m.read b := by
  have h' : b.toNat ≠ a.toNat := fun e => h (BitVec.eq_of_toNat_eq e)
  unfold Memory.write Memory.read
  split
  · exact cellAt_dropCell_other m _ _ h'
  · simp [cellAt_putCell, h']

/-- A read of the address just written (R58). -/
theorem Memory.read_write_same (m : Memory) (a : Word) (v : Byte) (hm : m.wf = true) :
    (m.write a v).read a = v := by
  unfold Memory.write Memory.read
  split
  · next hv => rw [cellAt_dropCell_same m _ ((Memory.wf_iff m).1 hm).1, hv]
  · simp [cellAt_putCell]

/-- A read after a write, in one equation. -/
theorem Memory.read_write (m : Memory) (a b : Word) (v : Byte) (hm : m.wf = true) :
    (m.write a v).read b = if b = a then v else m.read b := by
  split
  · next h => rw [h, Memory.read_write_same m a v hm]
  · next h => exact Memory.read_write_other m a b v h

end Sys2Proof.Machine
end

