-- ==== Sys2Proof/Laws/PerInstr.lean ====
section
/-! SUPPORT. Facts stated of every command as syntax, one lemma per constructor. -/

namespace Sys2Proof.Laws

open Sys2Proof

/-- How many words the spec gives a command (R76): two for LI, one for every other. -/
def wordCount (i : Instr) : Nat :=
  match i with
  | .fadd _ _ _ => 1
  | .fsub _ _ _ => 1
  | .faddi _ _ _ => 1
  | .fsubi _ _ _ => 1
  | .fmul _ _ _ => 1
  | .fmuli _ _ _ => 1
  | .fdivi _ _ _ => 1
  | .fshl _ _ _ => 1
  | .fshr _ _ _ => 1
  | .fand _ _ _ => 1
  | .ffloor _ _ => 1
  | .ffract _ _ => 1
  | .fromi _ _ => 1
  | .fromu _ _ => 1
  | .fromb _ _ => 1
  | .fromf _ _ => 1
  | .toi _ _ => 1
  | .tou _ _ => 1
  | .tob _ _ => 1
  | .tof _ _ => 1
  | .tgeth _ _ _ => 1
  | .tgethi _ _ _ => 1
  | .tgetc _ _ _ => 1
  | .tgetci _ _ _ => 1
  | .li _ _ => 2
  | .draw => 1

/-- The opcode the spec gives a command (R75). -/
def opcode (i : Instr) : Nat :=
  match i with
  | .fadd _ _ _ => 0x01
  | .fsub _ _ _ => 0x02
  | .faddi _ _ _ => 0x03
  | .fsubi _ _ _ => 0x04
  | .fmul _ _ _ => 0x05
  | .fmuli _ _ _ => 0x06
  | .fdivi _ _ _ => 0x07
  | .fshl _ _ _ => 0x08
  | .fshr _ _ _ => 0x09
  | .fand _ _ _ => 0x0A
  | .ffloor _ _ => 0x0B
  | .ffract _ _ => 0x0C
  | .fromi _ _ => 0x10
  | .fromu _ _ => 0x11
  | .fromb _ _ => 0x12
  | .fromf _ _ => 0x13
  | .toi _ _ => 0x14
  | .tou _ _ => 0x15
  | .tob _ _ => 0x16
  | .tof _ _ => 0x17
  | .tgeth _ _ _ => 0x20
  | .tgethi _ _ _ => 0x21
  | .tgetc _ _ _ => 0x22
  | .tgetci _ _ _ => 0x23
  | .li _ _ => 0x30
  | .draw => 0x38

/-- R76: a command is encoded in the number of words its opcode has. -/
def WordCount.Statement (i : Instr) : Prop := (encode i).length = wordCount i

theorem WordCount.fadd (rd ra rb : Reg) : WordCount.Statement (.fadd rd ra rb) := rfl
theorem WordCount.fsub (rd ra rb : Reg) : WordCount.Statement (.fsub rd ra rb) := rfl
theorem WordCount.faddi (rd ra rb : Reg) : WordCount.Statement (.faddi rd ra rb) := rfl
theorem WordCount.fsubi (rd ra rb : Reg) : WordCount.Statement (.fsubi rd ra rb) := rfl
theorem WordCount.fmul (rd ra rb : Reg) : WordCount.Statement (.fmul rd ra rb) := rfl
theorem WordCount.fmuli (rd ra rb : Reg) : WordCount.Statement (.fmuli rd ra rb) := rfl
theorem WordCount.fdivi (rd ra rb : Reg) : WordCount.Statement (.fdivi rd ra rb) := rfl
theorem WordCount.fshl (rd ra : Reg) (k : Nat) : WordCount.Statement (.fshl rd ra k) := rfl
theorem WordCount.fshr (rd ra : Reg) (k : Nat) : WordCount.Statement (.fshr rd ra k) := rfl
theorem WordCount.fand (rd ra rb : Reg) : WordCount.Statement (.fand rd ra rb) := rfl
theorem WordCount.ffloor (rd ra : Reg) : WordCount.Statement (.ffloor rd ra) := rfl
theorem WordCount.ffract (rd ra : Reg) : WordCount.Statement (.ffract rd ra) := rfl
theorem WordCount.fromi (rd ra : Reg) : WordCount.Statement (.fromi rd ra) := rfl
theorem WordCount.fromu (rd ra : Reg) : WordCount.Statement (.fromu rd ra) := rfl
theorem WordCount.fromb (rd ra : Reg) : WordCount.Statement (.fromb rd ra) := rfl
theorem WordCount.fromf (rd ra : Reg) : WordCount.Statement (.fromf rd ra) := rfl
theorem WordCount.toi (rd ra : Reg) : WordCount.Statement (.toi rd ra) := rfl
theorem WordCount.tou (rd ra : Reg) : WordCount.Statement (.tou rd ra) := rfl
theorem WordCount.tob (rd ra : Reg) : WordCount.Statement (.tob rd ra) := rfl
theorem WordCount.tof (rd ra : Reg) : WordCount.Statement (.tof rd ra) := rfl
theorem WordCount.tgeth (rd ra rb : Reg) : WordCount.Statement (.tgeth rd ra rb) := rfl
theorem WordCount.tgethi (rd ra rb : Reg) : WordCount.Statement (.tgethi rd ra rb) := rfl
theorem WordCount.tgetc (rd ra rb : Reg) : WordCount.Statement (.tgetc rd ra rb) := rfl
theorem WordCount.tgetci (rd ra rb : Reg) : WordCount.Statement (.tgetci rd ra rb) := rfl
theorem WordCount.li (rd : Reg) (imm : Word) : WordCount.Statement (.li rd imm) := rfl
theorem WordCount.draw : WordCount.Statement (.draw) := rfl

/-- R70, R75: bits 31:26 of a command's first word are its opcode. -/
def OpcodeOfFirstWord.Statement (i : Instr) : Prop := (encode i).head?.map opField = some (opcode i)

theorem OpcodeOfFirstWord.fadd (rd ra rb : Reg) : OpcodeOfFirstWord.Statement (.fadd rd ra rb) :=
  congrArg some (opField_encodeRRR _ _ _ _)
theorem OpcodeOfFirstWord.fsub (rd ra rb : Reg) : OpcodeOfFirstWord.Statement (.fsub rd ra rb) :=
  congrArg some (opField_encodeRRR _ _ _ _)
theorem OpcodeOfFirstWord.faddi (rd ra rb : Reg) : OpcodeOfFirstWord.Statement (.faddi rd ra rb) :=
  congrArg some (opField_encodeRRR _ _ _ _)
theorem OpcodeOfFirstWord.fsubi (rd ra rb : Reg) : OpcodeOfFirstWord.Statement (.fsubi rd ra rb) :=
  congrArg some (opField_encodeRRR _ _ _ _)
theorem OpcodeOfFirstWord.fmul (rd ra rb : Reg) : OpcodeOfFirstWord.Statement (.fmul rd ra rb) :=
  congrArg some (opField_encodeRRR _ _ _ _)
theorem OpcodeOfFirstWord.fmuli (rd ra rb : Reg) : OpcodeOfFirstWord.Statement (.fmuli rd ra rb) :=
  congrArg some (opField_encodeRRR _ _ _ _)
theorem OpcodeOfFirstWord.fdivi (rd ra rb : Reg) : OpcodeOfFirstWord.Statement (.fdivi rd ra rb) :=
  congrArg some (opField_encodeRRR _ _ _ _)
theorem OpcodeOfFirstWord.fshl (rd ra : Reg) (k : Nat) : OpcodeOfFirstWord.Statement (.fshl rd ra k) :=
  congrArg some (opField_encodeRRS _ _ _ _)
theorem OpcodeOfFirstWord.fshr (rd ra : Reg) (k : Nat) : OpcodeOfFirstWord.Statement (.fshr rd ra k) :=
  congrArg some (opField_encodeRRS _ _ _ _)
theorem OpcodeOfFirstWord.fand (rd ra rb : Reg) : OpcodeOfFirstWord.Statement (.fand rd ra rb) :=
  congrArg some (opField_encodeRRR _ _ _ _)
theorem OpcodeOfFirstWord.ffloor (rd ra : Reg) : OpcodeOfFirstWord.Statement (.ffloor rd ra) :=
  congrArg some (opField_encodeRR _ _ _)
theorem OpcodeOfFirstWord.ffract (rd ra : Reg) : OpcodeOfFirstWord.Statement (.ffract rd ra) :=
  congrArg some (opField_encodeRR _ _ _)
theorem OpcodeOfFirstWord.fromi (rd ra : Reg) : OpcodeOfFirstWord.Statement (.fromi rd ra) :=
  congrArg some (opField_encodeRR _ _ _)
theorem OpcodeOfFirstWord.fromu (rd ra : Reg) : OpcodeOfFirstWord.Statement (.fromu rd ra) :=
  congrArg some (opField_encodeRR _ _ _)
theorem OpcodeOfFirstWord.fromb (rd ra : Reg) : OpcodeOfFirstWord.Statement (.fromb rd ra) :=
  congrArg some (opField_encodeRR _ _ _)
theorem OpcodeOfFirstWord.fromf (rd ra : Reg) : OpcodeOfFirstWord.Statement (.fromf rd ra) :=
  congrArg some (opField_encodeRR _ _ _)
theorem OpcodeOfFirstWord.toi (rd ra : Reg) : OpcodeOfFirstWord.Statement (.toi rd ra) :=
  congrArg some (opField_encodeRR _ _ _)
theorem OpcodeOfFirstWord.tou (rd ra : Reg) : OpcodeOfFirstWord.Statement (.tou rd ra) :=
  congrArg some (opField_encodeRR _ _ _)
theorem OpcodeOfFirstWord.tob (rd ra : Reg) : OpcodeOfFirstWord.Statement (.tob rd ra) :=
  congrArg some (opField_encodeRR _ _ _)
theorem OpcodeOfFirstWord.tof (rd ra : Reg) : OpcodeOfFirstWord.Statement (.tof rd ra) :=
  congrArg some (opField_encodeRR _ _ _)
theorem OpcodeOfFirstWord.tgeth (rd ra rb : Reg) : OpcodeOfFirstWord.Statement (.tgeth rd ra rb) :=
  congrArg some (opField_encodeRRR _ _ _ _)
theorem OpcodeOfFirstWord.tgethi (rd ra rb : Reg) : OpcodeOfFirstWord.Statement (.tgethi rd ra rb) :=
  congrArg some (opField_encodeRRR _ _ _ _)
theorem OpcodeOfFirstWord.tgetc (rd ra rb : Reg) : OpcodeOfFirstWord.Statement (.tgetc rd ra rb) :=
  congrArg some (opField_encodeRRR _ _ _ _)
theorem OpcodeOfFirstWord.tgetci (rd ra rb : Reg) : OpcodeOfFirstWord.Statement (.tgetci rd ra rb) :=
  congrArg some (opField_encodeRRR _ _ _ _)
theorem OpcodeOfFirstWord.li (rd : Reg) (imm : Word) : OpcodeOfFirstWord.Statement (.li rd imm) :=
  congrArg some (opField_encodeRI _ _)
theorem OpcodeOfFirstWord.draw : OpcodeOfFirstWord.Statement (.draw) :=
  congrArg some (opField_encodeN _)

end Sys2Proof.Laws
end

