-- ==== Sys2Proof/Laws/State.lean ====
section
/-! SUPPORT. One lemma per field and update of State, true by rfl, so that no proof unfolds a record update. -/

namespace Sys2Proof.Machine

open Sys2Proof

variable (s : State)

@[simp] theorem State.setReg_regs (r : Reg) (v : Word) : (s.setReg r v).regs = s.regs.set r.val v := rfl
@[simp] theorem State.setReg_written (r : Reg) (v : Word) : (s.setReg r v).written = s.written.set r.val true := rfl
@[simp] theorem State.setReg_ctl (r : Reg) (v : Word) : (s.setReg r v).ctl = s.ctl := rfl
@[simp] theorem State.setReg_ill (r : Reg) (v : Word) : (s.setReg r v).ill = s.ill := rfl
@[simp] theorem State.setReg_werr (r : Reg) (v : Word) : (s.setReg r v).werr = s.werr := rfl
@[simp] theorem State.setReg_cfgerr (r : Reg) (v : Word) : (s.setReg r v).cfgerr = s.cfgerr := rfl
@[simp] theorem State.setReg_lipend (r : Reg) (v : Word) : (s.setReg r v).lipend = s.lipend := rfl
@[simp] theorem State.setReg_lird (r : Reg) (v : Word) : (s.setReg r v).lird = s.lird := rfl
@[simp] theorem State.setReg_colmax (r : Reg) (v : Word) : (s.setReg r v).colmax = s.colmax := rfl
@[simp] theorem State.setReg_pass (r : Reg) (v : Word) : (s.setReg r v).pass = s.pass := rfl
@[simp] theorem State.setReg_mem (r : Reg) (v : Word) : (s.setReg r v).mem = s.mem := rfl
@[simp] theorem State.setReg_inputs (r : Reg) (v : Word) : (s.setReg r v).inputs = s.inputs := rfl
@[simp] theorem State.setReg_readData (r : Reg) (v : Word) : (s.setReg r v).readData = s.readData := rfl

@[simp] theorem State.acceptLoad_regs (r : Reg) : (s.acceptLoad r).regs = s.regs := rfl
@[simp] theorem State.acceptLoad_written (r : Reg) : (s.acceptLoad r).written = s.written := rfl
@[simp] theorem State.acceptLoad_ctl (r : Reg) : (s.acceptLoad r).ctl = s.ctl := rfl
@[simp] theorem State.acceptLoad_ill (r : Reg) : (s.acceptLoad r).ill = s.ill := rfl
@[simp] theorem State.acceptLoad_werr (r : Reg) : (s.acceptLoad r).werr = s.werr := rfl
@[simp] theorem State.acceptLoad_cfgerr (r : Reg) : (s.acceptLoad r).cfgerr = s.cfgerr := rfl
@[simp] theorem State.acceptLoad_lipend (r : Reg) : (s.acceptLoad r).lipend = true := rfl
@[simp] theorem State.acceptLoad_lird (r : Reg) : (s.acceptLoad r).lird = r := rfl
@[simp] theorem State.acceptLoad_colmax (r : Reg) : (s.acceptLoad r).colmax = s.colmax := rfl
@[simp] theorem State.acceptLoad_pass (r : Reg) : (s.acceptLoad r).pass = s.pass := rfl
@[simp] theorem State.acceptLoad_mem (r : Reg) : (s.acceptLoad r).mem = s.mem := rfl
@[simp] theorem State.acceptLoad_inputs (r : Reg) : (s.acceptLoad r).inputs = s.inputs := rfl
@[simp] theorem State.acceptLoad_readData (r : Reg) : (s.acceptLoad r).readData = s.readData := rfl

@[simp] theorem State.acceptImmediate_regs (v : Word) : (s.acceptImmediate v).regs = s.regs.set s.lird.val v := rfl
@[simp] theorem State.acceptImmediate_written (v : Word) : (s.acceptImmediate v).written = s.written.set s.lird.val true := rfl
@[simp] theorem State.acceptImmediate_ctl (v : Word) : (s.acceptImmediate v).ctl = s.ctl := rfl
@[simp] theorem State.acceptImmediate_ill (v : Word) : (s.acceptImmediate v).ill = s.ill := rfl
@[simp] theorem State.acceptImmediate_werr (v : Word) : (s.acceptImmediate v).werr = s.werr := rfl
@[simp] theorem State.acceptImmediate_cfgerr (v : Word) : (s.acceptImmediate v).cfgerr = s.cfgerr := rfl
@[simp] theorem State.acceptImmediate_lipend (v : Word) : (s.acceptImmediate v).lipend = false := rfl
@[simp] theorem State.acceptImmediate_lird (v : Word) : (s.acceptImmediate v).lird = s.lird := rfl
@[simp] theorem State.acceptImmediate_colmax (v : Word) : (s.acceptImmediate v).colmax = s.colmax := rfl
@[simp] theorem State.acceptImmediate_pass (v : Word) : (s.acceptImmediate v).pass = s.pass := rfl
@[simp] theorem State.acceptImmediate_mem (v : Word) : (s.acceptImmediate v).mem = s.mem := rfl
@[simp] theorem State.acceptImmediate_inputs (v : Word) : (s.acceptImmediate v).inputs = s.inputs := rfl
@[simp] theorem State.acceptImmediate_readData (v : Word) : (s.acceptImmediate v).readData = s.readData := rfl

@[simp] theorem State.applyReset_regs : s.applyReset.regs = State.reset.regs := rfl
@[simp] theorem State.applyReset_written : s.applyReset.written = State.reset.written := rfl
@[simp] theorem State.applyReset_ctl : s.applyReset.ctl = ControlRegs.reset := rfl
@[simp] theorem State.applyReset_ill : s.applyReset.ill = false := rfl
@[simp] theorem State.applyReset_werr : s.applyReset.werr = false := rfl
@[simp] theorem State.applyReset_cfgerr : s.applyReset.cfgerr = false := rfl
@[simp] theorem State.applyReset_lipend : s.applyReset.lipend = false := rfl
@[simp] theorem State.applyReset_lird : s.applyReset.lird = 0 := rfl
@[simp] theorem State.applyReset_colmax : s.applyReset.colmax = [] := rfl
@[simp] theorem State.applyReset_pass : s.applyReset.pass = none := rfl
@[simp] theorem State.applyReset_mem : s.applyReset.mem = s.mem := rfl
@[simp] theorem State.applyReset_inputs : s.applyReset.inputs = s.inputs := rfl
@[simp] theorem State.applyReset_readData : s.applyReset.readData = s.readData := rfl

@[simp] theorem State.clearEvents_regs (v : Word) : (s.clearEvents v).regs = s.regs := rfl
@[simp] theorem State.clearEvents_written (v : Word) : (s.clearEvents v).written = s.written := rfl
@[simp] theorem State.clearEvents_ctl (v : Word) : (s.clearEvents v).ctl = s.ctl := rfl
@[simp] theorem State.clearEvents_ill (v : Word) : (s.clearEvents v).ill = (s.ill && !v.getLsbD 1) := rfl
@[simp] theorem State.clearEvents_werr (v : Word) : (s.clearEvents v).werr = (s.werr && !v.getLsbD 2) := rfl
@[simp] theorem State.clearEvents_cfgerr (v : Word) : (s.clearEvents v).cfgerr = (s.cfgerr && !v.getLsbD 3) := rfl
@[simp] theorem State.clearEvents_lipend (v : Word) : (s.clearEvents v).lipend = s.lipend := rfl
@[simp] theorem State.clearEvents_lird (v : Word) : (s.clearEvents v).lird = s.lird := rfl
@[simp] theorem State.clearEvents_colmax (v : Word) : (s.clearEvents v).colmax = s.colmax := rfl
@[simp] theorem State.clearEvents_pass (v : Word) : (s.clearEvents v).pass = s.pass := rfl
@[simp] theorem State.clearEvents_mem (v : Word) : (s.clearEvents v).mem = s.mem := rfl
@[simp] theorem State.clearEvents_inputs (v : Word) : (s.clearEvents v).inputs = s.inputs := rfl
@[simp] theorem State.clearEvents_readData (v : Word) : (s.clearEvents v).readData = s.readData := rfl

@[simp] theorem State.goOn_regs (p : Pass) (ph : Phase) : (s.goOn p ph).regs = s.regs := rfl
@[simp] theorem State.goOn_written (p : Pass) (ph : Phase) : (s.goOn p ph).written = s.written := rfl
@[simp] theorem State.goOn_ctl (p : Pass) (ph : Phase) : (s.goOn p ph).ctl = s.ctl := rfl
@[simp] theorem State.goOn_ill (p : Pass) (ph : Phase) : (s.goOn p ph).ill = s.ill := rfl
@[simp] theorem State.goOn_werr (p : Pass) (ph : Phase) : (s.goOn p ph).werr = s.werr := rfl
@[simp] theorem State.goOn_cfgerr (p : Pass) (ph : Phase) : (s.goOn p ph).cfgerr = s.cfgerr := rfl
@[simp] theorem State.goOn_lipend (p : Pass) (ph : Phase) : (s.goOn p ph).lipend = s.lipend := rfl
@[simp] theorem State.goOn_lird (p : Pass) (ph : Phase) : (s.goOn p ph).lird = s.lird := rfl
@[simp] theorem State.goOn_colmax (p : Pass) (ph : Phase) : (s.goOn p ph).colmax = s.colmax := rfl
@[simp] theorem State.goOn_pass (p : Pass) (ph : Phase) : (s.goOn p ph).pass = some { p with phase := ph } := rfl
@[simp] theorem State.goOn_mem (p : Pass) (ph : Phase) : (s.goOn p ph).mem = s.mem := rfl
@[simp] theorem State.goOn_inputs (p : Pass) (ph : Phase) : (s.goOn p ph).inputs = s.inputs := rfl
@[simp] theorem State.goOn_readData (p : Pass) (ph : Phase) : (s.goOn p ph).readData = s.readData := rfl

@[simp] theorem State.setColumnMax_regs (i : Nat) (v : Word) : (s.setColumnMax i v).regs = s.regs := rfl
@[simp] theorem State.setColumnMax_written (i : Nat) (v : Word) : (s.setColumnMax i v).written = s.written := rfl
@[simp] theorem State.setColumnMax_ctl (i : Nat) (v : Word) : (s.setColumnMax i v).ctl = s.ctl := rfl
@[simp] theorem State.setColumnMax_ill (i : Nat) (v : Word) : (s.setColumnMax i v).ill = s.ill := rfl
@[simp] theorem State.setColumnMax_werr (i : Nat) (v : Word) : (s.setColumnMax i v).werr = s.werr := rfl
@[simp] theorem State.setColumnMax_cfgerr (i : Nat) (v : Word) : (s.setColumnMax i v).cfgerr = s.cfgerr := rfl
@[simp] theorem State.setColumnMax_lipend (i : Nat) (v : Word) : (s.setColumnMax i v).lipend = s.lipend := rfl
@[simp] theorem State.setColumnMax_lird (i : Nat) (v : Word) : (s.setColumnMax i v).lird = s.lird := rfl
@[simp] theorem State.setColumnMax_colmax (i : Nat) (v : Word) : (s.setColumnMax i v).colmax = setColumn s.colmax i v := rfl
@[simp] theorem State.setColumnMax_pass (i : Nat) (v : Word) : (s.setColumnMax i v).pass = s.pass := rfl
@[simp] theorem State.setColumnMax_mem (i : Nat) (v : Word) : (s.setColumnMax i v).mem = s.mem := rfl
@[simp] theorem State.setColumnMax_inputs (i : Nat) (v : Word) : (s.setColumnMax i v).inputs = s.inputs := rfl
@[simp] theorem State.setColumnMax_readData (i : Nat) (v : Word) : (s.setColumnMax i v).readData = s.readData := rfl

@[simp] theorem State.record_regs (e : ErrorEvent) : (s.record e).regs = s.regs := by cases e <;> rfl
@[simp] theorem State.record_written (e : ErrorEvent) : (s.record e).written = s.written := by cases e <;> rfl
@[simp] theorem State.record_ctl (e : ErrorEvent) : (s.record e).ctl = s.ctl := by cases e <;> rfl
@[simp] theorem State.record_ill (e : ErrorEvent) : (s.record e).ill = (s.ill || decide (e = .illegalCommand)) := by
  cases e <;> simp [State.record]
@[simp] theorem State.record_werr (e : ErrorEvent) : (s.record e).werr = (s.werr || decide (e = .writeWhileBusy)) := by
  cases e <;> simp [State.record]
@[simp] theorem State.record_cfgerr (e : ErrorEvent) : (s.record e).cfgerr = (s.cfgerr || decide (e = .configuration)) := by
  cases e <;> simp [State.record]
@[simp] theorem State.record_lipend (e : ErrorEvent) : (s.record e).lipend = s.lipend := by cases e <;> rfl
@[simp] theorem State.record_lird (e : ErrorEvent) : (s.record e).lird = s.lird := by cases e <;> rfl
@[simp] theorem State.record_colmax (e : ErrorEvent) : (s.record e).colmax = s.colmax := by cases e <;> rfl
@[simp] theorem State.record_pass (e : ErrorEvent) : (s.record e).pass = s.pass := by cases e <;> rfl
@[simp] theorem State.record_mem (e : ErrorEvent) : (s.record e).mem = s.mem := by cases e <;> rfl
@[simp] theorem State.record_inputs (e : ErrorEvent) : (s.record e).inputs = s.inputs := by cases e <;> rfl
@[simp] theorem State.record_readData (e : ErrorEvent) : (s.record e).readData = s.readData := by cases e <;> rfl

@[simp] theorem State.record_reg (e : ErrorEvent) (q : Reg) : (s.record e).reg q = s.reg q := by cases e <;> rfl

/-- What a register holds after a register was written (R17: no register is hardwired and none has an alias). -/
@[simp] theorem State.setReg_reg (r q : Reg) (v : Word) :
    (s.setReg r v).reg q = if q = r then v else s.reg q := by
  by_cases h : q = r
  · subst h; simp [State.reg]
  · have h' : ¬ r.val = q.val := fun e => h (Fin.ext e.symm)
    simp [State.reg, h, h']

/-- Which registers count as written after a register was written. -/
@[simp] theorem State.setReg_wasWritten (r q : Reg) (v : Word) :
    (s.setReg r v).wasWritten q = (decide (q = r) || s.wasWritten q) := by
  by_cases h : q = r
  · subst h; simp [State.wasWritten]
  · have h' : ¬ r.val = q.val := fun e => h (Fin.ext e.symm)
    simp [State.wasWritten, h, h']

/-- LI's immediate is written to the register its command word named (R109). -/
@[simp] theorem State.acceptImmediate_reg (q : Reg) (v : Word) :
    (s.acceptImmediate v).reg q = if q = s.lird then v else s.reg q :=
  State.setReg_reg s s.lird q v

/-- BUSY is 1 exactly while there is a pass (R25). -/
theorem State.busy_iff : s.busy = true ↔ ∃ p, s.pass = some p := by
  simp [State.busy, Option.isSome_iff_exists]

/-- BUSY is 0 exactly while there is no pass. -/
theorem State.not_busy_iff : s.busy = false ↔ s.pass = none := by
  simp [State.busy]

/-- The machine's invariant as a conjunction. -/
theorem State.inv_iff : s.inv = true ↔
    s.mem.wf = true ∧ s.ctl.reservedZero = true ∧ columnsSound s.colmax = true ∧
      ∀ p, s.pass = some p → s.lipend = false ∧ passSound s.ctl s.colmax p = true := by
  unfold State.inv
  cases h : s.pass <;> simp [and_assoc]

/-- A sound pass as a conjunction. -/
theorem passSound_iff (ctl : ControlRegs) (cols : List Word) (p : Pass) : passSound ctl cols p = true ↔
    p.latch = ctl ∧ p.latch.drawable = true ∧ p.phase.inRange p.latch = true ∧ p.phase.raises cols = true := by
  simp [passSound, and_assoc]

end Sys2Proof.Machine
end

