-- ==== Sys2Proof/Laws/Rasterizer.lean ====
section
/-! SUPPORT. What the column array's operations and one turn of the sequencer do, said once. -/

namespace Sys2Proof.Machine

open Sys2Proof

/-- What an entry of the column array holds after one was set. -/
@[simp] theorem columnAt_setColumn (cols : List Word) (i j : Nat) (v : Word) :
    columnAt (setColumn cols i v) j = if j = i then v else columnAt cols j := by
  induction cols generalizing i j with
  | nil =>
    induction i generalizing j with
    | zero => cases j <;> simp [setColumn, columnAt]
    | succ i ih =>
      cases j with
      | zero => simp [setColumn, columnAt]
      | succ j => simpa [setColumn, columnAt] using ih j
  | cons x cols ih =>
    cases i with
    | zero => cases j <;> simp [setColumn, columnAt]
    | succ i =>
      cases j with
      | zero => simp [setColumn, columnAt]
      | succ j => simpa [setColumn, columnAt] using ih i j

/-- What an entry of the column array holds after the first `n` were cleared (R135). -/
@[simp] theorem columnAt_clearColumns (cols : List Word) (n j : Nat) :
    columnAt (clearColumns n cols) j = if j < n then 0#32 else columnAt cols j := by
  induction n generalizing cols j with
  | zero => simp [clearColumns]
  | succ n ih =>
    cases cols with
    | nil =>
      cases j with
      | zero => simp [clearColumns, columnAt]
      | succ j => simpa [clearColumns, columnAt] using ih [] j
    | cons x cols =>
      cases j with
      | zero => simp [clearColumns, columnAt]
      | succ j => simpa [clearColumns, columnAt] using ih cols j

theorem length_setColumn (cols : List Word) (i : Nat) (v : Word) :
    (setColumn cols i v).length = max cols.length (i + 1) := by
  induction cols generalizing i with
  | nil =>
    induction i with
    | zero => simp [setColumn]
    | succ i ih => simp only [setColumn, List.length_cons, ih, List.length_nil]; omega
  | cons x cols ih =>
    cases i with
    | zero => simp only [setColumn, List.length_cons]; omega
    | succ i => simp only [setColumn, List.length_cons, ih]; omega

theorem length_clearColumns (cols : List Word) (n : Nat) :
    (clearColumns n cols).length = max cols.length n := by
  induction n generalizing cols with
  | zero => simp [clearColumns]
  | succ n ih =>
    cases cols with
    | nil => simp only [clearColumns, List.length_cons, ih, List.length_nil]; omega
    | cons x cols => simp only [clearColumns, List.length_cons, ih]; omega

theorem mem_setColumn (cols : List Word) (i : Nat) (v w : Word) (h : w ∈ setColumn cols i v) :
    w = v ∨ w = Config.resetColmax ∨ w ∈ cols := by
  induction cols generalizing i with
  | nil =>
    induction i with
    | zero => exact .inl (by simpa [setColumn] using h)
    | succ i ih =>
      rcases List.mem_cons.1 h with h | h
      · exact .inr (.inl h)
      · exact ih h
  | cons x cols ih =>
    cases i with
    | zero =>
      rcases List.mem_cons.1 h with h | h
      · exact .inl h
      · exact .inr (.inr (List.mem_cons_of_mem _ h))
    | succ i =>
      rcases List.mem_cons.1 h with h | h
      · exact .inr (.inr (h ▸ List.mem_cons_self))
      · exact (ih i h).imp_right fun h => h.imp_right (List.mem_cons_of_mem _)

theorem mem_clearColumns (cols : List Word) (n : Nat) (w : Word) (h : w ∈ clearColumns n cols) :
    w = 0#32 ∨ w ∈ cols := by
  induction n generalizing cols with
  | zero => exact .inr h
  | succ n ih =>
    cases cols with
    | nil =>
      rcases List.mem_cons.1 h with h | h
      · exact .inl h
      · exact ih [] h
    | cons x cols =>
      rcases List.mem_cons.1 h with h | h
      · exact .inl h
      · exact (ih cols h).imp_right (List.mem_cons_of_mem _)

/-- A sound column array as a conjunction. -/
theorem columnsSound_iff (cols : List Word) : columnsSound cols = true ↔
    cols.length ≤ Config.maxWidth ∧ ∀ v ∈ cols, 0 ≤ v.toInt := by
  simp [columnsSound]

/-- Setting an entry within the capacity to a value that is not negative keeps a column array sound. -/
theorem columnsSound_setColumn (cols : List Word) (i : Nat) (v : Word) (h : columnsSound cols = true)
    (hi : i < Config.maxWidth) (hv : 0 ≤ v.toInt) : columnsSound (setColumn cols i v) = true := by
  rw [columnsSound_iff] at h ⊢
  refine ⟨by rw [length_setColumn]; omega, fun w hw => ?_⟩
  rcases mem_setColumn cols i v w hw with h' | h' | h'
  · rw [h']; exact hv
  · rw [h']; decide
  · exact h.2 w h'

/-- Clearing entries within the capacity keeps a column array sound. -/
theorem columnsSound_clearColumns (cols : List Word) (n : Nat) (h : columnsSound cols = true)
    (hn : n ≤ Config.maxWidth) : columnsSound (clearColumns n cols) = true := by
  rw [columnsSound_iff] at h ⊢
  refine ⟨by rw [length_clearColumns]; omega, fun w hw => ?_⟩
  rcases mem_clearColumns cols n w hw with h' | h'
  · rw [h']; decide
  · exact h.2 w h'

/-- R139: the projected height is clamped to a minimum of 0. -/
theorem projectedHeight_nonneg (c : ControlRegs) (h : Word) (z : Nat) : 0 ≤ (projectedHeight c h z).toInt := by
  unfold projectedHeight
  simp only
  split
  · decide
  · next h' => simpa [BitVec.slt] using h'

/-- One turn of the sequencer in a pass changes MEM, the column array and the pass, and nothing else (R131, R144). -/
theorem State.advance_frame (s : State) (p : Pass) :
    (s.advance p).regs = s.regs ∧ (s.advance p).written = s.written ∧ (s.advance p).ctl = s.ctl ∧
    (s.advance p).ill = s.ill ∧ (s.advance p).werr = s.werr ∧ (s.advance p).cfgerr = s.cfgerr ∧
    (s.advance p).lipend = s.lipend ∧ (s.advance p).lird = s.lird ∧ (s.advance p).inputs = s.inputs ∧
    (s.advance p).readData = s.readData := by
  unfold State.advance State.startDepth State.sampleColumn State.drawLineByte
  simp only
  repeat' split
  all_goals exact ⟨rfl, rfl, rfl, rfl, rfl, rfl, rfl, rfl, rfl, rfl⟩

/-- What one turn of the sequencer in pass `p` does to MEM, the column array and the pass: one case for each way a
phase can end (R134 to R144). -/
theorem State.advance_cases (s : State) (p : Pass) :
    (∃ y x ch, p.phase = .sky y x ch ∧ s.advance p =
      { s with mem := putChannel p.latch s.mem x y p.latch.skyColor ch }.goOn p (afterSky p.latch y x ch)) ∨
    (p.phase = .clear ∧ s.advance p =
      { s with colmax := clearColumns p.latch.width s.colmax }.goOn p (.depth 1)) ∨
    (∃ z, p.phase = .depth z ∧ (z : Int) ≤ p.latch.distMax.toInt ∧
      s.advance p = s.goOn p (.column z 0 (scanLine p.latch z))) ∨
    (∃ z, p.phase = .depth z ∧ ¬ (z : Int) ≤ p.latch.distMax.toInt ∧ s.advance p = { s with pass := none }) ∨
    (∃ z i scan rh, p.phase = .column z i scan ∧ 0 ≤ rh.toInt ∧
      rh = projectedHeight p.latch (passHeight p.latch s.mem (columnX scan i) (columnY scan i)) z ∧
      ((¬ (s.columnMax i).toInt < rh.toInt ∧ s.advance p = s.goOn p (afterColumn p.latch z i scan)) ∨
        ((s.columnMax i).toInt < rh.toInt ∧ ¬ (s.columnMax i).toInt.toNat < lineTop p.latch rh ∧
          s.advance p = (s.setColumnMax i rh).goOn p (afterColumn p.latch z i scan)) ∨
        ((s.columnMax i).toInt < rh.toInt ∧ (s.columnMax i).toInt.toNat < lineTop p.latch rh ∧
          s.advance p = s.goOn p (.line z i scan (s.columnMax i).toInt.toNat (lineTop p.latch rh) rh
            (lineColor p.latch (passColor p.latch s.mem (columnX scan i) (columnY scan i)) z) .red)))) ∨
    (∃ z i scan hh top rh color ch s', p.phase = .line z i scan hh top rh color ch ∧
      s' = { s with mem := putChannel p.latch s.mem i (p.latch.height - 1 - hh) color ch } ∧
      ((∃ ch', ch.next = some ch' ∧ s.advance p = s'.goOn p (.line z i scan hh top rh color ch')) ∨
        (ch.next = none ∧ hh + 1 < top ∧ s.advance p = s'.goOn p (.line z i scan (hh + 1) top rh color .red)) ∨
        (ch.next = none ∧ ¬ hh + 1 < top ∧
          s.advance p = (s'.setColumnMax i rh).goOn p (afterColumn p.latch z i scan)))) := by
  obtain ⟨latch, phase⟩ := p
  cases phase with
  | sky y x ch => exact .inl ⟨y, x, ch, rfl, rfl⟩
  | clear => exact .inr (.inl ⟨rfl, rfl⟩)
  | depth z =>
    by_cases h : (z : Int) ≤ latch.distMax.toInt
    · exact .inr (.inr (.inl ⟨z, rfl, h, by simp [State.advance, State.startDepth, h, State.goOn]⟩))
    · exact .inr (.inr (.inr (.inl ⟨z, rfl, h, by simp [State.advance, State.startDepth, h]⟩)))
  | column z i scan =>
    refine .inr (.inr (.inr (.inr (.inl ⟨z, i, scan, _, rfl, projectedHeight_nonneg _ _ _, rfl, ?_⟩))))
    simp only [State.advance, State.sampleColumn, BitVec.slt, decide_eq_true_eq]
    split
    · next h =>
      split
      · next h' => exact .inr (.inr ⟨h, h', rfl⟩)
      · next h' => exact .inr (.inl ⟨h, h', rfl⟩)
    · next h => exact .inl ⟨h, rfl⟩
  | line z i scan hh top rh color ch =>
    refine .inr (.inr (.inr (.inr (.inr ⟨z, i, scan, hh, top, rh, color, ch, _, rfl, rfl, ?_⟩))))
    cases hn : ch.next with
    | some ch' => exact .inl ⟨ch', rfl, by simp [State.advance, State.drawLineByte, hn]⟩
    | none =>
      by_cases h : hh + 1 < top
      · exact .inr (.inl ⟨rfl, h, by simp [State.advance, State.drawLineByte, hn, h]⟩)
      · exact .inr (.inr ⟨rfl, h, by simp [State.advance, State.drawLineByte, hn, h]⟩)

/-- What DRAW does (R132): rejected as too wide, a no-op on a zero size, or a pass started on the latched registers. -/
theorem State.startPass_cases (s : State) :
    (Config.maxWidth < s.ctl.width ∧ s.startPass = s.record .configuration) ∨
    (¬ Config.maxWidth < s.ctl.width ∧ (s.ctl.width = 0 ∨ s.ctl.height = 0) ∧ s.startPass = s) ∨
    (s.ctl.drawable = true ∧ s.startPass = { s with pass := some { latch := s.ctl, phase := .sky 0 0 .red } }) := by
  unfold State.startPass
  split
  · next h => exact .inl ⟨h, rfl⟩
  · next h =>
    split
    · next h' => exact .inr (.inl ⟨h, h', rfl⟩)
    · next h' =>
      refine .inr (.inr ⟨?_, rfl⟩)
      simp only [ControlRegs.drawable, Bool.and_eq_true, decide_eq_true_eq]
      omega

end Sys2Proof.Machine
end

