-- ==== Sys2Proof/Laws/Step.lean ====
section
/-! SUPPORT. What executing a command, a host access and a step can do, said once. -/

namespace Sys2Proof.Machine

open Sys2Proof

/-- What executing a command can do: write its destination register, load an immediate, or start a pass. -/
theorem exec_cases (i : Instr) (s t : State) (h : exec i s = .next t) :
    (∃ rd v, destination i = some rd ∧ t = s.setReg rd v) ∨
    (∃ rd imm, i = .li rd imm ∧ t = (s.acceptLoad rd).acceptImmediate imm) ∨
    (i = .draw ∧ t = s.startPass) := by
  cases i with
  | li rd imm => exact .inr (.inl ⟨rd, imm, rfl, (Host.Outcome.next.inj h).symm⟩)
  | draw => exact .inr (.inr ⟨rfl, (Host.Outcome.next.inj h).symm⟩)
  | _ => exact .inl ⟨_, _, rfl, (Host.Outcome.next.inj h).symm⟩

/-- What a host write to CMD can do (R78). -/
theorem writeCommand_cases (w : Word) (s t : State) (h : writeCommand w s = .next t) :
    (s.busy = true ∧ t = s.record .writeWhileBusy) ∨
    (s.busy = false ∧ s.lipend = true ∧ t = (s.acceptLoad s.lird).acceptImmediate w) ∨
    (s.busy = false ∧ s.lipend = false ∧ (∃ e, decodeWord w = .error e) ∧ t = s.record .illegalCommand) ∨
    (s.busy = false ∧ s.lipend = false ∧ ∃ rd, decodeWord w = .ok (.needsImmediate rd) ∧ t = s.acceptLoad rd) ∨
    (s.busy = false ∧ s.lipend = false ∧ ∃ i, decodeWord w = .ok (.command i) ∧ exec i s = .next t) := by
  unfold writeCommand at h
  split at h
  · next hb => exact .inl ⟨hb, (Host.Outcome.next.inj h).symm⟩
  · next hb =>
    have hb' : s.busy = false := by simpa using hb
    split at h
    · next hl => exact .inr (.inl ⟨hb', hl, (Host.Outcome.next.inj h).symm⟩)
    · next hl =>
      have hl' : s.lipend = false := by simpa using hl
      unfold runCommandWord at h
      split at h
      · next e he => exact .inr (.inr (.inl ⟨hb', hl', ⟨e, he⟩, (Host.Outcome.next.inj h).symm⟩))
      · next i hi => exact .inr (.inr (.inr (.inr ⟨hb', hl', i, hi, h⟩)))
      · next rd hr => exact .inr (.inr (.inr (.inl ⟨hb', hl', rd, hr, (Host.Outcome.next.inj h).symm⟩)))

/-- What a host write to a register can do (R35, R37). -/
theorem writeRegister_cases (r : MmioReg) (v : Word) (s : State) :
    (s.busy = true ∧ writeRegister r v s = s.record .writeWhileBusy) ∨
    (s.busy = false ∧ ∃ i, r = .gpr i ∧ writeRegister r v s = s.setReg i v) ∨
    (s.busy = false ∧ (∀ i, r ≠ .gpr i) ∧ writeRegister r v s = { s with ctl := s.ctl.write r v }) := by
  unfold writeRegister
  split
  · next h => exact .inl ⟨h, rfl⟩
  · next h =>
    have h' : s.busy = false := by simpa using h
    cases r with
    | gpr i => exact .inr (.inl ⟨h', i, rfl, rfl⟩)
    | _ => exact .inr (.inr ⟨h', by simp, rfl⟩)

/-- What a host write to the window can do (R23, R37, R39). -/
theorem mmioWrite_cases (size : AccessSize) (offset : BitVec 8) (v : Word) (s t : State)
    (h : mmioWrite size offset v s = .next t) : properAccess size offset = true ∧
    (((mmioReg offset = .id ∨ mmioReg offset = .reserved) ∧ t = s) ∨
      (mmioReg offset = .status ∧ t = s.clearEvents v) ∨
      (mmioReg offset = .cmd ∧ writeCommand v s = .next t) ∨
      (mmioReg offset ≠ .id ∧ mmioReg offset ≠ .reserved ∧ mmioReg offset ≠ .status ∧ mmioReg offset ≠ .cmd ∧
        t = writeRegister (mmioReg offset) v s)) := by
  unfold mmioWrite at h
  split at h
  · next hp =>
    refine ⟨hp, ?_⟩
    split at h
    · next hr => exact .inl ⟨.inl hr, (Host.Outcome.next.inj h).symm⟩
    · next hr => exact .inl ⟨.inr hr, (Host.Outcome.next.inj h).symm⟩
    · next hr => exact .inr (.inl ⟨hr, (Host.Outcome.next.inj h).symm⟩)
    · next hr => exact .inr (.inr (.inl ⟨hr, h⟩))
    · next h₁ h₂ h₃ h₄ =>
      exact .inr (.inr (.inr ⟨h₁, h₂, h₃, h₄, (Host.Outcome.next.inj h).symm⟩))
  · exact absurd h (by simp)

/-- What a host read of the window can do (R37, R39). -/
theorem mmioRead_cases (size : AccessSize) (offset : BitVec 8) (s t : State)
    (h : mmioRead size offset s = .next t) :
    properAccess size offset = true ∧ t = { s with readData := s.readMmio (mmioReg offset) } := by
  unfold mmioRead at h
  split at h
  · next hp => exact ⟨hp, (Host.Outcome.next.inj h).symm⟩
  · exact absurd h (by simp)

/-- What a write of MEM from outside can do (R62): it writes its byte, and during a pass the byte is one of neither the
frame buffer nor a map. -/
theorem hostMemWrite_cases (a : Word) (v : Byte) (s t : State) (h : hostMemWrite a v s = .next t) :
    t = { s with mem := s.mem.write a v } ∧
    ∀ p, s.pass = some p → inFrame p.latch a = false ∧ inHeightMap p.latch a = false ∧ inTexture p.latch a = false := by
  unfold hostMemWrite at h
  split at h
  · next hp => exact ⟨(Host.Outcome.next.inj h).symm, fun p hp' => by simp [hp] at hp'⟩
  · next p hp =>
    split at h
    · exact absurd h (by simp)
    · next h₁ =>
      split at h
      · exact absurd h (by simp)
      · next h₂ =>
        refine ⟨(Host.Outcome.next.inj h).symm, fun q hq => ?_⟩
        obtain rfl : p = q := Option.some.inj (hp.symm.trans hq)
        simp only [Bool.or_eq_true, not_or, Bool.not_eq_true] at h₁ h₂
        exact ⟨h₁, h₂.1, h₂.2⟩

/-- What a read of MEM from outside can do (R62): it answers the byte, and during a pass the byte is none of the frame
buffer. -/
theorem hostMemRead_cases (a : Word) (s t : State) (h : hostMemRead a s = .next t) :
    t = { s with readData := (s.mem.read a).zeroExtend 32 } ∧
    ∀ p, s.pass = some p → inFrame p.latch a = false := by
  unfold hostMemRead at h
  simp only at h
  split at h
  · next hp => exact ⟨(Host.Outcome.next.inj h).symm, fun p hp' => by simp [hp] at hp'⟩
  · next p hp =>
    split at h
    · exact absurd h (by simp)
    · next h₁ =>
      refine ⟨(Host.Outcome.next.inj h).symm, fun q hq => ?_⟩
      obtain rfl : p = q := Option.some.inj (hp.symm.trans hq)
      simpa using h₁

/-- What the sequencer's turn can do: nothing, or a turn of the pass in progress. -/
theorem State.sequencerTurn_cases (s : State) :
    (s.pass = none ∧ s.sequencerTurn = s) ∨ (∃ p, s.pass = some p ∧ s.sequencerTurn = s.advance p) := by
  unfold State.sequencerTurn
  cases h : s.pass with
  | none => exact .inl ⟨rfl, rfl⟩
  | some p => exact .inr ⟨p, rfl, rfl⟩

/-- What a step can do: the sequencer's turn where the outside does nothing, or the first action of the outside. -/
theorem step_cases (s t : State) (h : step s = .next t) :
    (s.inputs = [] ∧ t = s.sequencerTurn) ∨
    (∃ a rest, s.inputs = a :: rest ∧ perform a { s with inputs := rest } = .next t) := by
  unfold step at h
  split at h
  · next hi => exact .inl ⟨hi, (Host.Outcome.next.inj h).symm⟩
  · next a rest hi => exact .inr ⟨a, rest, hi, h⟩

end Sys2Proof.Machine
end

