-- ==== Sys2Proof/Tests/Slice0.lean ====
section
/-! SUPPORT. Tests and witnesses. Every expected word and value is from 95_test_vectors.md or from the examples of the rule
named, or, where the comment says so, worked out by hand from the encoding of R70 and R75. The witnesses show that the
hypotheses of each statement of Certificates/Slice0/Obligations.lean can be met. -/

namespace Sys2Proof.Tests

open Sys2Proof Sys2Proof.Machine Sys2Proof.Claim

/-! ## Well-formedness -/

/-- R72: a shift by 32 cannot be encoded. -/
theorem test_fshl_count_32_refused : Instr.wellFormed (.fshl 0 0 32) = false := by decide

theorem test_fshr_count_40_refused : Instr.wellFormed (.fshr 0 0 40) = false := by decide

theorem test_fshl_count_31_accepted : Instr.wellFormed (.fshl 0 0 31) = true := by decide

/-! ## Decoding. The words marked `hand` are op·2^26 + rd·2^22 + ra·2^18 + rb·2^14 + sh, written out from R70 and R75. -/

theorem test_decode_fadd : decodeTableWord 32 0x04C48000 = some (.fadd 3 1 2) := by decide

/-- hand: 000010 1111 0001 1110 00000000000000. -/
theorem test_decode_fsub : decodeTableWord 32 0x0BC78000 = some (.fsub 15 1 14) := by decide

/-- hand: 000011 0101 1010 0011 00000000000000. -/
theorem test_decode_faddi : decodeTableWord 32 0x0D68C000 = some (.faddi 5 10 3) := by decide

/-- hand: 000100 1000 0001 1111 00000000000000. -/
theorem test_decode_fsubi : decodeTableWord 32 0x1207C000 = some (.fsubi 8 1 15) := by decide

theorem test_decode_fmul : decodeTableWord 32 0x15048000 = some (.fmul 4 1 2) := by decide

theorem test_decode_fmuli : decodeTableWord 32 0x19C54000 = some (.fmuli 7 1 5) := by decide

theorem test_decode_fdivi : decodeTableWord 32 0x1D8D4000 = some (.fdivi 6 3 5) := by decide

theorem test_decode_fshl : decodeTableWord 32 0x20480005 = some (.fshl 1 2 5) := by decide

theorem test_decode_fshr : decodeTableWord 32 0x270C0005 = some (.fshr 12 3 5) := by decide

/-- hand: 001010 0010 0100 1001 00000000000000. -/
theorem test_decode_fand : decodeTableWord 32 0x28924000 = some (.fand 2 4 9) := by decide

theorem test_decode_ffloor : decodeTableWord 32 0x2E580000 = some (.ffloor 9 6) := by decide

theorem test_decode_ffract : decodeTableWord 32 0x32980000 = some (.ffract 10 6) := by decide

theorem test_decode_fromi : decodeTableWord 32 0x421C0000 = some (.fromi 8 7) := by decide

/-- hand: 010001 0001 1110 000000000000000000. -/
theorem test_decode_fromu : decodeTableWord 32 0x44780000 = some (.fromu 1 14) := by decide

/-- hand: 010010 1110 0001 000000000000000000. -/
theorem test_decode_fromb : decodeTableWord 32 0x4B840000 = some (.fromb 14 1) := by decide

/-- hand: 010011 0110 1001 000000000000000000. -/
theorem test_decode_fromf : decodeTableWord 32 0x4DA40000 = some (.fromf 6 9) := by decide

theorem test_decode_toi : decodeTableWord 32 0x52180000 = some (.toi 8 6) := by decide

/-- hand: 010101 0011 1100 000000000000000000. -/
theorem test_decode_tou : decodeTableWord 32 0x54F00000 = some (.tou 3 12) := by decide

theorem test_decode_tob : decodeTableWord 32 0x5B040000 = some (.tob 12 1) := by decide

theorem test_decode_tof : decodeTableWord 32 0x5F500000 = some (.tof 13 4) := by decide

theorem test_decode_tgeth : decodeTableWord 32 0x814D0000 = some (.tgeth 5 3 4) := by decide

theorem test_decode_tgethi : decodeTableWord 32 0x858D0000 = some (.tgethi 6 3 4) := by decide

theorem test_decode_tgetc : decodeTableWord 32 0x8AA20000 = some (.tgetc 10 8 8) := by decide

theorem test_decode_tgetci : decodeTableWord 32 0x8ECD0000 = some (.tgetci 11 3 4) := by decide

theorem test_decode_li : decodeTableWord 64 0xE0000000C2400000 = some (.li 9 0xE0000000#32) := by decide

theorem test_decode_draw : decodeTableWord 32 0xE0000000 = some .draw := by decide

/-- L2.7: unassigned opcodes. -/
theorem test_decode_unassigned :
    decodeTableWord 32 0x00000000 = none ∧ decodeTableWord 32 0x34000000 = none ∧
    decodeTableWord 32 0xFC000000 = none := by decide

/-- L2.7: nonzero bits in fields that must be zero. -/
theorem test_decode_reserved_bits :
    decodeTableWord 32 0x04C48001 = none ∧ decodeTableWord 32 0x20480025 = none ∧
    decodeTableWord 32 0x2C5C4000 = none ∧ decodeTableWord 32 0xE0000001 = none ∧
    decodeTableWord 64 0xC2400001 = none := by decide

/-! ## Values of commands, one step each -/

/-- What `i` leaves in R3 from reset with R1 = `a` and R2 = `b`. -/
def r3 (i : Instr) (a b : Word) : Option Word :=
  match exec i ((State.reset.setReg 1 a).setReg 2 b) with
  | .next t => some (t.reg 3)
  | .fault _ => none
  | .refused _ => none

theorem test_fadd_wraps : r3 (.fadd 3 1 2) 0x7FFFFFFF#32 0x400#32 = some 0x800003FF#32 := by decide

theorem test_fsub_wraps : r3 (.fsub 3 1 2) 0x80000000#32 1#32 = some 0x7FFFFFFF#32 := by decide

theorem test_faddi_scales : r3 (.faddi 3 1 2) 0x600#32 3#32 = some 0x1200#32 := by decide

theorem test_fsubi_scales : r3 (.fsubi 3 1 2) 0x600#32 3#32 = some 0xFFFFFA00#32 := by decide

theorem test_fmul_floors : r3 (.fmul 3 1 2) 0xFFFFFFFF#32 1#32 = some 0xFFFFFFFF#32 := by decide

theorem test_fmul_wraps_to_32 : r3 (.fmul 3 1 2) 0x200000#32 0x400#32 = some 0xFFE00000#32 := by decide

theorem test_fmuli_signed : r3 (.fmuli 3 1 2) 0xFFFFFA00#32 0xFFFFFFFE#32 = some 0xC00#32 := by decide

theorem test_fdivi_toward_zero : r3 (.fdivi 3 1 2) 0xFFFFFFFD#32 2#32 = some 0xFFFFFFFF#32 := by decide

theorem test_fdivi_by_zero : r3 (.fdivi 3 1 2) 0x1234#32 0#32 = some 0#32 := by decide

theorem test_fshl_largest : r3 (.fshl 3 1 31) 0xFFFFFFFF#32 0#32 = some 0x80000000#32 := by decide

theorem test_fshr_floors : r3 (.fshr 3 1 1) 0xFFFFFFFD#32 0#32 = some 0xFFFFFFFE#32 := by decide

theorem test_fand_raw : r3 (.fand 3 1 2) 0xFFFFFB00#32 0x3FFF#32 = some 0x3B00#32 := by decide

theorem test_ffloor_negative : r3 (.ffloor 3 1) 0xFFFFFB00#32 0#32 = some 0xFFFFF800#32 := by decide

theorem test_ffract_negative : r3 (.ffract 3 1) 0xFFFFFB00#32 0#32 = some 0x300#32 := by decide

theorem test_fromi_wraps : r3 (.fromi 3 1) 0xFFDFFFFF#32 0#32 = some 0x7FFFFC00#32 := by decide

theorem test_fromu_top : r3 (.fromu 3 1) 0xFFFFFFFF#32 0#32 = some 0xFFFFFC00#32 := by decide

theorem test_fromb_ignores_bit_8 : r3 (.fromb 3 1) 0x1FF#32 0#32 = some 0x3FC00#32 := by decide

theorem test_fromf_truncates : r3 (.fromf 3 1) 0xC0533333#32 0#32 = some 0xFFFFF2CD#32 := by decide

theorem test_fromf_saturates : r3 (.fromf 3 1) 0x4A000000#32 0#32 = some 0x7FFFFFFF#32 := by decide

theorem test_toi_floors : r3 (.toi 3 1) 0xFFFFFA00#32 0#32 = some 0xFFFFFFFE#32 := by decide

theorem test_tou_not_clamped : r3 (.tou 3 1) 0xFFFFFC00#32 0#32 = some 0xFFFFFFFF#32 := by decide

theorem test_tob_modulo : r3 (.tob 3 1) 0x4B200#32 0#32 = some 0x2C#32 := by decide

theorem test_tof_ties_to_even : r3 (.tof 3 1) 0x01000003#32 0#32 = some 0x46800002#32 := by decide

theorem test_tof_rounds_up : r3 (.tof 3 1) 0x7FFFFFFF#32 0#32 = some 0x4A000000#32 := by decide

/-- LI over one step, R109's example value. -/
theorem test_li_value : r3 (.li 3 0x600#32) 0#32 0#32 = some 0x600#32 := by decide

/-- The maps of L2.5: S = 2, heights at 0x1000, texels at 0x2000. -/
def maps : State :=
  { State.reset with
    ctl := { ControlRegs.reset with ctrl := 0x2410#32, hmapBase := 0x1000#32, tmapBase := 0x2000#32 }
    mem := [(0x1000, 1#8), (0x1001, 2#8), (0x1002, 3#8), (0x1003, 4#8),
      (0x2000, 10#8), (0x2001, 20#8), (0x2002, 30#8), (0x2003, 40#8),
      (0x2004, 50#8), (0x2005, 60#8), (0x2006, 70#8), (0x2007, 80#8),
      (0x2008, 90#8), (0x2009, 100#8), (0x200A, 110#8), (0x200B, 120#8),
      (0x200C, 130#8), (0x200D, 140#8), (0x200E, 150#8), (0x200F, 160#8)] }

/-- What `i` leaves in R3 from `maps` with R1 = `a` and R2 = `b`. -/
def sampled (i : Instr) (a b : Word) : Option Word :=
  match exec i ((maps.setReg 1 a).setReg 2 b) with
  | .next t => some (t.reg 3)
  | .fault _ => none
  | .refused _ => none

theorem test_tgeth_wraps : sampled (.tgeth 3 1 2) 0xFFFFFF00#32 0#32 = some 0x800#32 := by decide

theorem test_tgethi_blends : sampled (.tgethi 3 1 2) 0x155#32 0x2AA#32 = some 0xAA4#32 := by decide

theorem test_tgetc_order : sampled (.tgetc 3 1 2) 0x400#32 0#32 = some 0x50463C32#32 := by decide

theorem test_tgetci_alpha_corner : sampled (.tgetci 3 1 2) 0xFFFFFE00#32 0xFFFFFE00#32 = some 0xA05A5046#32 := by
  decide

/-- An idle block set up for a 1×1 frame of one depth over 1×1 maps. -/
def frame : ControlRegs :=
  { ControlRegs.reset with
    ctrl := 0x2400#32, fbBase := 0x3000#32, fbStride := 4#32, fbWidth := 1#32, fbHeight := 1#32,
    hmapBase := 0x1000#32, tmapBase := 0x2000#32, distMax := 1#32, scaleHeight := 1#32 }

def idle : State := { State.reset with ctl := frame }

/-- The same block in a pass at `ph`. -/
def passAt (ph : Phase) : State := { idle with pass := some { latch := frame, phase := ph } }

def busyState : State := passAt (.sky 0 0 .red)

/-- `t` of a next state satisfies `p`. -/
def next (o : Result State) (p : State → Bool) : Bool :=
  match o with
  | .next t => p t
  | .fault _ => false
  | .refused _ => false

/-- R132: 4096 columns start a pass. -/
theorem test_draw_starts : next (exec .draw { idle with ctl := { frame with fbWidth := 4096#32 } })
    (fun t => t.busy && !t.cfgerr) = true := by decide

/-- R132: 4097 columns do not. -/
theorem test_draw_too_wide : next (exec .draw { idle with ctl := { frame with fbWidth := 4097#32 } })
    (fun t => !t.busy && t.cfgerr) = true := by decide

/-- R132: with W = 0 or H = 0 nothing changes. -/
theorem witness_DrawStartsAPass_zero_size :
    next (exec .draw { idle with ctl := { frame with fbWidth := 0#32 } })
      (fun t => !t.busy && t.status == idle.status) = true ∧
    next (exec .draw { idle with ctl := { frame with fbHeight := 0#32 } })
      (fun t => !t.busy && t.status == idle.status) = true := by decide

/-- L2.6, fog vector F6: the weight that wrapped negative. -/
theorem test_fog_wraps : lineColor { frame with ctrl := 0x2401#32, fogStart := 0xFFE00002#32, distMax := 10#32 }
    0x804080#32 3 = 0x0608AF#32 := by decide

/-- L2.6, the scan line whose right end wrapped. -/
theorem test_scan_line_wraps : scanLine { frame with camX := 0x7FFFFC00#32, fbWidth := 4#32 } 1 =
    { lx := 0x7FFFF800#32, ly := 0xFFFFFC00#32, dx := 0x200#32, dy := 0#32 } := by decide

/-- L2.6, a projection clamped to 0. -/
theorem test_projection_clamps : projectedHeight { frame with camZ := 0x800#32, scaleHeight := 100#32, horizon := 10#32 }
    0x400#32 3 = 0#32 := by decide

/-- L2.7: a write to STATUS clears the bits it has 1 in. -/
theorem test_status_write : next (mmioWrite .word 0x08#8 4#32 { idle with ill := true, werr := true, cfgerr := true })
    (fun t => t.status == 0x0A#32) = true := by decide

/-- L2.7: reserved bits of CTRL are dropped. -/
theorem test_ctrl_write : next (mmioWrite .word 0x04#8 0x1234F#32 idle)
    (fun t => t.readMmio .ctrl == 0x2343#32) = true := by decide

/-! ## Witnesses -/

theorem witness_MultiplyRenormalises :
    -2 ^ 31 ≤ (0x80000000#32).toInt * (1#32).toInt ∧ (0x80000000#32).toInt * (1#32).toInt < 2 ^ 31 ∧
    -2 ^ 31 ≤ (0x7FFFFFFF#32).toInt * (1#32).toInt ∧ (0x7FFFFFFF#32).toInt * (1#32).toInt < 2 ^ 31 := by decide

theorem witness_DivideTruncatesTowardZero : (1#32 : Word) ≠ 0#32 := by decide

theorem witness_FloatRoundTripLosesLittle_low :
    exponent 0xCA000000#32 ≠ 255 ∧ -2097152 ≤ floatValue 0xCA000000#32 ∧ floatValue 0xCA000000#32 < 2097152 := by
  refine ⟨by decide, ?_, ?_⟩ <;> norm_num [floatValue, exponent, fraction]

theorem witness_FloatRoundTripLosesLittle_high :
    exponent 0x49FFFFFF#32 ≠ 255 ∧ -2097152 ≤ floatValue 0x49FFFFFF#32 ∧ floatValue 0x49FFFFFF#32 < 2097152 := by
  refine ⟨by decide, ?_, ?_⟩ <;> norm_num [floatValue, exponent, fraction]

theorem witness_BilinearIsNearestOnGrid : fxFract 0x400#32 = 0#32 ∧ fxFract 0xFFFFF800#32 = 0#32 := by decide

theorem witness_ProjectedHeightIsFloorClamped :
    (1 ≤ 1 ∧ 1 < 2 ^ 31) ∧ 1 ≤ 2 ^ 31 - 1 ∧ 2 ^ 31 - 1 < 2 ^ 31 := by decide

/-- The weight clause at its bounds: z = DIST_MAX with a difference of 2^21 − 1. -/
theorem witness_FogWeightRange_weight :
    let c := { frame with fogStart := 1#32, distMax := 0x200000#32 }
    c.fogStart.toInt < ((0x200000 : Nat) : Int) ∧ ((0x200000 : Nat) : Int) ≤ c.distMax.toInt ∧
    ((0x200000 : Nat) : Int) - c.fogStart.toInt ≤ 2 ^ 21 - 1 ∧
    c.distMax.toInt - c.fogStart.toInt ≤ 2 ^ 31 - 1 ∧ ((0x200000 : Nat) : Int) = c.distMax.toInt := by decide

theorem witness_FogWeightRange_off :
    (((1 : Nat) : Int) ≤ frame.distMax.toInt ∧ frame.ctrl.getLsbD 0 = false) ∧
    ((1 : Nat) : Int) ≤ frame.distMax.toInt ∧ frame.distMax.toInt ≤ ({ frame with fogStart := 1#32 }).fogStart.toInt := by
  decide

theorem witness_FogWeightRange_applies : fogApplies { frame with ctrl := 0x2401#32 } 1 = true := by decide

/-- The last depth without fog, z = FOG_START (program P3), in a frame with fog beyond it. -/
theorem witness_FogWeightRange_near :
    fogApplies { frame with ctrl := 0x2401#32, fogStart := 1#32, distMax := 3#32 } 1 = false ∧
    fogApplies { frame with ctrl := 0x2401#32, fogStart := 1#32, distMax := 3#32 } 2 = true := by decide

/-- The least and the greatest clamped height. -/
theorem witness_OcclusionNeverRecedes_top : 0 ≤ (0#32 : Word).toInt ∧ 0 ≤ (0x7FFFFFFF#32 : Word).toInt := by decide

theorem witness_FilterSelectsTheSamples :
    ({ frame with ctrl := 0x2402#32 }).ctrl.getLsbD 1 = true ∧ frame.ctrl.getLsbD 1 = false := by decide

theorem witness_EveryCommandCompletes :
    Instr.fadd 3 1 2 ≠ .draw ∧ (∀ rd imm, Instr.fadd 3 1 2 ≠ .li rd imm) ∧ destination (.fadd 3 1 2) ≠ some 15 := by
  simp [destination]

theorem witness_OcclusionNeverRecedes_clear :
    (passAt .clear).pass = some { latch := frame, phase := .clear } := rfl

theorem witness_PixelIsThreeByteWrites_memory : Memory.wf [(0, 1#8), (0xFFFFFFFF, 2#8)] = true := by decide

theorem witness_PixelIsThreeByteWrites_sky :
    (passAt (.sky 0 0 .red)).pass = some { latch := frame, phase := .sky 0 0 .red } ∧
    frame.skyColor = frame.skyColor := ⟨rfl, rfl⟩

theorem witness_PixelIsThreeByteWrites_line :
    ∃ z scan hh top rh, (passAt (.line 1 0 (scanLine frame 1) 0 1 1#32 7#32 .red)).pass =
      some { latch := frame, phase := .line z 0 scan hh top rh 7#32 .red } ∧ 0 = frame.height - 1 - hh :=
  ⟨1, scanLine frame 1, 0, 1, 1#32, rfl, by decide⟩

/-- A column that has reached H, about to be sampled. -/
def fullColumn : State := { passAt (.column 1 0 (scanLine frame 1)) with colmax := [1#32] }

theorem witness_OcclusionNeverRecedes :
    fullColumn.inv = true ∧ fullColumn.pass = some { latch := frame, phase := .column 1 0 (scanLine frame 1) } ∧
    (frame.height : Int) ≤ (fullColumn.columnMax 0).toInt :=
  ⟨by decide, rfl, by decide⟩

theorem witness_PassDrawsTheFrame :
    busyState.inputs = [] ∧ busyState.inv = true ∧
    busyState.pass = some { latch := busyState.ctl, phase := .sky 0 0 .red } := ⟨rfl, by decide, rfl⟩

theorem witness_DecodeFollowsOpcodeTable_row :
    ∃ r ∈ opcodeTable, 0x5F500000#32 &&& r.mask = r.pattern :=
  ⟨rowRR 0x5C000000#32 .tof, by simp [opcodeTable], by decide⟩

theorem witness_DecodeFollowsOpcodeTable_none : ∀ r ∈ opcodeTable, 0x04C48001#32 &&& r.mask ≠ r.pattern := by
  simp [opcodeTable, rowRRR, rowRR, rowRRS]

/-- The first and the last opcode of each unassigned range of R79. -/
theorem witness_IllegalWordSetsIllOnly_unassigned :
    unassigned (0x00000000#32 : Word).toNat ∧ unassigned ((0x34000000#32 : Word).toNat / 2 ^ 26) ∧
    unassigned ((0x3C000000#32 : Word).toNat / 2 ^ 26) ∧ unassigned ((0x60000000#32 : Word).toNat / 2 ^ 26) ∧
    unassigned ((0x7C000000#32 : Word).toNat / 2 ^ 26) ∧ unassigned ((0x90000000#32 : Word).toNat / 2 ^ 26) ∧
    unassigned ((0xBC000000#32 : Word).toNat / 2 ^ 26) ∧ unassigned ((0xC4000000#32 : Word).toNat / 2 ^ 26) ∧
    unassigned ((0xDC000000#32 : Word).toNat / 2 ^ 26) ∧ unassigned ((0xE4000000#32 : Word).toNat / 2 ^ 26) ∧
    unassigned ((0xFC000000#32 : Word).toNat / 2 ^ 26) := by
  simp [unassigned]

theorem witness_IllegalWordSetsIllOnly_reserved :
    ∃ r ∈ opcodeTable, (0x04C48001#32 : Word).toNat / 2 ^ 26 = r.pattern.toNat / 2 ^ 26 ∧
      0x04C48001#32 &&& r.mask ≠ r.pattern :=
  ⟨rowRRR 0x04000000#32 .fadd, by simp [opcodeTable], by decide⟩

theorem witness_IllegalWordSetsIllOnly_write :
    decodeWord 0x04C48001#32 = .error .reservedBitSet ∧ idle.busy = false ∧ idle.lipend = false := by decide

theorem witness_DecodeOfEncode :
    Instr.wellFormed (.fshr 15 15 31) = true ∧ Instr.wellFormed (.li 15 0xFFFFFFFF#32) = true ∧
    Instr.wellFormed .draw = true := by decide

theorem witness_EncodeOfDecode :
    decode [0xC2400000#32, 0xE0000000#32, 5#32] = .ok (.li 9 0xE0000000#32, [5#32]) := by decide

theorem witness_CommandWriteProcessing :
    busyState.busy = true ∧ (idle.busy = false ∧ { idle with lipend := true }.lipend = true) ∧
    (idle.lipend = false ∧ (∀ r ∈ opcodeTable, (0x00000001#32 : Word) &&& r.mask ≠ r.pattern)) ∧
    (∃ r ∈ opcodeTable, 0x04C48000#32 &&& r.mask = r.pattern ∧ r.command 0x04C48000#32 = .command (.fadd 3 1 2)) ∧
    ∃ r ∈ opcodeTable, 0xC2400000#32 &&& r.mask = r.pattern ∧ r.command 0xC2400000#32 = .needsImmediate 9 := by
  refine ⟨by decide, by decide, ⟨by decide, ?_⟩, ⟨rowRRR 0x04000000#32 .fadd, by simp [opcodeTable], by decide⟩, ?_⟩
  · simp [opcodeTable, rowRRR, rowRR, rowRRS]
  · exact ⟨⟨0xC0000000#32, 0xFC3FFFFF#32, fun w => .needsImmediate (field w 22)⟩, by simp [opcodeTable], by decide⟩

theorem witness_LoadImmediateProtocol :
    (idle.busy = false ∧ idle.lipend = false) ∧ { idle with lipend := true }.busy = false ∧ busyState.busy = true ∧
    (0xC2400001#32 : Word).toNat / 2 ^ 26 = 0x30 ∧ (0xC2400001#32 : Word).toNat % 2 ^ 22 ≠ 0 := by decide

/-- All three event bits set. -/
def allEvents : State := { idle with ill := true, werr := true, cfgerr := true }

theorem witness_StatusBitsStick :
    (∃ t, step { allEvents with inputs := [.reset] } = .next t ∧ t.ill = false) ∧
    (∃ t, step { allEvents with inputs := [.mmioWrite .word 0x08#8 4#32] } = .next t ∧
      t.ill = true ∧ t.werr = false ∧ t.cfgerr = true) ∧
    ∃ t, step { busyState with ill := true } = .next t ∧ t.ill = true :=
  ⟨⟨_, rfl, by decide⟩, ⟨_, rfl, by decide⟩, ⟨_, rfl, by decide⟩⟩

theorem witness_WritesDuringAPassAreDropped :
    busyState.busy = true ∧
    (guarded 0x04#8 ∧ guarded 0x0C#8 ∧ guarded 0x10#8 ∧ guarded 0x4C#8 ∧ guarded 0x80#8 ∧ guarded 0xBC#8) ∧
    (inert 0x00#8 ∧ inert 0x50#8 ∧ inert 0x7C#8 ∧ inert 0xC0#8 ∧ inert 0xFC#8) ∧ MmioReg.ctrl ≠ MmioReg.status := by
  unfold guarded inert
  exact ⟨by decide, by decide, by decide, by decide⟩

/-- No offset is both guarded and inert, and the ones that are neither are STATUS and the unaligned ones. -/
theorem witness_guarded_inert_apart : ∀ o : BitVec 8,
    ¬ (guarded o ∧ inert o) ∧ (guarded o ∨ inert o ∨ o = 0x08#8 ∨ o.toNat % 4 ≠ 0) := by
  unfold guarded inert
  decide

theorem witness_RegisterWritesStoreDefinedBits :
    idle.busy = false ∧ guarded 0x34#8 ∧ (0x34#8 : BitVec 8) ≠ 0x0C#8 ∧ reads idle 0x34#8 0x00FA7850#32 :=
  ⟨by decide, by unfold guarded; decide, by decide, ⟨_, rfl, by decide⟩⟩

theorem witness_IdentityAndCommandPortReads : inert 0x00#8 ∧ inert 0x50#8 ∧ inert 0x7C#8 ∧ inert 0xC0#8 ∧ inert 0xFC#8 := by
  unfold inert
  exact ⟨by decide, by decide, by decide, by decide, by decide⟩

theorem witness_ImproperAccessFaults : AccessSize.half ≠ AccessSize.word ∧ (0x81#8 : BitVec 8).toNat % 4 ≠ 0 := by
  decide

theorem not_in_frame (a : Word) (h : a.toNat < 0x3000) : ¬ frameByte frame a := by
  rintro ⟨x, y, k, hx, hy, hk, rfl⟩
  have hw : frame.width = 1 := by decide
  have hh : frame.height = 1 := by decide
  have hx0 : x = 0 := by omega
  have hy0 : y = 0 := by omega
  subst hx0 hy0
  interval_cases k <;> simp_all [frame]

theorem witness_OutsideMustLeaveThePassAlone :
    busyState.pass = some { latch := frame, phase := .sky 0 0 .red } ∧
    (frameByte frame 0x3000#32 ∧ frameByte frame 0x3003#32) ∧
    (¬ frameByte frame 0x1000#32 ∧ mapByte frame 0x1000#32) ∧
    (¬ frameByte frame 0x2003#32 ∧ mapByte frame 0x2003#32) ∧ ¬ frameByte frame 0x0FFF#32 ∧ ¬ mapByte frame 0x0FFF#32 := by
  refine ⟨rfl, ⟨⟨0, 0, 0, by decide⟩, ⟨0, 0, 3, by decide⟩⟩, ⟨not_in_frame _ (by decide), 0, 0, by decide, by decide,
    .inl (by decide)⟩, ⟨not_in_frame _ (by decide), 0, 0, by decide, by decide, .inr ⟨3, by decide⟩⟩,
    not_in_frame _ (by decide), ?_⟩
  rintro ⟨i, j, hi, hj, h⟩
  have hs : side frame = 1 := by decide
  have hi0 : i = 0 := by omega
  have hj0 : j = 0 := by omega
  subst hi0 hj0
  obtain h | ⟨k, hk, h⟩ := h
  · revert h; decide
  · interval_cases k <;> revert h <;> decide

theorem witness_OutsideMustLeaveThePassAlone_idle : idle.pass = none := rfl

theorem witness_OnlyPassesWriteMemory :
    (∃ t, step { idle with inputs := [.memWrite 5#32 9#8] } = .next t ∧ t.mem.read 5#32 ≠ idle.mem.read 5#32) ∧
    { idle with inputs := [.memWrite 5#32 9#8] }.inv = true ∧ busyState.inv = true ∧
    ∃ t, step busyState = .next t ∧ t.mem.read 0x3000#32 ≠ busyState.mem.read 0x3000#32 :=
  ⟨⟨_, rfl, by decide⟩, by decide, by decide, ⟨_, rfl, by decide⟩⟩

theorem witness_ResetLeavesTheTable :
    (0x10#8 : BitVec 8).toNat % 4 = 0 ∧ 0x10 ≤ (0x10#8 : BitVec 8).toNat ∧ (0x7C#8 : BitVec 8).toNat % 4 = 0 ∧
    (0x7C#8 : BitVec 8).toNat ≤ 0x7C ∧ (0x7C#8 : BitVec 8) ≠ 0x1C#8 ∧ (0x7C#8 : BitVec 8) ≠ 0x34#8 := by decide

theorem witness_ResetMakesTheBlockIdle :
    decodeWord 0xE0000000#32 = .ok (.command .draw) ∧ decodeWord 0xC3C00000#32 = .ok (.needsImmediate 15) ∧
    decodeWord 0x00000600#32 = .error .unassignedOpcode := by decide

theorem witness_StepRunsTheDecodedCommand :
    { idle with inputs := [.mmioWrite .word 0x0C#8 0x04C48000#32] }.inputs = .mmioWrite .word 0x0C#8 0x04C48000#32 :: [] ∧
    idle.busy = false ∧ idle.lipend = false ∧ decode [0x04C48000#32] = .ok (.fadd 3 1 2, []) ∧
    { idle with lipend := true }.lipend = true ∧ decodeWord 0xC2400000#32 = .ok (.needsImmediate 9) := by decide

/-- A step with no action coming, and one with an action that is no CMD write. -/
theorem witness_StepRunsTheDecodedCommand_actions :
    idle.inputs = [] ∧ { idle with inputs := [.wait, .reset] }.inputs = .wait :: [.reset] := ⟨rfl, rfl⟩

/-- Each of the three events happens in one host write. -/
theorem witness_EventsArePrecise :
    (∃ t, mmioWrite .word 0x0C#8 0#32 idle = .next t ∧ idle.ill = false ∧ t.ill = true) ∧
    (∃ t, mmioWrite .word 0x10#8 0#32 busyState = .next t ∧ busyState.werr = false ∧ t.werr = true) ∧
    ∃ t, mmioWrite .word 0x0C#8 0xE0000000#32 { idle with ctl := { frame with fbWidth := 4097#32 } } = .next t ∧
      idle.cfgerr = false ∧ t.cfgerr = true :=
  ⟨⟨_, rfl, by decide⟩, ⟨_, rfl, by decide⟩, ⟨_, rfl, by decide⟩⟩

theorem witness_OtherCommandsIgnoreMemory :
    (∀ rd ra rb, Instr.fadd 3 1 2 ≠ .tgeth rd ra rb ∧ Instr.fadd 3 1 2 ≠ .tgethi rd ra rb ∧
      Instr.fadd 3 1 2 ≠ .tgetc rd ra rb ∧ Instr.fadd 3 1 2 ≠ .tgetci rd ra rb) ∧ Instr.fadd 3 1 2 ≠ .draw := by
  simp

theorem witness_IdleBlockKeepsItsState : idle.busy = false ∧ idle.inputs = [] := ⟨by decide, rfl⟩

/-- Each of the four faults is reached. -/
theorem witness_OnlyHostErrorsStopTheModel :
    step { idle with inputs := [.mmioRead .byte 0x00#8] } = .fault .badMmioAccess ∧
    step { busyState with inputs := [.memRead 0x3000#32] } = .fault .frameReadDuringPass ∧
    step { busyState with inputs := [.memWrite 0x3003#32 1#8] } = .fault .frameWriteDuringPass ∧
    step { busyState with inputs := [.memWrite 0x2003#32 1#8] } = .fault .mapWriteDuringPass := ⟨rfl, rfl, rfl, rfl⟩

theorem witness_StepKeepsTheInvariant :
    fullColumn.inv = true ∧ ∃ t, step fullColumn = .next t ∧ t.inv = true := ⟨by decide, ⟨_, rfl, by decide⟩⟩

end Sys2Proof.Tests
end

section
/-! SUPPORT. The start of a pass: the frame's size as numbers, what DRAW leaves unchanged, and which of the three outcomes
of R132 it has. -/

namespace Sys2Proof.Machine

open Sys2Proof

/-- `W` of R33 is bits 15:0 of FB_WIDTH, as a number. -/
theorem ControlRegs.width_eq_mod (c : ControlRegs) : c.width = c.fbWidth.toNat % 2 ^ 16 := by
  simp [ControlRegs.width]

/-- `H` of R33 is bits 15:0 of FB_HEIGHT, as a number. -/
theorem ControlRegs.height_eq_mod (c : ControlRegs) : c.height = c.fbHeight.toNat % 2 ^ 16 := by
  simp [ControlRegs.height]

theorem ControlRegs.drawable_iff (c : ControlRegs) :
    c.drawable = true ↔ 0 < c.width ∧ c.width ≤ Config.maxWidth ∧ 0 < c.height := by
  simp only [ControlRegs.drawable, Bool.and_eq_true, decide_eq_true_eq, and_assoc]

/-- The frame of R132 and R133: a DRAW touches no field but CFGERR and the pass in progress. -/
theorem State.startPass_frame (s : State) :
    ∃ e p, s.startPass = { s with cfgerr := e, pass := p } := by
  obtain ⟨-, h⟩ | ⟨-, -, h⟩ | ⟨-, h⟩ := s.startPass_cases
  · exact ⟨true, s.pass, h⟩
  · exact ⟨s.cfgerr, s.pass, h⟩
  · exact ⟨s.cfgerr, _, h⟩

/-- R132 in its order: what DRAW does to CFGERR and to the pass in progress. -/
theorem State.startPass_outcome (s : State) :
    if Config.maxWidth < s.ctl.width then s.startPass.cfgerr = true ∧ s.startPass.pass = s.pass
    else if s.ctl.width = 0 ∨ s.ctl.height = 0 then s.startPass.cfgerr = s.cfgerr ∧ s.startPass.pass = s.pass
    else s.startPass.cfgerr = s.cfgerr ∧ s.startPass.pass = some { latch := s.ctl, phase := .sky 0 0 .red } := by
  obtain ⟨hwide, h⟩ | ⟨hfits, hempty, h⟩ | ⟨hdraw, h⟩ := s.startPass_cases
  · rw [if_pos hwide, h]
    simp
  · rw [if_neg hfits, if_pos hempty, h]
    exact ⟨rfl, rfl⟩
  · obtain ⟨hw, hmax, hh⟩ := s.ctl.drawable_iff.1 hdraw
    rw [if_neg (by omega), if_neg (by omega), h]
    exact ⟨rfl, rfl⟩

/-- R75, R131: DRAW's word has opcode 0x38 and every other bit 0. -/
theorem decodeWord_draw : decodeWord 0xE0000000#32 = .ok (.command .draw) := rfl

theorem exec_draw (s : State) : exec .draw s = .next s.startPass := rfl

end Sys2Proof.Machine

namespace Sys2Proof.Proofs

open Sys2Proof Sys2Proof.Machine Sys2Proof.Claim

/-- Settles O28: the frame and the outcome of `State.startPass`, with the sizes read as numbers. -/
theorem drawStartsAPass : Obligations.DrawStartsAPass := by
  refine ⟨decodeWord_draw, fun s => ⟨s.startPass, exec_draw s, ?_⟩⟩
  have houtcome := s.startPass_outcome
  rw [s.ctl.width_eq_mod, s.ctl.height_eq_mod] at houtcome
  obtain ⟨e, p, hframe⟩ := s.startPass_frame
  rw [hframe] at houtcome ⊢
  have hregs : SameRegisters s { s with cfgerr := e, pass := p } := ⟨fun _ => rfl, fun _ => rfl⟩
  exact ⟨hregs, rfl, ⟨rfl, rfl⟩, fun _ => rfl, ⟨rfl, rfl⟩, rfl, rfl, rfl, houtcome⟩

end Sys2Proof.Proofs
end

section
/-! SUPPORT. The MMIO window at an aligned offset: the table of R23 as numbers, and what a read or a write of each class of
offsets answers. -/

namespace Sys2Proof.Machine

open Sys2Proof Sys2Proof.Claim

/-- The table of R23: `r` is the register that stands at offset `n`. -/
def MmioReg.standsAt (r : MmioReg) (n : Nat) : Prop :=
  match r with
  | .id => n = 0x00
  | .ctrl => n = 0x04
  | .status => n = 0x08
  | .cmd => n = 0x0C
  | .camX => n = 0x10
  | .camY => n = 0x14
  | .camZ => n = 0x18
  | .camCos => n = 0x1C
  | .camSin => n = 0x20
  | .horizon => n = 0x24
  | .fogStart => n = 0x28
  | .distMax => n = 0x2C
  | .scaleHeight => n = 0x30
  | .skyColor => n = 0x34
  | .fbBase => n = 0x38
  | .fbStride => n = 0x3C
  | .fbWidth => n = 0x40
  | .fbHeight => n = 0x44
  | .hmapBase => n = 0x48
  | .tmapBase => n = 0x4C
  | .gpr i => n = 0x80 + 4 * i.val
  | .reserved => (0x50 ≤ n ∧ n ≤ 0x7C) ∨ 0xC0 ≤ n

/-- The registers of the window whose writes go to the host-written registers of the state (R24, R28 to R34). -/
def MmioReg.isControl (r : MmioReg) : Bool :=
  match r with
  | .id | .status | .cmd | .gpr _ | .reserved => false
  | _ => true

/-- R39: the defined accesses are those of an aligned word. -/
theorem properAccess_iff (size : AccessSize) (o : BitVec 8) :
    properAccess size o = true ↔ size = .word ∧ o.toNat % 4 = 0 := by
  have haligned : o.extractLsb' 0 2 = 0#2 ↔ o.toNat % 4 = 0 := by
    rw [← BitVec.toNat_inj]
    simp
  simp only [properAccess, Bool.and_eq_true, decide_eq_true_eq, haligned]

/-- The model's offset decoder follows the table of R23. -/
theorem mmioReg_standsAt (o : BitVec 8) (ho : o.toNat % 4 = 0) : (mmioReg o).standsAt o.toNat := by
  have hlt := o.isLt
  have hindex : (o.extractLsb' 2 6).toNat = o.toNat / 4 := by
    simp [Nat.shiftRight_eq_div_pow]
    omega
  have hbank : o.extractLsb' 6 2 = 0b10#2 ↔ o.toNat / 64 = 2 := by
    rw [← BitVec.toNat_inj]
    simp [Nat.shiftRight_eq_div_pow]
    omega
  have hreg : (o.extractLsb' 2 4).toNat = o.toNat / 4 % 16 := by
    simp [Nat.shiftRight_eq_div_pow]
  simp only [mmioReg, hbank, hindex]
  split
  · show o.toNat = 0x80 + 4 * (o.extractLsb' 2 4).toNat
    omega
  · split <;> simp only [MmioReg.standsAt, imp_false] at * <;> omega

/-- No register but the reserved space stands at two offsets (R23). -/
theorem eq_of_mmioReg_eq {o o' : BitVec 8} (ho : o.toNat % 4 = 0) (ho' : o'.toNat % 4 = 0)
    (h : mmioReg o' = mmioReg o) (hr : mmioReg o ≠ .reserved) : o' = o := by
  have hat := mmioReg_standsAt o ho
  have hat' := mmioReg_standsAt o' ho'
  rw [h] at hat'
  apply BitVec.eq_of_toNat_eq
  generalize mmioReg o = r at hat hat' hr
  cases r with
  | reserved => exact absurd rfl hr
  | _ => exact Eq.trans hat' (Eq.symm hat)

/-- R23, R27: the inert offsets are those of ID and of the reserved space. -/
theorem mmioReg_of_inert {o : BitVec 8} (h : inert o) : mmioReg o = .id ∨ mmioReg o = .reserved := by
  obtain ⟨ho, hrange⟩ := h
  have hat := mmioReg_standsAt o ho
  generalize mmioReg o = r at hat
  cases r with
  | id => exact .inl rfl
  | reserved => exact .inr rfl
  | gpr i => have hi := i.isLt; simp only [MmioReg.standsAt] at hat; omega
  | _ => simp only [MmioReg.standsAt] at hat; omega

/-- R37: a guarded offset is that of CMD, of a general register, or of a host-written register. -/
theorem mmioReg_of_guarded {o : BitVec 8} (h : guarded o) : o = 0x0C#8 ∨
    (∃ i, mmioReg o = .gpr i ∧ o.toNat = 0x80 + 4 * i.val) ∨ ((mmioReg o).isControl = true ∧ o.toNat ≤ 0x4C) := by
  obtain ⟨ho, hrange⟩ := h
  have hat := mmioReg_standsAt o ho
  generalize mmioReg o = r at hat
  cases r with
  | cmd => exact .inl (BitVec.eq_of_toNat_eq hat)
  | gpr i => exact .inr (.inl ⟨i, rfl, hat⟩)
  | id | status | reserved => simp only [MmioReg.standsAt] at hat; omega
  | _ => exact .inr (.inr ⟨rfl, by simp only [MmioReg.standsAt] at hat; omega⟩)

/-! What the statements call the value at an offset is what the model's registers read. -/

theorem windowValue_of_le (s : State) (n : Nat) (h : 0x50 ≤ n) : windowValue s n =
    if 0x80 ≤ n ∧ n ≤ 0xBC then s.reg ⟨(n - 0x80) / 4 % 16, Nat.mod_lt _ (by decide)⟩ else 0#32 := by
  unfold windowValue
  split <;> first | omega | rfl

theorem windowValue_gpr (s : State) (i : Reg) : windowValue s (0x80 + 4 * i.val) = s.reg i := by
  have hi := i.isLt
  rw [windowValue_of_le _ _ (by omega), if_pos (by omega)]
  congr
  omega

theorem windowValue_reserved (s : State) (n : Nat) (h : (0x50 ≤ n ∧ n ≤ 0x7C) ∨ 0xC0 ≤ n) : windowValue s n = 0#32 := by
  rw [windowValue_of_le _ _ (by omega), if_neg (by omega)]

theorem readMmio_eq_windowValue (s : State) {r : MmioReg} {n : Nat} (h : r.standsAt n) :
    s.readMmio r = windowValue s n := by
  cases r with
  | gpr i => cases h; exact (windowValue_gpr s i).symm
  | reserved => exact (windowValue_reserved s n h).symm
  | _ => cases h; rfl

/-- R23, R37: an aligned word read answers the register of R23's table and changes nothing else. -/
theorem mmioRead_aligned (s : State) (o : BitVec 8) (ho : o.toNat % 4 = 0) :
    mmioRead .word o s = .next { s with readData := windowValue s o.toNat } := by
  rw [mmioRead, if_pos ((properAccess_iff _ o).2 ⟨rfl, ho⟩), readMmio_eq_windowValue s (mmioReg_standsAt o ho)]

theorem reads_iff (s : State) (o : BitVec 8) (w : Word) (ho : o.toNat % 4 = 0) :
    reads s o w ↔ s.readMmio (mmioReg o) = w := by
  rw [reads, mmioRead_aligned s o ho, readMmio_eq_windowValue s (mmioReg_standsAt o ho)]
  exact ⟨fun ⟨t, ht, hw⟩ => by cases ht; exact hw, fun hw => ⟨_, rfl, hw⟩⟩

/-- Only STATUS reads something outside the host-written registers and the register file (R23). -/
theorem readMmio_congr {s t : State} (hctl : t.ctl = s.ctl) (hreg : ∀ r, t.reg r = s.reg r) {r : MmioReg}
    (hr : r ≠ .status) : t.readMmio r = s.readMmio r := by
  cases r with
  | status => exact absurd rfl hr
  | gpr i => exact hreg i
  | id | cmd | reserved => rfl
  | _ => simp only [State.readMmio, hctl]

theorem windowValue_congr {s t : State} (hctl : t.ctl = s.ctl) (hreg : ∀ r, t.reg r = s.reg r) {n : Nat}
    (hn : n ≠ 0x08) : windowValue t n = windowValue s n := by
  unfold windowValue
  split
  case h_3 => exact absurd rfl hn
  all_goals simp only [hctl, hreg]

/-! Writes to the window, one lemma for each class of offsets. -/

/-- R23, R27: ID and the reserved space ignore writes. -/
theorem mmioWrite_inert {o : BitVec 8} (h : inert o) (v : Word) (s : State) : mmioWrite .word o v s = .next s := by
  rw [mmioWrite, if_pos ((properAccess_iff _ o).2 ⟨rfl, h.1⟩)]
  obtain hr | hr := mmioReg_of_inert h <;> rw [hr]

theorem mmioWrite_status (v : Word) (s : State) : mmioWrite .word 0x08#8 v s = .next (s.clearEvents v) := rfl

theorem mmioWrite_cmd (v : Word) (s : State) : mmioWrite .word 0x0C#8 v s = writeCommand v s := rfl

/-- R35, R37, R38: a write to a general or a host-written register goes through `writeRegister`. -/
theorem mmioWrite_register {o : BitVec 8} (ho : o.toNat % 4 = 0)
    (hr : (∃ i, mmioReg o = .gpr i) ∨ (mmioReg o).isControl = true) (v : Word) (s : State) :
    mmioWrite .word o v s = .next (writeRegister (mmioReg o) v s) := by
  rw [mmioWrite, if_pos ((properAccess_iff _ o).2 ⟨rfl, ho⟩)]
  generalize mmioReg o = r at hr
  cases r with
  | id | status | cmd | reserved => obtain ⟨i, hi⟩ | hr := hr <;> contradiction
  | _ => rfl

/-- R37: a guarded write is dropped during a pass. -/
theorem mmioWrite_guarded_of_busy {o : BitVec 8} (h : guarded o) (v : Word) {s : State} (hbusy : s.busy = true) :
    mmioWrite .word o v s = .next (s.record .writeWhileBusy) := by
  have hregister : ∀ r, writeRegister r v s = s.record .writeWhileBusy := fun r => if_pos hbusy
  obtain rfl | ⟨i, hr, -⟩ | ⟨hr, -⟩ := mmioReg_of_guarded h
  · rw [mmioWrite_cmd, writeCommand, if_pos hbusy]
  · rw [mmioWrite_register h.1 (.inl ⟨i, hr⟩), hregister]
  · rw [mmioWrite_register h.1 (.inr hr), hregister]

/-- R35: a write in the register file's window, while no pass runs. -/
theorem mmioWrite_gpr_of_idle {o : BitVec 8} {i : Reg} (ho : o.toNat % 4 = 0) (hr : mmioReg o = .gpr i) (v : Word)
    {s : State} (hidle : s.busy = false) : mmioWrite .word o v s = .next (s.setReg i v) := by
  rw [mmioWrite_register ho (.inl ⟨i, hr⟩), hr]
  simp only [writeRegister, hidle, Bool.false_eq_true, if_false]

/-- R38: a write to a host-written register, while no pass runs. -/
theorem mmioWrite_control_of_idle {o : BitVec 8} (ho : o.toNat % 4 = 0) (hr : (mmioReg o).isControl = true) (v : Word)
    {s : State} (hidle : s.busy = false) :
    mmioWrite .word o v s = .next { s with ctl := s.ctl.write (mmioReg o) v } := by
  rw [mmioWrite_register ho (.inr hr)]
  generalize mmioReg o = r at hr
  cases r with
  | gpr => cases hr
  | _ => simp only [writeRegister, hidle, Bool.false_eq_true, if_false]

/-- R39: every other access stops the model. -/
theorem access_fault {size : AccessSize} {o : BitVec 8} (h : size ≠ .word ∨ o.toNat % 4 ≠ 0) (v : Word) (s : State) :
    mmioWrite size o v s = .fault .badMmioAccess ∧ mmioRead size o s = .fault .badMmioAccess := by
  have himproper : ¬ properAccess size o = true := by
    rw [properAccess_iff]
    rintro ⟨hsize, ho⟩
    exact h.elim (· hsize) (· ho)
  exact ⟨if_neg himproper, if_neg himproper⟩

end Sys2Proof.Machine
end

section
/-! SUPPORT. What a write to a register of the window stores (R38), and that no other register reads it. -/

namespace Sys2Proof.Machine

open Sys2Proof Sys2Proof.Claim

section fields

variable (c : ControlRegs) (r : MmioReg) (v : Word)

@[simp] theorem ControlRegs.write_ctrl : (c.write r v).ctrl = if r = .ctrl then v &&& ctrlMask else c.ctrl := by
  cases r <;> rfl
@[simp] theorem ControlRegs.write_camX : (c.write r v).camX = if r = .camX then v else c.camX := by
  cases r <;> rfl
@[simp] theorem ControlRegs.write_camY : (c.write r v).camY = if r = .camY then v else c.camY := by
  cases r <;> rfl
@[simp] theorem ControlRegs.write_camZ : (c.write r v).camZ = if r = .camZ then v else c.camZ := by
  cases r <;> rfl
@[simp] theorem ControlRegs.write_camCos : (c.write r v).camCos = if r = .camCos then v else c.camCos := by
  cases r <;> rfl
@[simp] theorem ControlRegs.write_camSin : (c.write r v).camSin = if r = .camSin then v else c.camSin := by
  cases r <;> rfl
@[simp] theorem ControlRegs.write_horizon : (c.write r v).horizon = if r = .horizon then v else c.horizon := by
  cases r <;> rfl
@[simp] theorem ControlRegs.write_fogStart : (c.write r v).fogStart = if r = .fogStart then v else c.fogStart := by
  cases r <;> rfl
@[simp] theorem ControlRegs.write_distMax : (c.write r v).distMax = if r = .distMax then v else c.distMax := by
  cases r <;> rfl
@[simp] theorem ControlRegs.write_scaleHeight : (c.write r v).scaleHeight = if r = .scaleHeight then v else c.scaleHeight := by
  cases r <;> rfl
@[simp] theorem ControlRegs.write_skyColor : (c.write r v).skyColor = if r = .skyColor then v &&& skyMask else c.skyColor := by
  cases r <;> rfl
@[simp] theorem ControlRegs.write_fbBase : (c.write r v).fbBase = if r = .fbBase then v else c.fbBase := by
  cases r <;> rfl
@[simp] theorem ControlRegs.write_fbStride : (c.write r v).fbStride = if r = .fbStride then v else c.fbStride := by
  cases r <;> rfl
@[simp] theorem ControlRegs.write_fbWidth : (c.write r v).fbWidth = if r = .fbWidth then v &&& sizeMask else c.fbWidth := by
  cases r <;> rfl
@[simp] theorem ControlRegs.write_fbHeight : (c.write r v).fbHeight = if r = .fbHeight then v &&& sizeMask else c.fbHeight := by
  cases r <;> rfl
@[simp] theorem ControlRegs.write_hmapBase : (c.write r v).hmapBase = if r = .hmapBase then v else c.hmapBase := by
  cases r <;> rfl
@[simp] theorem ControlRegs.write_tmapBase : (c.write r v).tmapBase = if r = .tmapBase then v else c.tmapBase := by
  cases r <;> rfl

end fields

/-- No two host-written registers share a field (R23). -/
theorem readMmio_write_of_ne (s : State) {r r' : MmioReg} (h : r' ≠ r) (v : Word) :
    { s with ctl := s.ctl.write r v }.readMmio r' = s.readMmio r' := by
  cases r' with
  | id | status | cmd | gpr | reserved => rfl
  | _ => simp [State.readMmio, Ne.symm h]

theorem readMmio_setReg_of_ne (s : State) {i : Reg} {r' : MmioReg} (h : r' ≠ .gpr i) (v : Word) :
    (s.setReg i v).readMmio r' = s.readMmio r' := by
  cases r' with
  | gpr j => exact (s.setReg_reg i j v).trans (if_neg fun hj => h (congrArg MmioReg.gpr hj))
  | _ => rfl

theorem storedAt_of_le (c : ControlRegs) (n : Nat) (v : Word) (h : 0x50 ≤ n) : storedAt c n v = c := by
  unfold storedAt
  split <;> first | omega | rfl

theorem and_storedBits_of_le (v : Word) (o : BitVec 8) (h : 0x50 ≤ o.toNat) : v &&& storedBits o = v := by
  unfold storedBits
  rw [if_neg (by omega), if_neg (by omega), if_neg (by omega)]
  exact BitVec.and_allOnes

/-- R38: a write to a host-written register stores the defined fields in the register that R23 names there. -/
theorem ControlRegs.write_eq_storedAt (c : ControlRegs) {r : MmioReg} {o : BitVec 8} (h : r.standsAt o.toNat)
    (hr : r.isControl = true) (v : Word) : c.write r v = storedAt c o.toNat (v &&& storedBits o) := by
  have hall : v &&& 0xFFFFFFFF#32 = v := BitVec.and_allOnes
  unfold storedBits
  generalize o.toNat = n at h
  cases r with
  | id | status | cmd | gpr | reserved => cases hr
  | _ => cases h; simp [ControlRegs.write, storedAt, ctrlMask, skyMask, sizeMask, hall]

/-- R38: a host-written register reads back what was stored. -/
theorem readMmio_storedAt (s : State) {r : MmioReg} {n : Nat} (h : r.standsAt n) (hr : r.isControl = true) (v : Word) :
    { s with ctl := storedAt s.ctl n v }.readMmio r = v := by
  cases r with
  | id | status | cmd | gpr | reserved => cases hr
  | _ => cases h; rfl

end Sys2Proof.Machine
end

section
/-! SUPPORT. The bits of STATUS (R25), and that only a STATUS write or reset clears an event bit. -/

namespace Sys2Proof.Machine

open Sys2Proof Sys2Proof.Claim

/-- A number written in five binary digits has these digits as its bits. -/
theorem getLsbD_fiveBits (b₀ b₁ b₂ b₃ b₄ : Bool) :
    let w := BitVec.ofNat 32 (b₀.toNat + 2 * b₁.toNat + 4 * b₂.toNat + 8 * b₃.toNat + 16 * b₄.toNat)
    w.getLsbD 0 = b₀ ∧ w.getLsbD 1 = b₁ ∧ w.getLsbD 2 = b₂ ∧ w.getLsbD 3 = b₃ ∧ w.getLsbD 4 = b₄ := by
  revert b₀ b₁ b₂ b₃ b₄
  decide

/-- R25: the bits of STATUS. -/
theorem State.status_bits (s : State) : s.status.getLsbD 0 = s.busy ∧ s.status.getLsbD 1 = s.ill ∧
    s.status.getLsbD 2 = s.werr ∧ s.status.getLsbD 3 = s.cfgerr ∧ s.status.getLsbD 4 = s.lipend :=
  getLsbD_fiveBits s.busy s.ill s.werr s.cfgerr s.lipend

/-- R25: the other bits of STATUS read 0. -/
theorem State.status_getLsbD_of_le (s : State) {n : Nat} (hn : 5 ≤ n) : s.status.getLsbD n = false := by
  have hbound : s.busy.toNat + 2 * s.ill.toNat + 4 * s.werr.toNat + 8 * s.cfgerr.toNat + 16 * s.lipend.toNat < 2 ^ 5 := by
    have h₀ := s.busy.toNat_le
    have h₁ := s.ill.toNat_le
    have h₂ := s.werr.toNat_le
    have h₃ := s.cfgerr.toNat_le
    have h₄ := s.lipend.toNat_le
    omega
  rw [State.status, BitVec.getLsbD_ofNat,
    Nat.testBit_lt_two_pow (hbound.trans_le (Nat.pow_le_pow_right (by decide) hn)), Bool.and_false]

/-- Above BUSY, STATUS shows the event bits and LIPEND only (R25). -/
theorem State.status_getLsbD_congr {s t : State} (he : SameEvents s t) (hl : t.lipend = s.lipend) {n : Nat} (hn : 1 ≤ n) :
    t.status.getLsbD n = s.status.getLsbD n := by
  obtain ⟨-, s₁, s₂, s₃, s₄⟩ := s.status_bits
  obtain ⟨-, t₁, t₂, t₃, t₄⟩ := t.status_bits
  obtain ⟨hill, hwerr, hcfgerr⟩ := he
  match n, hn with
  | 1, _ => rw [s₁, t₁, hill]
  | 2, _ => rw [s₂, t₂, hwerr]
  | 3, _ => rw [s₃, t₃, hcfgerr]
  | 4, _ => rw [s₄, t₄, hl]
  | n + 5, _ => rw [s.status_getLsbD_of_le (by omega), t.status_getLsbD_of_le (by omega)]

/-- A turn of the sequencer touches MEM, the column array and the pass only (R131, R144). -/
theorem State.sequencerTurn_frame (s : State) : SameRegisters s s.sequencerTurn ∧ SameControl s s.sequencerTurn ∧
    SameLoad s s.sequencerTurn ∧ SameEvents s s.sequencerTurn ∧ SameOutside s s.sequencerTurn := by
  obtain ⟨-, h⟩ | ⟨p, -, h⟩ := s.sequencerTurn_cases <;> rw [h]
  · exact ⟨⟨fun _ => rfl, fun _ => rfl⟩, rfl, ⟨rfl, rfl⟩, ⟨rfl, rfl, rfl⟩, rfl, rfl⟩
  · obtain ⟨hregs, hwritten, hctl, hill, hwerr, hcfgerr, hlipend, hlird, hinputs, hreadData⟩ := s.advance_frame p
    exact ⟨⟨fun r => by rw [State.reg, hregs, State.reg], fun r => by rw [State.wasWritten, hwritten, State.wasWritten]⟩,
      hctl, ⟨hlipend, hlird⟩, ⟨hill, hwerr, hcfgerr⟩, hinputs, hreadData⟩

theorem State.clearEvents_onlyEvents (s : State) (v : Word) : OnlyEvents s (s.clearEvents v) :=
  ⟨⟨fun _ => rfl, fun _ => rfl⟩, rfl, ⟨rfl, rfl⟩, ⟨rfl, rfl⟩, fun _ => rfl, rfl, rfl⟩

/-- R151: recording an event changes no more than the event bits. -/
theorem State.record_onlyEvents (s : State) (e : ErrorEvent) : OnlyEvents s (s.record e) := by
  cases e <;> exact ⟨⟨fun _ => rfl, fun _ => rfl⟩, rfl, ⟨rfl, rfl⟩, ⟨rfl, rfl⟩, fun _ => rfl, rfl, rfl⟩

/-- The sticky bit of an event. -/
def State.event (s : State) (e : ErrorEvent) : Bool :=
  match e with
  | .illegalCommand => s.ill
  | .writeWhileBusy => s.werr
  | .configuration => s.cfgerr

/-- The bit of STATUS that holds an event (R25). -/
def ErrorEvent.statusBit (e : ErrorEvent) : Nat :=
  match e with
  | .illegalCommand => 1
  | .writeWhileBusy => 2
  | .configuration => 3

section sticky

variable {s t : State} {e : ErrorEvent}

theorem State.event_congr (h : SameEvents s t) : t.event e = s.event e := by
  obtain ⟨hill, hwerr, hcfgerr⟩ := h
  cases e <;> assumption

@[simp] theorem State.record_event (s : State) (e e' : ErrorEvent) :
    (s.record e').event e = (s.event e || decide (e' = e)) := by
  cases e <;> simp [State.event]

@[simp] theorem State.clearEvents_event (s : State) (e : ErrorEvent) (v : Word) :
    (s.clearEvents v).event e = (s.event e && !v.getLsbD e.statusBit) := by
  cases e <;> rfl

theorem record_event_of_event (h : s.event e = true) (e' : ErrorEvent) : (s.record e').event e = true := by
  rw [State.record_event, h, Bool.true_or]

/-- R132: DRAW clears no event. -/
theorem startPass_event_of_event (h : s.event e = true) : s.startPass.event e = true := by
  obtain ⟨-, hs⟩ | ⟨-, -, hs⟩ | ⟨-, hs⟩ := s.startPass_cases <;> rw [hs]
  · exact record_event_of_event h _
  · exact h
  · rwa [State.event_congr ⟨rfl, rfl, rfl⟩]

/-- R25: no command clears an event. -/
theorem exec_event_of_event {i : Instr} (hstep : exec i s = .next t) (h : s.event e = true) : t.event e = true := by
  obtain ⟨rd, v, -, rfl⟩ | ⟨rd, imm, -, rfl⟩ | ⟨-, rfl⟩ := exec_cases i s t hstep
  · rwa [State.event_congr ⟨rfl, rfl, rfl⟩]
  · rwa [State.event_congr ⟨rfl, rfl, rfl⟩]
  · exact startPass_event_of_event h

/-- R25, R78: no word written to CMD clears an event. -/
theorem writeCommand_event_of_event {w : Word} (hstep : writeCommand w s = .next t) (h : s.event e = true) :
    t.event e = true := by
  obtain ⟨-, rfl⟩ | ⟨-, -, rfl⟩ | ⟨-, -, -, rfl⟩ | ⟨-, -, rd, -, rfl⟩ | ⟨-, -, i, -, hi⟩ := writeCommand_cases w s t hstep
  · exact record_event_of_event h _
  · rwa [State.event_congr ⟨rfl, rfl, rfl⟩]
  · exact record_event_of_event h _
  · rwa [State.event_congr ⟨rfl, rfl, rfl⟩]
  · exact exec_event_of_event hi h

theorem writeRegister_event_of_event (r : MmioReg) (v : Word) (h : s.event e = true) :
    (writeRegister r v s).event e = true := by
  obtain ⟨-, hs⟩ | ⟨-, i, -, hs⟩ | ⟨-, -, hs⟩ := writeRegister_cases r v s <;> rw [hs]
  · exact record_event_of_event h _
  · rwa [State.event_congr ⟨rfl, rfl, rfl⟩]
  · rwa [State.event_congr ⟨rfl, rfl, rfl⟩]

/-- R25: a write to the window clears an event only if it is a write to STATUS with the event's bit set. -/
theorem mmioWrite_event_of_event {size : AccessSize} {o : BitVec 8} {v : Word}
    (hstep : mmioWrite size o v s = .next t) (h : s.event e = true) :
    t.event e = true ∨ (size = .word ∧ o = 0x08#8 ∧ v.getLsbD e.statusBit = true) := by
  obtain ⟨hproper, hcases⟩ := mmioWrite_cases size o v s t hstep
  obtain ⟨hsize, ho⟩ := (properAccess_iff size o).1 hproper
  obtain ⟨-, rfl⟩ | ⟨hr, rfl⟩ | ⟨-, hcmd⟩ | ⟨-, -, -, -, rfl⟩ := hcases
  · exact .inl h
  · have hoffset : o = 0x08#8 := eq_of_mmioReg_eq (by decide) ho hr (by decide)
    rw [State.clearEvents_event, h, Bool.true_and]
    cases hv : v.getLsbD e.statusBit with
    | false => exact .inl rfl
    | true => exact .inr ⟨hsize, hoffset, rfl⟩
  · exact .inl (writeCommand_event_of_event hcmd h)
  · exact .inl (writeRegister_event_of_event _ _ h)

/-- R25: no pass clears an event, and none sets one. -/
theorem State.sequencerTurn_event (s : State) (e : ErrorEvent) : s.sequencerTurn.event e = s.event e := by
  obtain ⟨-, -, -, hevents, -⟩ := s.sequencerTurn_frame
  exact State.event_congr hevents

/-- R25: the outside clears an event only by reset or by a write to STATUS with the event's bit set. -/
theorem perform_event_of_event {a : HostAction} (hstep : perform a s = .next t) (h : s.event e = true) :
    t.event e = true ∨ a = .reset ∨ ∃ v, a = .mmioWrite .word 0x08#8 v ∧ v.getLsbD e.statusBit = true := by
  cases a with
  | mmioWrite size o v =>
    obtain ht | ⟨rfl, rfl, hv⟩ := mmioWrite_event_of_event hstep h
    · exact .inl ht
    · exact .inr (.inr ⟨v, rfl, hv⟩)
  | mmioRead size o =>
    obtain ⟨-, rfl⟩ := mmioRead_cases size o s t hstep
    exact .inl ((State.event_congr ⟨rfl, rfl, rfl⟩).trans h)
  | memWrite addr v =>
    obtain ⟨rfl, -⟩ := hostMemWrite_cases addr v s t hstep
    exact .inl ((State.event_congr ⟨rfl, rfl, rfl⟩).trans h)
  | memRead addr =>
    obtain ⟨rfl, -⟩ := hostMemRead_cases addr s t hstep
    exact .inl ((State.event_congr ⟨rfl, rfl, rfl⟩).trans h)
  | reset => exact .inr (.inl rfl)
  | wait =>
    cases hstep
    exact .inl ((s.sequencerTurn_event e).trans h)

/-- R25: in every step an event stays unless the outside resets the block or writes its bit of STATUS. -/
theorem step_event_of_event (hstep : step s = .next t) (h : s.event e = true) :
    t.event e = true ∨ s.inputs.head? = some .reset ∨
      ∃ v, s.inputs.head? = some (.mmioWrite .word 0x08#8 v) ∧ v.getLsbD e.statusBit = true := by
  obtain ⟨-, rfl⟩ | ⟨a, rest, hinputs, ha⟩ := step_cases s t hstep
  · exact .inl ((s.sequencerTurn_event e).trans h)
  · rw [hinputs, List.head?_cons]
    simp only [Option.some.injEq]
    exact perform_event_of_event ha ((State.event_congr ⟨rfl, rfl, rfl⟩).trans h)

end sticky

end Sys2Proof.Machine

namespace Sys2Proof.Proofs

open Sys2Proof Sys2Proof.Machine Sys2Proof.Claim

/-- Settles O43: the bits of STATUS, and `step_event_of_event` for each of the three events. -/
theorem statusBitsStick : Obligations.StatusBitsStick := by
  refine ⟨rfl, fun s => rfl, fun s => ?_, fun s v => ?_, fun s t hstep => ?_⟩
  · obtain ⟨hbusy, hill, hwerr, hcfgerr, hlipend⟩ := s.status_bits
    exact ⟨hbusy, hill, hwerr, hcfgerr, hlipend, fun n hn => s.status_getLsbD_of_le hn⟩
  · exact ⟨_, mmioWrite_status v s, rfl, rfl, rfl, s.clearEvents_onlyEvents v⟩
  · exact ⟨step_event_of_event (e := .illegalCommand) hstep, step_event_of_event (e := .writeWhileBusy) hstep,
      step_event_of_event (e := .configuration) hstep⟩

/-- Settles O44: one lemma for each class of offsets, and the frame of a turn of the sequencer. -/
theorem writesDuringAPassAreDropped : Obligations.WritesDuringAPassAreDropped := by
  intro s v o hbusy
  obtain ⟨⟨hregs, -⟩, hctl, ⟨hlipend, -⟩, hevents, -⟩ := s.sequencerTurn_frame
  refine ⟨fun ho => ?_, ?_, fun ho => mmioWrite_inert ho v s, mmioRead_aligned s o, fun ho => ?_,
    fun r hr => readMmio_congr hctl hregs hr, fun n hn => State.status_getLsbD_congr hevents hlipend hn⟩
  · exact ⟨_, mmioWrite_guarded_of_busy ho v hbusy, by simp, by simp, by simp, s.record_onlyEvents _⟩
  · exact ⟨_, mmioWrite_status v s, rfl, rfl, rfl, s.clearEvents_onlyEvents v⟩
  · exact windowValue_congr hctl hregs fun h => ho (BitVec.eq_of_toNat_eq h)

/-- Settles O45: the write is to a general register or to a host-written one, and neither is read at another offset. -/
theorem registerWritesStoreDefinedBits : Obligations.RegisterWritesStoreDefinedBits := by
  refine ⟨mmioRead_aligned, fun s v o hidle ho hcmd => ?_⟩
  have hat := mmioReg_standsAt o ho.1
  obtain rfl | ⟨i, hr, hn⟩ | ⟨hr, hn⟩ := mmioReg_of_guarded ho
  · exact absurd rfl hcmd
  · have hsame : ∀ r : Reg, o.toNat = 0x80 + 4 * r.val ↔ r = i := fun r => by rw [hn, Fin.ext_iff]; omega
    have hother : ∀ o' : BitVec 8, o'.toNat % 4 = 0 → o' ≠ o → mmioReg o' ≠ .gpr i := fun o' ho' hne h =>
      hne (eq_of_mmioReg_eq ho.1 ho' (h.trans hr.symm) (by rw [hr]; nofun))
    refine ⟨_, mmioWrite_gpr_of_idle ho.1 hr v hidle, ?_, ?_, fun r => ?_, fun r => ?_, fun o' w ho' hne h => ?_,
      ⟨rfl, rfl⟩, ⟨rfl, rfl, rfl⟩, ⟨rfl, rfl⟩, fun _ => rfl, rfl, rfl⟩
    · rw [reads_iff _ _ _ ho.1, hr, and_storedBits_of_le v o (by omega)]
      exact (s.setReg_reg i i v).trans (if_pos rfl)
    · exact (storedAt_of_le _ _ _ (by omega)).symm
    · simp only [State.setReg_reg, hsame]
    · simp only [State.setReg_wasWritten, hsame]
    · rw [reads_iff _ _ _ ho'] at h ⊢
      rw [readMmio_setReg_of_ne s (hother o' ho' hne), h]
  · have hnot : ∀ r : Reg, o.toNat ≠ 0x80 + 4 * r.val := fun r => by omega
    have hother : ∀ o' : BitVec 8, o'.toNat % 4 = 0 → o' ≠ o → mmioReg o' ≠ mmioReg o := fun o' ho' hne h =>
      hne (eq_of_mmioReg_eq ho.1 ho' h fun hres => by rw [hres] at hr; cases hr)
    have hstored := s.ctl.write_eq_storedAt hat hr v
    refine ⟨_, mmioWrite_control_of_idle ho.1 hr v hidle, ?_, hstored, fun r => (if_neg (hnot r)).symm, fun r => ?_,
      fun o' w ho' hne h => ?_, ⟨rfl, rfl⟩, ⟨rfl, rfl, rfl⟩, ⟨rfl, rfl⟩, fun _ => rfl, rfl, rfl⟩
    · rw [reads_iff _ _ _ ho.1, hstored, readMmio_storedAt s hat hr]
    · rw [decide_eq_false (hnot r), Bool.false_or]
      rfl
    · rw [reads_iff _ _ _ ho'] at h ⊢
      rw [readMmio_write_of_ne s (hother o' ho' hne), h]

/-- Settles O46: the inert offsets, and the model's window at the offsets of ID and CMD. -/
theorem identityAndCommandPortReads : Obligations.IdentityAndCommandPortReads := by
  have hid : inert 0x00#8 := ⟨rfl, .inl rfl⟩
  exact ⟨fun s v o ho => mmioWrite_inert ho v s, fun s v => ⟨mmioRead_aligned s 0x00#8 rfl, mmioWrite_inert hid v s,
    mmioRead_aligned s 0x0C#8 rfl, mmioWrite_cmd v s⟩⟩

/-- Settles O47. -/
theorem improperAccessFaults : Obligations.ImproperAccessFaults := fun s _ _ v h => access_fault h v s

end Sys2Proof.Proofs
end

section
/-! SUPPORT. Which bytes of MEM change (R50): a host access to the window writes none, and a turn of the sequencer writes at
most one byte, a red, green or blue one of a pixel of the pass's frame. -/

namespace Sys2Proof.Machine

open Sys2Proof Sys2Proof.Claim

/-! The address of a pixel's channel in numbers. -/

/-- The lowest of the two bits of CTRL that hold a channel's byte offset (R24). -/
def Channel.offsetBit (ch : Channel) : Nat :=
  match ch with
  | .red => 8
  | .green => 10
  | .blue => 12

theorem ControlRegs.channelOffset_toNat (c : ControlRegs) (ch : Channel) :
    (c.channelOffset ch).toNat = c.ctrl.toNat / 2 ^ ch.offsetBit % 4 := by
  cases ch <;> simp [ControlRegs.channelOffset, Channel.offsetBit, Nat.shiftRight_eq_div_pow] <;> omega

/-- R53 with numbers: the products and the sum wrap at the end only. -/
theorem channelAddr_eq_ofNat (c : ControlRegs) (x y : Nat) (ch : Channel) : channelAddr c x y ch =
    BitVec.ofNat 32 (c.fbBase.toNat + y * c.fbStride.toNat + 4 * x + c.ctrl.toNat / 2 ^ ch.offsetBit % 4) := by
  simp only [channelAddr, pixelAddr, BitVec.ofNat_add, BitVec.ofNat_mul, BitVec.ofNat_toNat, BitVec.setWidth_eq,
    ← ControlRegs.channelOffset_toNat]

theorem colorByte_channelAddr {c : ControlRegs} {x y : Nat} (hx : x < c.width) (hy : y < c.height) (ch : Channel) :
    colorByte c (channelAddr c x y ch) := by
  refine ⟨x, y, hx, hy, c.ctrl.toNat / 2 ^ ch.offsetBit % 4, ?_, channelAddr_eq_ofNat c x y ch⟩
  cases ch with
  | red => exact .inl rfl
  | green => exact .inr (.inl rfl)
  | blue => exact .inr (.inr rfl)

theorem read_putChannel_of_ne (c : ControlRegs) (m : Memory) (x y : Nat) (color : Word) (ch : Channel) {a : Word}
    (h : a ≠ channelAddr c x y ch) : (putChannel c m x y color ch).read a = m.read a :=
  Memory.read_write_other m _ a _ h

/-! A turn of the sequencer. -/

/-- R134, R140: while the loop counters are in range, a turn of a pass leaves MEM alone or writes one channel of a pixel
inside the frame. -/
theorem State.advance_mem_cases (s : State) (p : Pass) (h : p.phase.inRange p.latch = true) :
    (s.advance p).mem = s.mem ∨ ∃ x y color ch, x < p.latch.width ∧ y < p.latch.height ∧
      (s.advance p).mem = putChannel p.latch s.mem x y color ch := by
  obtain ⟨y, x, ch, hphase, hs⟩ | ⟨-, hs⟩ | ⟨z, -, -, hs⟩ | ⟨z, -, -, hs⟩ | ⟨z, i, scan, rh, -, -, -, hcolumn⟩ |
    ⟨z, i, scan, hh, top, rh, color, ch, s', hphase, rfl, hline⟩ := s.advance_cases p
  case inl =>
    simp only [hphase, Phase.inRange, Bool.and_eq_true, decide_eq_true_eq] at h
    exact .inr ⟨x, y, _, ch, h.2, h.1, congrArg State.mem hs⟩
  case inr.inl | inr.inr.inl | inr.inr.inr.inl => exact .inl (by simp [hs])
  case inr.inr.inr.inr.inl =>
    obtain ⟨-, hs⟩ | ⟨-, -, hs⟩ | ⟨-, -, hs⟩ := hcolumn <;> exact .inl (by simp [hs])
  case inr.inr.inr.inr.inr =>
    simp only [hphase, Phase.inRange, Bool.and_eq_true, decide_eq_true_eq] at h
    obtain ⟨⟨⟨⟨⟨⟨-, -⟩, hi⟩, -⟩, hlt⟩, htop⟩, -⟩ := h
    have hrow : p.latch.height - 1 - hh < p.latch.height := by
      have : lineTop p.latch rh ≤ p.latch.height := min_le_right _ _
      omega
    refine .inr ⟨i, p.latch.height - 1 - hh, color, ch, hi, hrow, ?_⟩
    obtain ⟨ch', -, hs⟩ | ⟨-, -, hs⟩ | ⟨-, -, hs⟩ := hline <;> exact congrArg State.mem hs

/-- R50, R55: the bytes a turn of a sound pass can change. -/
theorem State.advance_read_ne {s : State} {p : Pass} (h : p.phase.inRange p.latch = true) {a : Word}
    (hne : (s.advance p).mem.read a ≠ s.mem.read a) : colorByte p.latch a := by
  obtain hmem | ⟨x, y, color, ch, hx, hy, hmem⟩ := s.advance_mem_cases p h
  · exact absurd (by rw [hmem]) hne
  · have ha : a = channelAddr p.latch x y ch := by
      by_contra hother
      exact hne (by rw [hmem, read_putChannel_of_ne _ _ _ _ _ _ hother])
    exact ha ▸ colorByte_channelAddr hx hy ch

/-- R50: the bytes the sequencer's turn can change, in a state that meets the invariant. -/
theorem State.sequencerTurn_read_ne {s : State} (hinv : s.inv = true) {a : Word}
    (hne : s.sequencerTurn.mem.read a ≠ s.mem.read a) : ∃ p, s.pass = some p ∧ colorByte p.latch a := by
  obtain ⟨-, hs⟩ | ⟨p, hp, hs⟩ := s.sequencerTurn_cases
  · exact absurd (by rw [hs]) hne
  · obtain ⟨-, -, -, hpass⟩ := s.inv_iff.1 hinv
    obtain ⟨-, -, hrange, -⟩ := (passSound_iff _ _ p).1 (hpass p hp).2
    exact ⟨p, hp, State.advance_read_ne hrange (hs ▸ hne)⟩

/-! No command and no other host access writes MEM (R45, R50). -/

@[simp] theorem State.startPass_mem (s : State) : s.startPass.mem = s.mem := by
  obtain ⟨e, p, hs⟩ := s.startPass_frame
  rw [hs]

theorem exec_mem {i : Instr} {s t : State} (h : exec i s = .next t) : t.mem = s.mem := by
  obtain ⟨rd, v, -, rfl⟩ | ⟨rd, imm, -, rfl⟩ | ⟨-, rfl⟩ := exec_cases i s t h <;> simp

theorem writeCommand_mem {w : Word} {s t : State} (h : writeCommand w s = .next t) : t.mem = s.mem := by
  obtain ⟨-, rfl⟩ | ⟨-, -, rfl⟩ | ⟨-, -, -, rfl⟩ | ⟨-, -, rd, -, rfl⟩ | ⟨-, -, i, -, hi⟩ := writeCommand_cases w s t h
  case inr.inr.inr.inr => exact exec_mem hi
  all_goals simp

@[simp] theorem writeRegister_mem (r : MmioReg) (v : Word) (s : State) : (writeRegister r v s).mem = s.mem := by
  obtain ⟨-, hs⟩ | ⟨-, i, -, hs⟩ | ⟨-, -, hs⟩ := writeRegister_cases r v s <;> simp [hs]

theorem mmioWrite_mem {size : AccessSize} {o : BitVec 8} {v : Word} {s t : State} (h : mmioWrite size o v s = .next t) :
    t.mem = s.mem := by
  obtain ⟨-, ⟨-, rfl⟩ | ⟨-, rfl⟩ | ⟨-, hcmd⟩ | ⟨-, -, -, -, rfl⟩⟩ := mmioWrite_cases size o v s t h
  · rfl
  · exact s.clearEvents_mem v
  · exact writeCommand_mem hcmd
  · exact writeRegister_mem _ v s

/-- R50: where an action of the outside changes a byte of MEM, it wrote that byte, or it let the sequencer take its turn. -/
theorem perform_read_ne {act : HostAction} {s t : State} (h : perform act s = .next t) {a : Word}
    (hne : t.mem.read a ≠ s.mem.read a) :
    (∃ v, act = .memWrite a v) ∨ (act = .wait ∧ t = s.sequencerTurn) := by
  cases act with
  | mmioWrite size o v => exact absurd (by rw [mmioWrite_mem h]) hne
  | mmioRead size o =>
    obtain ⟨-, rfl⟩ := mmioRead_cases size o s t h
    exact absurd rfl hne
  | memWrite addr v =>
    obtain ⟨rfl, -⟩ := hostMemWrite_cases addr v s t h
    have ha : a = addr := by
      by_contra hother
      exact hne (Memory.read_write_other s.mem addr a v hother)
    exact .inl ⟨v, by rw [ha]⟩
  | memRead addr =>
    obtain ⟨rfl, -⟩ := hostMemRead_cases addr s t h
    exact absurd rfl hne
  | reset =>
    cases h
    exact absurd rfl hne
  | wait =>
    cases h
    exact .inr ⟨rfl, rfl⟩

end Sys2Proof.Machine

namespace Sys2Proof.Proofs

open Sys2Proof Sys2Proof.Machine Sys2Proof.Claim

/-- Settles O49: a step is the sequencer's turn or an action of the outside, and each has its lemma; taking an action from
the list leaves the invariant as it is. -/
theorem onlyPassesWriteMemory : Obligations.OnlyPassesWriteMemory := by
  intro s t hinv hstep a hne
  obtain ⟨hinputs, rfl⟩ | ⟨act, rest, hinputs, hact⟩ := step_cases s t hstep
  · exact .inr ⟨.inl hinputs, State.sequencerTurn_read_ne hinv hne⟩
  · rw [hinputs, List.head?_cons]
    obtain ⟨v, rfl⟩ | ⟨rfl, rfl⟩ := perform_read_ne hact hne
    · exact .inl ⟨v, rfl⟩
    · exact .inr ⟨.inr rfl, State.sequencerTurn_read_ne (s := { s with inputs := rest }) hinv hne⟩

end Sys2Proof.Proofs
end

section
/-! SUPPORT. The opcode table of R75 is the decoder's opcode map written row by row, and what it means for a word to select a
row (R79). -/

namespace Sys2Proof

open Sys2Proof.Claim

theorem field_eq_rdField (w : Word) : field w 22 = rdField w := Fin.ext (rdField_val w).symm

theorem field_eq_raField (w : Word) : field w 18 = raField w := Fin.ext (raField_val w).symm

theorem field_eq_rbField (w : Word) : field w 14 = rbField w := Fin.ext (rbField_val w).symm

/-- The row of R75 that an opcode and its format stand for. -/
def rowOf (op : Nat) (f : Format) : TableRow :=
  { pattern := encodeN (BitVec.ofNat 6 op), mask := 0xFC000000#32 ||| mustBeZero f, command := buildCommand f }

/-- The table has one row for each opcode the decoder knows, and no other row. -/
theorem opcodeTable_eq :
    opcodeTable = (List.range 64).filterMap fun op => (opcodeFormat op).map (rowOf op) := by
  simp only [opcodeTable, rowRRR, rowRR, rowRRS, field_eq_rdField, field_eq_raField, field_eq_rbField, ← shField_eq]
  rfl

theorem mem_opcodeTable_iff (r : TableRow) :
    r ∈ opcodeTable ↔ ∃ op < 64, ∃ f, opcodeFormat op = some f ∧ rowOf op f = r := by
  simp only [opcodeTable_eq, List.mem_filterMap, List.mem_range, Option.map_eq_some_iff]

/-- Two words with the layout of R70 are equal only if their opcodes and their operand bits are. -/
theorem opcode_append_inj (x x' : BitVec 6) (y y' : BitVec 26) : x ++ y = x' ++ y' ↔ x = x' ∧ y = y' := by
  have hy := y.isLt
  have hy' := y'.isLt
  simp only [← BitVec.toNat_inj, toNat_append_eq_add]
  omega

/-- A word is its opcode field followed by its operand bits (R70). -/
theorem word_eq_append (w : Word) : w.extractLsb' 26 6 ++ w.extractLsb' 0 26 = w :=
  BitVec.extractLsb'_append_extractLsb'

/-- No format requires an opcode bit to be zero (R70). -/
theorem mustBeZero_eq_append (f : Format) : mustBeZero f = 0#6 ++ (mustBeZero f).extractLsb' 0 26 := by
  cases f <;> simp [mustBeZero]

/-- The mask of a row covers the opcode and the bits its format requires to be zero (R70, R75). -/
theorem rowOf_mask (op : Nat) (f : Format) :
    (rowOf op f).mask = BitVec.allOnes 6 ++ (mustBeZero f).extractLsb' 0 26 := by
  cases f <;> rfl

/-- R70, R75: a word selects a row when it has the row's opcode and every bit the row's format requires to be zero is. -/
theorem selects_rowOf_iff (w : Word) {op : Nat} (hop : op < 64) (f : Format) :
    w &&& (rowOf op f).mask = (rowOf op f).pattern ↔ opField w = op ∧ w &&& mustBeZero f = 0#32 := by
  have hopcode : opField w = op ↔ w.extractLsb' 26 6 = BitVec.ofNat 6 op := by
    rw [opField, ← BitVec.toNat_inj, BitVec.toNat_ofNat, Nat.mod_eq_of_lt hop]
  have hreserved : w &&& mustBeZero f = 0#32 ↔ w.extractLsb' 0 26 &&& (mustBeZero f).extractLsb' 0 26 = 0#26 := by
    have hzero : 0#32 = 0#6 ++ 0#26 := rfl
    conv_lhs => rw [← word_eq_append w, mustBeZero_eq_append f, BitVec.and_append, BitVec.and_zero, hzero]
    rw [opcode_append_inj, and_iff_right rfl]
  have hmasked : w &&& (rowOf op f).mask =
      w.extractLsb' 26 6 ++ (w.extractLsb' 0 26 &&& (mustBeZero f).extractLsb' 0 26) := by
    conv_lhs => rw [← word_eq_append w, rowOf_mask, BitVec.and_append, BitVec.and_allOnes]
  rw [hmasked, hopcode, hreserved]
  exact opcode_append_inj _ _ _ _

theorem rowOf_pattern_opcode {op : Nat} (hop : op < 64) (f : Format) : (rowOf op f).pattern.toNat / 2 ^ 26 = op := by
  rw [rowOf, encodeN_toNat, BitVec.toNat_ofNat, Nat.mod_eq_of_lt hop, Nat.mul_div_cancel _ (by decide)]

/-- The opcode is the top six bits of a word, so reading it needs no mask (R70). -/
theorem opField_eq_div (w : Word) : opField w = w.toNat / 2 ^ 26 := by
  have hw := w.isLt
  rw [opField_eq]
  omega

/-- The decoder knows none of the opcodes that R79 lists as unassigned. -/
theorem opcodeFormat_of_unassigned {op : Nat} (h : unassigned op) : opcodeFormat op = none := by
  unfold unassigned at h
  unfold opcodeFormat
  split <;> first | omega | rfl

theorem decodeWord_of_format {w : Word} {f : Format} (hf : opcodeFormat (opField w) = some f)
    (hzero : w &&& mustBeZero f = 0#32) : decodeWord w = .ok (buildCommand f w) := by
  simp only [decodeWord, hf, hzero, if_true]

/-- R79: the two kinds of illegal words, an unassigned opcode and a bit set that the format requires to be zero. -/
theorem decodeWord_error_iff (w : Word) : (∃ e, decodeWord w = .error e) ↔
    ∀ f, opcodeFormat (opField w) = some f → w &&& mustBeZero f ≠ 0#32 := by
  unfold decodeWord
  cases opcodeFormat (opField w) with
  | none => simp
  | some f => by_cases hzero : w &&& mustBeZero f = 0#32 <;> simp [hzero]

/-- R75: a word that selects a row is that row's command. -/
theorem decodeWord_of_selects {w : Word} {r : TableRow} (hr : r ∈ opcodeTable) (hw : w &&& r.mask = r.pattern) :
    decodeWord w = .ok (r.command w) := by
  obtain ⟨op, hop, f, hf, rfl⟩ := (mem_opcodeTable_iff r).1 hr
  obtain ⟨rfl, hzero⟩ := (selects_rowOf_iff w hop f).1 hw
  exact decodeWord_of_format hf hzero

/-- R75: a word that selects no row is illegal. -/
theorem decodeWord_error_of_selects_none {w : Word} (hw : ∀ r ∈ opcodeTable, w &&& r.mask ≠ r.pattern) :
    ∃ e, decodeWord w = .error e := by
  refine (decodeWord_error_iff w).2 fun f hf hzero => ?_
  have hop : opField w < 64 := (w.extractLsb' 26 6).isLt
  have hrow : rowOf (opField w) f ∈ opcodeTable := (mem_opcodeTable_iff _).2 ⟨_, hop, f, hf, rfl⟩
  exact hw _ hrow ((selects_rowOf_iff w hop f).2 ⟨rfl, hzero⟩)

/-- R79: a word with a row's opcode that does not select the row is illegal. -/
theorem decodeWord_error_of_opcode {w : Word} {r : TableRow} (hr : r ∈ opcodeTable)
    (hop : w.toNat / 2 ^ 26 = r.pattern.toNat / 2 ^ 26) (hw : w &&& r.mask ≠ r.pattern) :
    ∃ e, decodeWord w = .error e := by
  obtain ⟨op, hlt, f, hf, rfl⟩ := (mem_opcodeTable_iff r).1 hr
  rw [rowOf_pattern_opcode hlt, ← opField_eq_div] at hop
  refine (decodeWord_error_iff w).2 fun f' hf' hzero => ?_
  obtain rfl : f = f' := Option.some.inj (hf.symm.trans (hop ▸ hf'))
  exact hw ((selects_rowOf_iff w hlt f).2 ⟨hop, hzero⟩)

end Sys2Proof
end

section
/-! SUPPORT. The branches of R78: what a word written to CMD does, one lemma for each. -/

namespace Sys2Proof.Machine

open Sys2Proof Sys2Proof.Claim

variable {s : State}

theorem exec_li (rd : Reg) (imm : Word) (s : State) :
    exec (.li rd imm) s = .next ((s.acceptLoad rd).acceptImmediate imm) := rfl

/-- R76: LI's command word changes no more than LIPEND and LIRD. -/
theorem State.acceptLoad_frame (s : State) (rd : Reg) : SameRegisters s (s.acceptLoad rd) ∧
    SameControl s (s.acceptLoad rd) ∧ SameEvents s (s.acceptLoad rd) ∧ SamePass s (s.acceptLoad rd) ∧
    SameMemory s (s.acceptLoad rd) ∧ SameOutside s (s.acceptLoad rd) :=
  ⟨⟨fun _ => rfl, fun _ => rfl⟩, rfl, ⟨rfl, rfl, rfl⟩, ⟨rfl, rfl⟩, fun _ => rfl, rfl, rfl⟩

theorem writeCommand_of_busy (w : Word) (hbusy : s.busy = true) :
    writeCommand w s = .next (s.record .writeWhileBusy) := if_pos hbusy

theorem writeCommand_of_lipend (w : Word) (hidle : s.busy = false) (hlipend : s.lipend = true) :
    writeCommand w s = exec (.li s.lird w) s := by
  simp only [writeCommand, hidle, hlipend, Bool.false_eq_true, if_false, if_true]

/-- Without a pass or a pending LI, a word written to CMD is decoded. -/
theorem writeCommand_of_idle (w : Word) (hidle : s.busy = false) (hlipend : s.lipend = false) :
    writeCommand w s = runCommandWord w s := by
  simp only [writeCommand, hidle, hlipend, Bool.false_eq_true, if_false]

theorem runCommandWord_error {w : Word} {e : DecodeError} (h : decodeWord w = .error e) (s : State) :
    runCommandWord w s = .next (s.record .illegalCommand) := by
  simp only [runCommandWord, h]

theorem runCommandWord_command {w : Word} {i : Instr} (h : decodeWord w = .ok (.command i)) (s : State) :
    runCommandWord w s = exec i s := by
  simp only [runCommandWord, h]

theorem runCommandWord_needsImmediate {w : Word} {rd : Reg} (h : decodeWord w = .ok (.needsImmediate rd)) (s : State) :
    runCommandWord w s = .next (s.acceptLoad rd) := by
  simp only [runCommandWord, h]

/-- R79, R151: what an illegal word does to an idle block with no LI pending. -/
theorem mmioWrite_cmd_illegal {w : Word} {e : DecodeError} (he : decodeWord w = .error e) (hidle : s.busy = false)
    (hlipend : s.lipend = false) : ∃ t, mmioWrite .word 0x0C#8 w s = .next t ∧ t.ill = true ∧ t.werr = s.werr ∧
      t.cfgerr = s.cfgerr ∧ OnlyEvents s t := by
  refine ⟨s.record .illegalCommand, ?_, by simp, by simp, by simp, s.record_onlyEvents _⟩
  rw [mmioWrite_cmd, writeCommand_of_idle w hidle hlipend, runCommandWord_error he]

end Sys2Proof.Machine

namespace Sys2Proof.Proofs

open Sys2Proof Sys2Proof.Machine Sys2Proof.Claim

/-- Settles O36: the table is the decoder's opcode map, so the row a word selects is the one of its opcode. -/
theorem decodeFollowsOpcodeTable : Obligations.DecodeFollowsOpcodeTable := fun _ =>
  ⟨fun _ => decodeWord_of_selects, decodeWord_error_of_selects_none⟩

/-- Settles O37: both kinds of illegal words are refused by the decoder, and a refused word is recorded. -/
theorem illegalWordSetsIllOnly : Obligations.IllegalWordSetsIllOnly := by
  refine ⟨fun w hop => ?_, fun _ _ => decodeWord_error_of_opcode, fun _ _ _ => mmioWrite_cmd_illegal⟩
  rw [← opField_eq_div] at hop
  refine (decodeWord_error_iff w).2 fun f hf => ?_
  rw [opcodeFormat_of_unassigned hop] at hf
  contradiction

/-- Settles O19: LI's two steps, naming the register and accepting the immediate, taken at once. -/
theorem loadImmediateCompletes : Obligations.LoadImmediateCompletes := fun rd imm s =>
  ⟨_, exec_li rd imm s, fun r => (s.acceptLoad rd).acceptImmediate_reg r imm, fun r => s.setReg_wasWritten rd r imm,
    rfl, rfl, rfl, ⟨rfl, rfl, rfl⟩, ⟨rfl, rfl⟩, fun _ => rfl, rfl, rfl⟩

/-- Settles O41: the branches of R78 in their order, where a word that reaches the decoder does what the row it selects
says, and LI's immediate word completes the LI of the register that LIRD names. -/
theorem commandWriteProcessing : Obligations.CommandWriteProcessing := by
  intro w s
  rw [mmioWrite_cmd]
  refine ⟨fun hbusy => ?_, fun hidle hlipend => ?_, fun hidle hlipend => ⟨fun hnone => ?_, fun r hr hw => ?_⟩⟩
  · exact ⟨_, writeCommand_of_busy w hbusy, by simp, by simp, by simp, s.record_onlyEvents _⟩
  · rw [writeCommand_of_lipend w hidle hlipend]
    obtain ⟨t, ht, hreg, -, hlipend', hlird, hframe⟩ := loadImmediateCompletes s.lird w s
    exact ⟨t, ht, hreg, hlipend', hlird, hframe⟩
  · obtain ⟨e, he⟩ := decodeWord_error_of_selects_none hnone
    exact mmioWrite_cmd_illegal he hidle hlipend
  · have hdecode := decodeWord_of_selects hr hw
    rw [writeCommand_of_idle w hidle hlipend]
    refine ⟨fun i hi => runCommandWord_command (hi ▸ hdecode) s, fun d hd => ?_⟩
    exact ⟨_, runCommandWord_needsImmediate (hd ▸ hdecode) s, rfl, rfl, s.acceptLoad_frame d⟩

end Sys2Proof.Proofs
end

section
/-! SUPPORT. The words of R70 written as sums are the encoder's words, and the decoder answers them with their command and
operand fields (R71, R72, R75). -/

namespace Sys2Proof

open Sys2Proof.Claim

section fields

variable (op : BitVec 6) (rd ra rb : Reg) (k : Nat)

@[simp] theorem rdField_encodeRRR : rdField (encodeRRR op rd ra rb) = rd := by
  apply Fin.ext; rw [rdField_val, encodeRRR_toNat]; omega

@[simp] theorem raField_encodeRRR : raField (encodeRRR op rd ra rb) = ra := by
  apply Fin.ext; rw [raField_val, encodeRRR_toNat]; omega

@[simp] theorem rbField_encodeRRR : rbField (encodeRRR op rd ra rb) = rb := by
  apply Fin.ext; rw [rbField_val, encodeRRR_toNat]; omega

@[simp] theorem rdField_encodeRR : rdField (encodeRR op rd ra) = rd := by
  apply Fin.ext; rw [rdField_val, encodeRR_toNat]; omega

@[simp] theorem raField_encodeRR : raField (encodeRR op rd ra) = ra := by
  apply Fin.ext; rw [raField_val, encodeRR_toNat]; omega

@[simp] theorem rdField_encodeRRS : rdField (encodeRRS op rd ra k) = rd := by
  apply Fin.ext; rw [rdField_val, encodeRRS_toNat]; omega

@[simp] theorem raField_encodeRRS : raField (encodeRRS op rd ra k) = ra := by
  apply Fin.ext; rw [raField_val, encodeRRS_toNat]; omega

theorem shField_encodeRRS {k : Nat} (hk : k < 32) : shField (encodeRRS op rd ra k) = k := by
  rw [shField_eq, encodeRRS_toNat]; omega

end fields

/-! The bits that each layout of R70 requires to be zero are its last ones, but for RRS, where the shift count follows. -/

theorem encodeRRR_and_mustBeZero (op : BitVec 6) (rd ra rb : Reg) (mk : Reg → Reg → Reg → Instr) :
    encodeRRR op rd ra rb &&& mustBeZero (.rrr mk) = 0#32 := by
  have hmask : mustBeZero (.rrr mk) = 0#18 ++ BitVec.allOnes 14 := rfl
  rw [hmask, encodeRRR, BitVec.and_append, BitVec.and_zero, BitVec.zero_and, BitVec.zero_append_zero]

theorem encodeRR_and_mustBeZero (op : BitVec 6) (rd ra : Reg) (mk : Reg → Reg → Instr) :
    encodeRR op rd ra &&& mustBeZero (.rr mk) = 0#32 := by
  have hmask : mustBeZero (.rr mk) = 0#14 ++ BitVec.allOnes 18 := rfl
  rw [hmask, encodeRR, BitVec.and_append, BitVec.and_zero, BitVec.zero_and, BitVec.zero_append_zero]

theorem encodeRRS_and_mustBeZero (op : BitVec 6) (rd ra : Reg) (k : Nat) (mk : Reg → Reg → Nat → Instr) :
    encodeRRS op rd ra k &&& mustBeZero (.rrs mk) = 0#32 := by
  have hmask : mustBeZero (.rrs mk) = 0#14 ++ BitVec.allOnes 13 ++ 0#5 := rfl
  rw [hmask, encodeRRS, BitVec.and_append, BitVec.and_append, BitVec.and_zero, BitVec.zero_and, BitVec.and_zero,
    BitVec.zero_append_zero, BitVec.zero_append_zero]

/-! Decoding the encoder's words. -/

theorem decodeWord_encodeRRR {op : BitVec 6} {mk : Reg → Reg → Reg → Instr}
    (hop : opcodeFormat op.toNat = some (.rrr mk)) (rd ra rb : Reg) :
    decodeWord (encodeRRR op rd ra rb) = .ok (.command (mk rd ra rb)) := by
  rw [decodeWord_of_format ((opField_encodeRRR op rd ra rb).symm ▸ hop) (encodeRRR_and_mustBeZero op rd ra rb mk)]
  simp [buildCommand]

theorem decodeWord_encodeRR {op : BitVec 6} {mk : Reg → Reg → Instr}
    (hop : opcodeFormat op.toNat = some (.rr mk)) (rd ra : Reg) :
    decodeWord (encodeRR op rd ra) = .ok (.command (mk rd ra)) := by
  rw [decodeWord_of_format ((opField_encodeRR op rd ra).symm ▸ hop) (encodeRR_and_mustBeZero op rd ra mk)]
  simp [buildCommand]

theorem decodeWord_encodeRRS {op : BitVec 6} {mk : Reg → Reg → Nat → Instr}
    (hop : opcodeFormat op.toNat = some (.rrs mk)) (rd ra : Reg) {k : Nat} (hk : k < 32) :
    decodeWord (encodeRRS op rd ra k) = .ok (.command (mk rd ra k)) := by
  rw [decodeWord_of_format ((opField_encodeRRS op rd ra k).symm ▸ hop) (encodeRRS_and_mustBeZero op rd ra k mk)]
  simp [buildCommand, shField_encodeRRS op rd ra hk]

/-! The statements' words are the encoder's. -/

theorem rrr_eq_encodeRRR (op : BitVec 6) (rd ra rb : Reg) : rrr op.toNat rd ra rb = encodeRRR op rd ra rb := by
  rw [rrr, ← encodeRRR_toNat, BitVec.ofNat_toNat, BitVec.setWidth_eq]

theorem rr_eq_encodeRR (op : BitVec 6) (rd ra : Reg) : rr op.toNat rd ra = encodeRR op rd ra := by
  rw [rr, ← encodeRR_toNat, BitVec.ofNat_toNat, BitVec.setWidth_eq]

theorem rrs_eq_encodeRRS (op : BitVec 6) (rd ra : Reg) (k : Fin 32) : rrs op.toNat rd ra k = encodeRRS op rd ra k := by
  have hword := encodeRRS_toNat op rd ra k
  rw [Nat.mod_eq_of_lt k.isLt] at hword
  rw [rrs, ← hword, BitVec.ofNat_toNat, BitVec.setWidth_eq]

/-- R70, R75: a word of format RRR is the command of its opcode with the operands of its fields. -/
theorem decodeWord_rrr (op : BitVec 6) {mk : Reg → Reg → Reg → Instr} (hop : opcodeFormat op.toNat = some (.rrr mk))
    (rd ra rb : Reg) : decodeWord (rrr op.toNat rd ra rb) = .ok (.command (mk rd ra rb)) := by
  rw [rrr_eq_encodeRRR, decodeWord_encodeRRR hop]

/-- R70, R75: a word of format RR is the command of its opcode with the operands of its fields. -/
theorem decodeWord_rr (op : BitVec 6) {mk : Reg → Reg → Instr} (hop : opcodeFormat op.toNat = some (.rr mk))
    (rd ra : Reg) : decodeWord (rr op.toNat rd ra) = .ok (.command (mk rd ra)) := by
  rw [rr_eq_encodeRR, decodeWord_encodeRR hop]

/-- R70, R72, R75: a word of format RRS is the command of its opcode with the operands and the count of its fields. -/
theorem decodeWord_rrs (op : BitVec 6) {mk : Reg → Reg → Nat → Instr} (hop : opcodeFormat op.toNat = some (.rrs mk))
    (rd ra : Reg) (k : Fin 32) : decodeWord (rrs op.toNat rd ra k) = .ok (.command (mk rd ra k)) := by
  rw [rrs_eq_encodeRRS, decodeWord_encodeRRS hop rd ra k.isLt]

end Sys2Proof
end

section
/-! SUPPORT. A command of an operand form of R71 completes and writes Rd only (R18, R100). -/

namespace Sys2Proof.Machine

open Sys2Proof Sys2Proof.Claim

/-- The frame of every write to a general register. -/
theorem State.setReg_writesOnly (s : State) (rd : Reg) (v : Word) : WritesOnly s (s.setReg rd v) rd v :=
  ⟨fun r => s.setReg_reg rd r v, fun r => s.setReg_wasWritten rd r v, rfl, ⟨rfl, rfl⟩, ⟨rfl, rfl, rfl⟩, ⟨rfl, rfl⟩,
    fun _ => rfl, rfl, rfl⟩

theorem computes_of_exec {i : Instr} {rd : Reg} {v : State → Word}
    (h : ∀ s, exec i s = .next (s.setReg rd (v s))) : Computes i rd v :=
  fun s => ⟨_, h s, s.setReg_writesOnly rd (v s)⟩

/-- A command of format RRR whose function is `g` computes `g` of its sources. -/
theorem computes_of_writeBinary {i : Instr} {rd ra rb : Reg} {f g : Word → Word → Word}
    (h : ∀ s, exec i s = .next (s.writeBinary f rd ra rb)) (hfg : ∀ a b, f a b = g a b) :
    Computes i rd (fun s => g (s.reg ra) (s.reg rb)) :=
  computes_of_exec fun s => by rw [h, State.writeBinary, hfg]

/-- A command of format RR whose function is `g` computes `g` of its source. -/
theorem computes_of_writeUnary {i : Instr} {rd ra : Reg} {f g : Word → Word}
    (h : ∀ s, exec i s = .next (s.writeUnary f rd ra)) (hfg : ∀ a, f a = g a) :
    Computes i rd (fun s => g (s.reg ra)) :=
  computes_of_exec fun s => by rw [h, State.writeUnary, hfg]

/-- A command of format RRS whose function is `g` computes `g` of its source and its count. -/
theorem computes_of_writeShift {i : Instr} {rd ra : Reg} {k : Nat} {f g : Word → Nat → Word}
    (h : ∀ s, exec i s = .next (s.writeShift f rd ra k)) (hfg : ∀ a k, f a k = g a k) :
    Computes i rd (fun s => g (s.reg ra) k) :=
  computes_of_exec fun s => by rw [h, State.writeShift, hfg]

end Sys2Proof.Machine
end

section
/-! SUPPORT. `s32` of R10: arithmetic on patterns is arithmetic on integers, wrapped once at the end (R97). -/

namespace Sys2Proof.Claim

open Sys2Proof

@[simp] theorem s32_toInt (a : Word) : s32 a.toInt = a := BitVec.ofInt_toInt

theorem s32_add (x y : Int) : s32 (x + y) = s32 x + s32 y := BitVec.ofInt_add x y

theorem s32_sub (x y : Int) : s32 (x - y) = s32 x - s32 y := by
  rw [eq_sub_iff_add_eq, ← s32_add, sub_add_cancel]

theorem s32_mul (x y : Int) : s32 (x * y) = s32 x * s32 y := BitVec.ofInt_mul x y

theorem s32_two_pow (k : Nat) : s32 (2 ^ k) = BitVec.twoPow 32 k := by
  have hcast : ((2 ^ k : Nat) : Int) = 2 ^ k := Nat.cast_pow 2 k
  rw [s32, ← hcast, BitVec.ofInt_natCast]
  apply BitVec.eq_of_toNat_eq
  rw [BitVec.toNat_ofNat, BitVec.toNat_twoPow]

/-- R10: `s32` keeps an integer that fits. -/
theorem toInt_s32_of_fits {v : Int} (hlo : -2 ^ 31 ≤ v) (hhi : v < 2 ^ 31) : (s32 v).toInt = v :=
  BitVec.toInt_ofInt_eq_self (by decide) hlo hhi

/-- The signed and the unsigned reading of a pattern agree modulo a power of two up to 2^32. -/
theorem toInt_emod_two_pow (a : Word) {m : Nat} (hm : m ≤ 32) : a.toInt % 2 ^ m = (a.toNat % 2 ^ m : Nat) := by
  have hdvd : (2 : Int) ^ m ∣ (2 ^ 32 : Nat) := by exact_mod_cast Nat.pow_dvd_pow 2 hm
  rw [BitVec.toInt_eq_toNat_bmod, ← Int.emod_emod_of_dvd _ hdvd, Int.bmod_emod, Int.emod_emod_of_dvd _ hdvd]
  norm_cast

end Sys2Proof.Claim
end

section
/-! SUPPORT. The functions of the FXU in the integer arithmetic of the rules (R83 to R96). -/

namespace Sys2Proof.Machine

open Sys2Proof Sys2Proof.Claim

/-- R83. -/
theorem fxAdd_eq_s32 (a b : Word) : fxAdd a b = s32 (a.toInt + b.toInt) := by
  rw [s32_add, s32_toInt, s32_toInt, fxAdd]

/-- R84. -/
theorem fxSub_eq_s32 (a b : Word) : fxSub a b = s32 (a.toInt - b.toInt) := by
  rw [s32_sub, s32_toInt, s32_toInt, fxSub]

/-- R85, R86: the integer operand at the scale of FP10. -/
theorem s32_mul_scale (n : Word) : s32 (n.toInt * 1024) = n * 1024#32 := by
  rw [s32_mul, s32_toInt]
  rfl

/-- R85, with the scaled operand wrapped first. -/
theorem fxAddi_eq_s32_add (a n : Word) : fxAddi a n = s32 (a.toInt + (s32 (n.toInt * 1024)).toInt) := by
  rw [s32_add, s32_toInt, s32_toInt, s32_mul_scale, fxAddi]

/-- R86, with the scaled operand wrapped first. -/
theorem fxSubi_eq_s32_sub (a n : Word) : fxSubi a n = s32 (a.toInt - (s32 (n.toInt * 1024)).toInt) := by
  rw [s32_sub, s32_toInt, s32_toInt, s32_mul_scale, fxSubi]

/-- R85. -/
theorem fxAddi_eq_s32 (a n : Word) : fxAddi a n = s32 (a.toInt + n.toInt * 1024) := by
  rw [s32_add, s32_toInt, s32_mul_scale, fxAddi]

/-- R86. -/
theorem fxSubi_eq_s32 (a n : Word) : fxSubi a n = s32 (a.toInt - n.toInt * 1024) := by
  rw [s32_sub, s32_toInt, s32_mul_scale, fxSubi]

/-- R88. -/
theorem fxMuli_eq_s32 (a n : Word) : fxMuli a n = s32 (a.toInt * n.toInt) := by
  rw [s32_mul, s32_toInt, s32_toInt, fxMuli]

/-- R89(d): a zero divisor. -/
theorem fxDivi_zero (a : Word) : fxDivi a 0#32 = 0#32 := if_pos rfl

/-- R89: the wrap matters for −2^31 divided by −1 only. -/
theorem fxDivi_of_ne_zero (a : Word) {n : Word} (hn : n ≠ 0#32) : fxDivi a n = s32 (Int.tdiv a.toInt n.toInt) := by
  apply BitVec.eq_of_toInt_eq
  rw [fxDivi, if_neg hn, BitVec.toInt_sdiv, s32, BitVec.toInt_ofInt]

/-- R89, both cases. -/
theorem fxDivi_eq_ite (a n : Word) :
    fxDivi a n = if n.toInt = 0 then 0#32 else s32 (Int.tdiv a.toInt n.toInt) := by
  have hzero : n.toInt = 0 ↔ n = 0#32 := BitVec.toInt_inj (y := 0#32)
  split
  · next h => rw [hzero.1 h, fxDivi_zero]
  · next h => exact fxDivi_of_ne_zero a fun e => h (hzero.2 e)

/-- R90. -/
theorem fxShl_eq_s32 (a : Word) (k : Nat) : fxShl a k = s32 (a.toInt * 2 ^ k) := by
  rw [s32_mul, s32_toInt, s32_two_pow, fxShl, BitVec.shiftLeft_eq_mul_twoPow]

/-- R91: an arithmetic right shift rounds toward −∞ and never wraps. -/
theorem toInt_fxShr (a : Word) (k : Nat) : (fxShr a k).toInt = a.toInt / 2 ^ k := by
  rw [fxShr, BitVec.toInt_sshiftRight, Int.shiftRight_eq_div_pow, Nat.cast_pow, Nat.cast_ofNat]

/-- R91. -/
theorem fxShr_eq_s32 (a : Word) (k : Nat) : fxShr a k = s32 (a.toInt / 2 ^ k) := by
  rw [← toInt_fxShr, s32_toInt]

/-- R92: the mask of all bits below `m` takes the value modulo 2^m. -/
theorem toInt_fxAnd_mask (a : Word) {m : Nat} (hm : m < 32) : (fxAnd a (s32 (2 ^ m - 1))).toInt = a.toInt % 2 ^ m := by
  have hpow : 2 ^ m ≤ 2 ^ 31 := Nat.pow_le_pow_right (by decide) (by omega)
  have hpos : 0 < 2 ^ m := Nat.two_pow_pos m
  have hmask : (s32 (2 ^ m - 1)).toNat = 2 ^ m - 1 := by
    have hcast : ((2 ^ m - 1 : Nat) : Int) = 2 ^ m - 1 := by push_cast [Nat.one_le_two_pow]; rfl
    rw [s32, ← hcast, BitVec.ofInt_natCast, BitVec.toNat_ofNat, Nat.mod_eq_of_lt (by omega)]
  have hand : (fxAnd a (s32 (2 ^ m - 1))).toNat = a.toNat % 2 ^ m := by
    rw [fxAnd, BitVec.toNat_and, hmask, Nat.and_two_pow_sub_one_eq_mod]
  have hlt : a.toNat % 2 ^ m < 2 ^ m := Nat.mod_lt _ hpos
  rw [toInt_emod_two_pow a hm.le, BitVec.toInt_eq_toNat_of_lt (by omega), hand]

/-- R92: the mask `S·1024 − 1` takes a coordinate modulo `S`, for every side `S` = 2^n whose mask is positive. -/
theorem toInt_fxAnd_side (a : Word) (n : Fin 22) :
    (fxAnd a (s32 (2 ^ n.val * 1024 - 1))).toInt = a.toInt % (2 ^ n.val * 1024) := by
  have hside : (2 : Int) ^ n.val * 1024 = 2 ^ (n.val + 10) := by rw [pow_add]; rfl
  rw [hside]
  exact toInt_fxAnd_mask a (by omega)

/-- R94. -/
theorem toInt_fxFract (a : Word) : (fxFract a).toInt = a.toInt % 1024 := toInt_fxAnd_mask a (m := 10) (by decide)

/-- R94. -/
theorem fxFract_eq_s32 (a : Word) : fxFract a = s32 (a.toInt % 1024) := by
  rw [← toInt_fxFract, s32_toInt]

/-- R95: the two masks select disjoint bits whose union is all 32. -/
theorem fxFloor_add_fxFract (a : Word) : fxFloor a + fxFract a = a := by
  have hdisjoint : fxFloor a &&& fxFract a = 0#32 := calc
    fxFloor a &&& fxFract a = a &&& (0xFFFFFC00#32 &&& 0x000003FF#32) := by unfold fxFloor fxFract; ac_rfl
    _ = 0#32 := BitVec.and_zero
  rw [BitVec.add_eq_or_of_and_eq_zero _ _ hdisjoint, fxFloor, fxFract, ← BitVec.and_or_distrib_left]
  exact BitVec.and_allOnes

/-- R93: the floor is what the fraction leaves. -/
theorem fxFloor_eq_s32 (a : Word) : fxFloor a = s32 (1024 * (a.toInt / 1024)) := by
  have hfloor : fxFloor a = a - fxFract a := eq_sub_of_add_eq (fxFloor_add_fxFract a)
  have hsplit : 1024 * (a.toInt / 1024) = a.toInt - (fxFract a).toInt := by
    rw [toInt_fxFract]; omega
  rw [hsplit, s32_sub, s32_toInt, s32_toInt, hfloor]

/-- R93: the floor fits in 32 bits. -/
theorem toInt_fxFloor (a : Word) : (fxFloor a).toInt = 1024 * (a.toInt / 1024) := by
  have hlo := a.le_toInt
  have hhi := a.toInt_lt
  rw [fxFloor_eq_s32]
  exact toInt_s32_of_fits (by omega) (by omega)

/-- R93: the floor is not above the value. -/
theorem toInt_fxFloor_le (a : Word) : (fxFloor a).toInt ≤ a.toInt := by
  rw [toInt_fxFloor]; omega

/-- A shift back by `k` lands in the range of R96, whatever was shifted. -/
theorem toInt_fxShr_range (a : Word) {k : Nat} (hk : k < 32) :
    -2 ^ (31 - k) ≤ (fxShr a k).toInt ∧ (fxShr a k).toInt < 2 ^ (31 - k) := by
  have hpos : (0 : Int) < 2 ^ k := by positivity
  have hmul : (2 : Int) ^ (31 - k) * 2 ^ k = 2 ^ 31 := pow_sub_mul_pow 2 (by omega)
  rw [toInt_fxShr, Int.le_ediv_iff_mul_le hpos, Int.ediv_lt_iff_lt_mul hpos, neg_mul, hmul]
  exact ⟨a.le_toInt, a.toInt_lt⟩

/-- R96: in the range the left shift does not overflow, so it multiplies exactly. -/
theorem toInt_fxShl_of_range {x : Word} {k : Nat} (hk : k < 32) (hlo : -2 ^ (31 - k) ≤ x.toInt)
    (hhi : x.toInt < 2 ^ (31 - k)) : (fxShl x k).toInt = x.toInt * 2 ^ k := by
  have hpos : (0 : Int) < 2 ^ k := by positivity
  have hmul : (2 : Int) ^ (31 - k) * 2 ^ k = 2 ^ 31 := pow_sub_mul_pow 2 (by omega)
  rw [fxShl_eq_s32]
  refine toInt_s32_of_fits ?_ ?_
  · rw [← hmul, ← neg_mul]
    exact Int.mul_le_mul_of_nonneg_right hlo hpos.le
  · rw [← hmul]
    exact Int.mul_lt_mul_of_pos_right hhi hpos

end Sys2Proof.Machine

namespace Sys2Proof.Proofs

open Sys2Proof Sys2Proof.Machine Sys2Proof.Claim

/-- Settles O10: every result of a right shift by `k` is in the range, and in the range the left shift is exact. -/
theorem shiftRoundTripRange : Obligations.ShiftRoundTripRange := by
  intro x k
  rw [Int.le_sub_one_iff]
  constructor
  · intro hround
    have hrange := toInt_fxShr_range (fxShl x k) k.isLt
    rwa [hround] at hrange
  · rintro ⟨hlo, hhi⟩
    apply BitVec.eq_of_toInt_eq
    rw [toInt_fxShr, toInt_fxShl_of_range k.isLt hlo hhi, Int.mul_ediv_cancel _ (by positivity)]

/-- Settles O1, by R83 and R84 in wrapped integers. -/
theorem addAndSubtractWrap : Obligations.AddAndSubtractWrap :=
  ⟨fun a b => ⟨fxAdd_eq_s32 a b, fxSub_eq_s32 a b⟩, fun rd ra rb =>
    ⟨decodeWord_rrr 0x01#6 rfl rd ra rb, decodeWord_rrr 0x02#6 rfl rd ra rb,
      computes_of_writeBinary (fun _ => rfl) fxAdd_eq_s32, computes_of_writeBinary (fun _ => rfl) fxSub_eq_s32⟩⟩

/-- Settles O2: the scaled operand may be wrapped before the sum or with it. -/
theorem addAndSubtractIntegerScale : Obligations.AddAndSubtractIntegerScale :=
  ⟨fun a n => ⟨fxAddi_eq_s32 a n, fxSubi_eq_s32 a n⟩, fun rd ra rb =>
    ⟨decodeWord_rrr 0x03#6 rfl rd ra rb, decodeWord_rrr 0x04#6 rfl rd ra rb,
      computes_of_writeBinary (fun _ => rfl) fxAddi_eq_s32_add,
      computes_of_writeBinary (fun _ => rfl) fxSubi_eq_s32_sub⟩⟩

/-- Settles O4, by R88 in wrapped integers. -/
theorem multiplyIntegerWraps : Obligations.MultiplyIntegerWraps :=
  ⟨fxMuli_eq_s32, fun rd ra rb =>
    ⟨decodeWord_rrr 0x06#6 rfl rd ra rb, computes_of_writeBinary (fun _ => rfl) fxMuli_eq_s32⟩⟩

/-- Settles O5: the zero divisor and the truncated quotient, in one function for the command. -/
theorem divideTruncatesTowardZero : Obligations.DivideTruncatesTowardZero :=
  ⟨fxDivi_zero, fun a _ => fxDivi_of_ne_zero a, fun rd ra rb =>
    ⟨decodeWord_rrr 0x07#6 rfl rd ra rb, computes_of_writeBinary (fun _ => rfl) fxDivi_eq_ite⟩⟩

/-- Settles O6: a left shift is a wrapped product with a power of two. -/
theorem shiftLeftMultiplies : Obligations.ShiftLeftMultiplies :=
  ⟨fxShl_eq_s32, fun rd ra k =>
    ⟨decodeWord_rrs 0x08#6 rfl rd ra k, computes_of_writeShift (fun _ => rfl) fxShl_eq_s32⟩⟩

/-- Settles O7: an arithmetic right shift is a floored quotient. -/
theorem shiftRightFloors : Obligations.ShiftRightFloors :=
  ⟨fxShr_eq_s32, fun rd ra k =>
    ⟨decodeWord_rrs 0x09#6 rfl rd ra k, computes_of_writeShift (fun _ => rfl) fxShr_eq_s32⟩⟩

/-- Settles O8: the mask of a side keeps the low bits, so it takes the value modulo the side. -/
theorem andMasksRawPattern : Obligations.AndMasksRawPattern :=
  ⟨fun _ _ _ => BitVec.getLsbD_and, toInt_fxAnd_side, fun rd ra rb =>
    ⟨decodeWord_rrr 0x0A#6 rfl rd ra rb, computes_of_writeBinary (fun _ => rfl) fun _ _ => rfl⟩⟩

/-- Settles O9: the fraction is the value modulo 1024, and the floor is what it leaves. -/
theorem floorAndFractionSplit : Obligations.FloorAndFractionSplit :=
  ⟨fun a => ⟨fxFloor_eq_s32 a, toInt_fxFloor_le a, rfl⟩, fun a => ⟨fxFract_eq_s32 a, rfl⟩,
    fun x => by rw [← fxAdd_eq_s32]; exact fxFloor_add_fxFract x,
    fun rd ra =>
      ⟨decodeWord_rr 0x0B#6 rfl rd ra, decodeWord_rr 0x0C#6 rfl rd ra,
        computes_of_writeUnary (fun _ => rfl) fxFloor_eq_s32, computes_of_writeUnary (fun _ => rfl) fxFract_eq_s32⟩⟩

end Sys2Proof.Proofs
end

section
/-! SUPPORT. The conversion functions between FP10, integers and bytes in the integer arithmetic of the rules (R101 to
R107). The shifts of R101 and R105 are those of FSHL and FSHR by 10. -/

namespace Sys2Proof.Claim

/-- R10: `s32` of the unsigned reading of a pattern extends or cuts the pattern to 32 bits. -/
theorem s32_toNat {w : Nat} (v : BitVec w) : s32 v.toNat = v.setWidth 32 := by
  rw [s32, BitVec.ofInt_natCast, BitVec.ofNat_toNat]

end Sys2Proof.Claim

namespace Sys2Proof.Machine

open Sys2Proof Sys2Proof.Claim

/-- R101. -/
theorem fxFromInt_eq_s32 (n : Word) : fxFromInt n = s32 (n.toInt * 1024) := fxShl_eq_s32 n 10

/-- R102. -/
theorem fxFromUnsigned_eq_s32 (u : Word) : fxFromUnsigned u = s32 (u.toNat * 1024) :=
  (BitVec.ofInt_natCast 32 (u.toNat * 1024)).symm

/-- R113: the signed and the unsigned reading differ by a multiple of 2^32. -/
theorem fxFromInt_eq_fxFromUnsigned (n : Word) : fxFromInt n = fxFromUnsigned n := by
  rw [fxFromInt_eq_s32, fxFromUnsigned_eq_s32, s32_mul, s32_mul, s32_toInt, s32_toNat, BitVec.setWidth_eq]

/-- R103. -/
theorem fxFromByte_eq_s32 (v : Byte) : fxFromByte v = s32 (v.toNat * 1024) := by
  rw [s32_mul, s32_toNat]
  rfl

/-- R103: the byte FROMB reads is the low one of its register. -/
theorem fxFromByte_lowByte_eq_s32 (w : Word) : fxFromByte (lowByte w) = s32 ((w.toNat % 256 : Nat) * 1024) := by
  rw [fxFromByte_eq_s32, lowByte, BitVec.toNat_setWidth]

/-- R103: a scaled byte fits in 32 bits. -/
theorem toInt_fxFromByte (v : Byte) : (fxFromByte v).toInt = v.toNat * 1024 := by
  have hlt := v.isLt
  rw [fxFromByte_eq_s32]
  exact toInt_s32_of_fits (by omega) (by omega)

/-- R105: the floor fits in 32 bits. -/
theorem toInt_fxToInt (a : Word) : (fxToInt a).toInt = a.toInt / 1024 := toInt_fxShr a 10

/-- R105. -/
theorem fxToInt_eq_s32 (a : Word) : fxToInt a = s32 (a.toInt / 1024) := fxShr_eq_s32 a 10

/-- R106, R113: the unsigned result has the same pattern. -/
theorem fxToUnsigned_eq_fxToInt (a : Word) : fxToUnsigned a = fxToInt a := rfl

/-- R107: the low byte of the integer part is the integer part modulo 256. -/
theorem toNat_fxToByte (a : Word) : ((fxToByte a).toNat : Int) = a.toInt / 1024 % 256 := calc
  ((fxToByte a).toNat : Int) = ((fxToInt a).toNat % 2 ^ 8 : Nat) := congrArg _ (BitVec.toNat_setWidth 8 (fxToInt a))
  _ = (fxToInt a).toInt % 2 ^ 8 := (toInt_emod_two_pow (fxToInt a) (by decide)).symm
  _ = a.toInt / 1024 % 256 := by rw [toInt_fxToInt]; rfl

/-- R107: the byte is zero-extended into Rd. -/
theorem zeroExtend_fxToByte (a : Word) : (fxToByte a).zeroExtend 32 = s32 (a.toInt / 1024 % 256) := by
  rw [← toNat_fxToByte, s32_toNat, BitVec.zeroExtend_eq_setWidth]

/-- R112: a byte comes back as an integer. -/
theorem toInt_fxToInt_fxFromByte (v : Byte) : (fxToInt (fxFromByte v)).toInt = v.toNat := by
  rw [toInt_fxToInt, toInt_fxFromByte, Int.mul_ediv_cancel _ (by decide)]

/-- R112: a byte comes back as a byte. -/
theorem fxToByte_fxFromByte (v : Byte) : fxToByte (fxFromByte v) = v := by
  have hlt := v.isLt
  have hround := toNat_fxToByte (fxFromByte v)
  rw [← toInt_fxToInt, toInt_fxToInt_fxFromByte] at hround
  exact BitVec.eq_of_toNat_eq (by omega)

end Sys2Proof.Machine

namespace Sys2Proof.Proofs

open Sys2Proof Sys2Proof.Machine Sys2Proof.Claim

/-- Settles O17: the integer round trip is FSHL and FSHR by 10, so its range is that of R96. -/
theorem conversionRoundTrips : Obligations.ConversionRoundTrips :=
  ⟨fun n => shiftRoundTripRange n 10, fun v => ⟨fxToByte_fxFromByte v, toInt_fxToInt_fxFromByte v⟩,
    fun n => ⟨fxFromInt_eq_fxFromUnsigned n, (fxToUnsigned_eq_fxToInt n).symm⟩⟩

/-- Settles O11, by R101 and R102 in wrapped integers. -/
theorem integersBecomeFixed : Obligations.IntegersBecomeFixed :=
  ⟨fxFromInt_eq_s32, fun rd ra =>
    ⟨decodeWord_rr 0x10#6 rfl rd ra, decodeWord_rr 0x11#6 rfl rd ra,
      computes_of_writeUnary (fun _ => rfl) fxFromInt_eq_s32,
      computes_of_writeUnary (fun _ => rfl) fxFromUnsigned_eq_s32⟩⟩

/-- Settles O12: the command reads its register modulo 256. -/
theorem bytesBecomeFixed : Obligations.BytesBecomeFixed :=
  ⟨fxFromByte_eq_s32, fun rd ra =>
    ⟨decodeWord_rr 0x12#6 rfl rd ra, computes_of_writeUnary (fun _ => rfl) fxFromByte_lowByte_eq_s32⟩⟩

/-- Settles O14: one floored quotient for both commands, whose results have the same pattern. -/
theorem fixedBecomesInteger : Obligations.FixedBecomesInteger :=
  ⟨fxToInt_eq_s32, fun rd ra =>
    ⟨decodeWord_rr 0x14#6 rfl rd ra, decodeWord_rr 0x15#6 rfl rd ra,
      computes_of_writeUnary (fun _ => rfl) fxToInt_eq_s32,
      computes_of_writeUnary (fun _ => rfl) fun a => (fxToUnsigned_eq_fxToInt a).trans (fxToInt_eq_s32 a)⟩⟩

/-- Settles O15: the low byte of the floored quotient, as a number and zero-extended. -/
theorem fixedBecomesByte : Obligations.FixedBecomesByte :=
  ⟨toNat_fxToByte, fun rd ra =>
    ⟨decodeWord_rr 0x16#6 rfl rd ra, computes_of_writeUnary (fun _ => rfl) zeroExtend_fxToByte⟩⟩

end Sys2Proof.Proofs
end

section
/-! SUPPORT. LI's command word: its layout RI as a sum, what the decoder answers it, and the bits it reserves (R70, R76).
The offsets of the general registers (R23). -/

namespace Sys2Proof

@[simp] theorem rdField_encodeRI (op : BitVec 6) (rd : Reg) : rdField (encodeRI op rd) = rd := by
  apply Fin.ext; rw [rdField_val, encodeRI_toNat]; omega

/-- R70: layout RI as the sum of its shifted fields. -/
theorem ofNat_eq_encodeRI (op : BitVec 6) (rd : Reg) :
    BitVec.ofNat 32 (op.toNat * 2 ^ 26 + rd.val * 2 ^ 22) = encodeRI op rd := by
  rw [← encodeRI_toNat, BitVec.ofNat_toNat, BitVec.setWidth_eq]

/-- R70: format RI requires bits 21:0 to be zero. -/
theorem toNat_and_mustBeZero_ri (w : Word) : (w &&& mustBeZero .ri).toNat = w.toNat % 2 ^ 22 :=
  (BitVec.toNat_and w _).trans (Nat.and_two_pow_sub_one_eq_mod w.toNat 22)

theorem encodeRI_and_mustBeZero (op : BitVec 6) (rd : Reg) : encodeRI op rd &&& mustBeZero .ri = 0#32 := by
  apply BitVec.eq_of_toNat_eq
  rw [toNat_and_mustBeZero_ri, encodeRI_toNat, BitVec.toNat_zero]
  omega

/-- R76: LI's command word asks for its immediate. -/
theorem decodeWord_encodeRI (rd : Reg) : decodeWord (encodeRI 0x30#6 rd) = .ok (.needsImmediate rd) := by
  have hop : opcodeFormat (opField (encodeRI 0x30#6 rd)) = some .ri := by rw [opField_encodeRI]; rfl
  rw [decodeWord_of_format hop (encodeRI_and_mustBeZero _ rd), buildCommand, rdField_encodeRI]

/-- R79, R109: a word with LI's opcode and a nonzero bit in 21:0 is illegal. -/
theorem decodeWord_error_of_li_reserved {w : Word} (hop : w.toNat / 2 ^ 26 = 0x30) (hreserved : w.toNat % 2 ^ 22 ≠ 0) :
    ∃ e, decodeWord w = .error e := by
  refine (decodeWord_error_iff w).2 fun f hf hzero => hreserved ?_
  obtain rfl : Format.ri = f := by rw [opField_eq_div, hop] at hf; exact Option.some.inj hf
  rw [← toNat_and_mustBeZero_ri, hzero, BitVec.toNat_zero]

end Sys2Proof

namespace Sys2Proof.Machine

open Sys2Proof

/-- R23: the offset of a general register in the window. -/
theorem mmioReg_gprOffset : ∀ i : Reg, mmioReg (BitVec.ofNat 8 (0x80 + 4 * i.val)) = .gpr i := by decide

/-- R39: the general registers stand at aligned offsets. -/
theorem gprOffset_aligned (i : Reg) : (BitVec.ofNat 8 (0x80 + 4 * i.val)).toNat % 4 = 0 := by
  rw [BitVec.toNat_ofNat]; omega

end Sys2Proof.Machine

namespace Sys2Proof.Proofs

open Sys2Proof Sys2Proof.Machine Sys2Proof.Claim

/-- Settles O42: LI's command word by the decoder, its immediate and a word written during a pass by the branches of R78
(`commandWriteProcessing`), and a word with a reserved bit set as an illegal one. -/
theorem loadImmediateProtocol : Obligations.LoadImmediateProtocol := by
  refine ⟨fun d s hidle hlipend => ?_, fun imm s hidle hlipend => ?_, fun i v s hidle => ?_, fun w s hbusy => ?_,
    fun s => ⟨_, rfl, s.applyReset_lipend⟩, fun w s hidle hlipend hop hreserved => ?_⟩
  · have hword : BitVec.ofNat 32 (0x30 * 2 ^ 26 + d.val * 2 ^ 22) = encodeRI 0x30#6 d := ofNat_eq_encodeRI 0x30#6 d
    rw [hword, mmioWrite_cmd, writeCommand_of_idle _ hidle hlipend]
    exact ⟨_, runCommandWord_needsImmediate (decodeWord_encodeRI d) s, rfl, rfl, s.acceptLoad_frame d⟩
  · obtain ⟨-, himmediate, -⟩ := commandWriteProcessing imm s
    obtain ⟨t, ht, hreg, hlipend', hlird, hframe⟩ := himmediate hidle hlipend
    exact ⟨t, ht, hlipend', hlird, hreg, hframe⟩
  · have hwrite := mmioWrite_gpr_of_idle (gprOffset_aligned i) (mmioReg_gprOffset i) v hidle
    exact ⟨_, hwrite, (s.setReg_reg i i v).trans (if_pos rfl), rfl, rfl⟩
  · obtain ⟨hdropped, -⟩ := commandWriteProcessing w s
    obtain ⟨t, ht, hwerr, -, -, hregs, -, ⟨hlipend, hlird⟩, -⟩ := hdropped hbusy
    exact ⟨t, ht, hwerr, hlipend, hlird, hregs⟩
  · obtain ⟨e, he⟩ := decodeWord_error_of_li_reserved hop hreserved
    obtain ⟨t, ht, hill, -, -, -, -, ⟨hlipend', -⟩, -⟩ := mmioWrite_cmd_illegal he hidle hlipend
    exact ⟨t, ht, hlipend'.trans hlipend, hill⟩

end Sys2Proof.Proofs
end

section
/-! SUPPORT. The terrain sample unit in numbers (R114 to R123): the cells of a coordinate, the bytes of a cell, the weights
of a position, the blend, and the packed colour. -/

namespace Sys2Proof.Claim

open Sys2Proof Sys2Proof.Machine

/-- R10: `s32` of a natural number is its pattern. -/
theorem s32_natCast (n : Nat) : s32 n = BitVec.ofNat 32 n := BitVec.ofInt_natCast 32 n

/-- R10: a pattern below 2^31 reads back as itself. -/
theorem toInt_ofNat_of_lt {n : Nat} (h : n < 2 ^ 31) : (BitVec.ofNat 32 n).toInt = n := by
  rw [← s32_natCast]
  exact toInt_s32_of_fits (by omega) (by omega)

/-- R10: wrapping adds a multiple of 2^32. -/
theorem dvd_toInt_s32_sub (v : Int) : 2 ^ 32 ∣ (s32 v).toInt - v := by
  rw [s32, BitVec.toInt_ofInt]
  exact Int.dvd_bmod_sub_self

/-! Sides, cells and fractions (R114, R115, R117). -/

/-- R114: the side is a power of two up to 2^15. -/
theorem side_dvd (c : ControlRegs) : side c ∣ 2 ^ 15 :=
  Nat.pow_dvd_pow 2 (Nat.lt_succ_iff.1 (Nat.mod_lt _ (by decide)))

theorem side_pos (c : ControlRegs) : 0 < side c := Nat.two_pow_pos _

theorem side_le (c : ControlRegs) : side c ≤ 2 ^ 15 := Nat.le_of_dvd (by decide) (side_dvd c)

theorem cell_lt (c : ControlRegs) (x : Word) : cell c x < side c := by
  have hpos := side_pos c
  have hlt := Int.emod_lt_of_pos (x.toInt / 1024) (Int.natCast_pos.2 hpos)
  rw [cell]; omega

theorem part_le (x : Word) : part x ≤ 1024 := by
  rw [part]; omega

/-! The weights of a position as products of numbers (R117, R118). -/

/-- R118: a product rounds down twice, once for each of the weights of a row, unless it is exact. -/
theorem weights_sum {a b : Nat} (ha : a ≤ 1024) (hb : b ≤ 1024) :
    (1024 - a) * (1024 - b) / 1024 + a * (1024 - b) / 1024 + (1024 - a) * b / 1024 + a * b / 1024 =
      if 1024 ∣ a * b then 1024 else 1022 := by
  have h00 : (1024 - a) * (1024 - b) + 1024 * a + 1024 * b = 1024 * 1024 + a * b := by
    zify [ha, hb]; ring
  have h10 : a * (1024 - b) + a * b = 1024 * a := by zify [hb]; ring
  have h01 : (1024 - a) * b + a * b = 1024 * b := by zify [ha]; ring
  generalize (1024 - a) * (1024 - b) = p00, a * (1024 - b) = p10, (1024 - a) * b = p01, a * b = p11 at *
  split <;> omega

/-- R118: the weights sum to at most 1.0. -/
theorem weights_sum_le (x y : Word) : (1024 - part x) * (1024 - part y) / 1024 + part x * (1024 - part y) / 1024 +
    (1024 - part x) * part y / 1024 + part x * part y / 1024 ≤ 1024 := by
  rw [weights_sum (part_le x) (part_le y)]
  split <;> decide

/-- R118: with a fraction of 0 every product is a multiple of 1024, so no weight is rounded. -/
theorem weights_exact {a b : Nat} (h : a = 0 ∨ b = 0) :
    1024 ∣ (1024 - a) * (1024 - b) ∧ 1024 ∣ a * (1024 - b) ∧ 1024 ∣ (1024 - a) * b ∧ 1024 ∣ a * b := by
  rcases h with rfl | rfl <;> simp

/-- R119: weights that sum to at most 1.0 keep a blend of bytes at 255.0 or below. -/
theorem weighted_sum_le {w₁ w₂ w₃ w₄ f₁ f₂ f₃ f₄ : Nat} (hw : w₁ + w₂ + w₃ + w₄ ≤ 1024) (h₁ : f₁ ≤ 255) (h₂ : f₂ ≤ 255)
    (h₃ : f₃ ≤ 255) (h₄ : f₄ ≤ 255) : f₁ * w₁ + f₂ * w₂ + f₃ * w₃ + f₄ * w₄ ≤ 261120 := by
  have hf₁ := Nat.mul_le_mul_right w₁ h₁
  have hf₂ := Nat.mul_le_mul_right w₂ h₂
  have hf₃ := Nat.mul_le_mul_right w₃ h₃
  have hf₄ := Nat.mul_le_mul_right w₄ h₄
  omega

/-- R119, R121: a blend of bytes is at most 255.0. -/
theorem mix_le (c : ControlRegs) (x y : Word) {f : Nat → Nat → Nat} (hf : ∀ i j, f i j ≤ 255) :
    mix c x y f ≤ 261120 :=
  weighted_sum_le (weights_sum_le x y) (hf _ _) (hf _ _) (hf _ _) (hf _ _)

/-- R128: at a grid point the blend is the byte of the cell. -/
theorem mix_of_part_zero (c : ControlRegs) {x y : Word} (hx : part x = 0) (hy : part y = 0) (f : Nat → Nat → Nat) :
    mix c x y f = f (cell c x) (cell c y) * 1024 := by
  simp [mix, hx, hy]

theorem texelOf_le (c : ControlRegs) (m : Memory) (k i j : Nat) : texelOf c m k i j ≤ 255 :=
  Nat.le_of_lt_succ (BitVec.isLt _)

end Sys2Proof.Claim

namespace Sys2Proof.Machine

open Sys2Proof Sys2Proof.Claim

variable (c : ControlRegs) (m : Memory)

/-! Cells (R114 to R117). -/

/-- R114: `S` as a pattern. -/
theorem mapSize_eq_ofNat : c.mapSize = BitVec.ofNat 32 (side c) := by
  have hlog : c.mapLog2 = c.ctrl.toNat / 2 ^ 4 % 16 := by
    simp [ControlRegs.mapLog2, Nat.shiftRight_eq_div_pow]
  rw [ControlRegs.mapSize, hlog, BitVec.shiftLeft_eq_mul_twoPow, BitVec.one_mul, ← s32_two_pow, side, ← s32_natCast,
    Nat.cast_pow, Nat.cast_ofNat]

/-- R114: the mask of `wrap` takes a pattern modulo the side. -/
theorem toNat_wrap (n : Word) : (wrap c n).toNat = n.toNat % side c := by
  have hle := side_le c
  have hmask : c.mapSize - 1#32 = BitVec.ofNat 32 (side c - 1) := by
    rw [mapSize_eq_ofNat]
    exact BitVec.ofNat_sub_ofNat_of_le _ _ (by decide) (side_pos c)
  rw [wrap, hmask, BitVec.toNat_and, BitVec.toNat_ofNat, Nat.mod_eq_of_lt (a := side c - 1) (by omega), side,
    Nat.and_two_pow_sub_one_eq_mod]

/-- R115: the floor of a coordinate is taken modulo the side as a signed number. -/
theorem cellOf_eq_ofNat (x : Word) : cellOf c x = BitVec.ofNat 32 (cell c x) := by
  have hle := side_le c
  have hlt := cell_lt c x
  obtain ⟨k, hk, hside⟩ : ∃ k ≤ 32, side c = 2 ^ k := ⟨c.ctrl.toNat / 2 ^ 4 % 16, by omega, rfl⟩
  have hmod := toInt_emod_two_pow (fxToInt x) hk
  apply BitVec.eq_of_toNat_eq
  rw [BitVec.toNat_ofNat, Nat.mod_eq_of_lt (by omega), cellOf, toNat_wrap, cell, ← toInt_fxToInt, hside, Nat.cast_pow,
    Nat.cast_ofNat, hmod, Int.toNat_natCast]

/-- R117: the successor of a cell wraps at the side. -/
theorem wrap_cellOf_succ (x : Word) : wrap c (cellOf c x + 1#32) = BitVec.ofNat 32 (nextCell c x) := by
  have hle := side_le c
  have hlt := cell_lt c x
  have hnext := Nat.mod_lt (cell c x + 1) (side_pos c)
  apply BitVec.eq_of_toNat_eq
  rw [toNat_wrap, cellOf_eq_ofNat, ← BitVec.ofNat_add, BitVec.toNat_ofNat, BitVec.toNat_ofNat, nextCell,
    Nat.mod_eq_of_lt (a := cell c x + 1) (by omega), Nat.mod_eq_of_lt (b := 2 ^ 32) (by omega)]

/-! Bytes of the maps (R51, R52, R116): an address wraps at the end only. -/

theorem toNat_heightByte (a b : Nat) :
    (heightByte c m (BitVec.ofNat 32 a) (BitVec.ofNat 32 b)).toNat = heightOf c m a b := by
  simp only [heightByte, heightAddr, heightOf, mapSize_eq_ofNat, BitVec.ofNat_add, BitVec.ofNat_mul, BitVec.ofNat_toNat,
    BitVec.setWidth_eq]

theorem toNat_texelByte (a b k : Nat) :
    (texelByte c m (BitVec.ofNat 32 a) (BitVec.ofNat 32 b) (BitVec.ofNat 32 k)).toNat = texelOf c m k a b := by
  simp only [texelByte, texelAddr, texelOf, mapSize_eq_ofNat, BitVec.ofNat_add, BitVec.ofNat_mul, BitVec.ofNat_toNat,
    BitVec.setWidth_eq]

/-! Fixed products with a weight, and the weights (R87, R117, R118). -/

/-- R118, R119: a product of a value up to 255.0 and a weight up to 1.0 fits in 32 bits, so it is floored and the same under
both values of MUL_MODE. -/
theorem fxMulIn_weight (mode : MulMode) {a b : Nat} (ha : a ≤ 261120) (hb : b ≤ 1024) :
    fxMulIn mode (BitVec.ofNat 32 a) (BitVec.ofNat 32 b) = BitVec.ofNat 32 (a * b / 1024) := by
  have hab : a * b ≤ 261120 * 1024 := Nat.mul_le_mul ha hb
  have hfloor : s32 ((a : Int) * b / 1024) = BitVec.ofNat 32 (a * b / 1024) := by
    rw [← s32_natCast]; push_cast; rfl
  cases mode with
  | wrap32 =>
    show fxShr (BitVec.ofNat 32 a * BitVec.ofNat 32 b) 10 = _
    rw [← BitVec.ofNat_mul, fxShr_eq_s32, toInt_ofNat_of_lt (by omega), Nat.cast_mul]
    exact hfloor
  | wide64 =>
    show s32 ((BitVec.ofNat 32 a).toInt * (BitVec.ofNat 32 b).toInt / 1024) = _
    rw [toInt_ofNat_of_lt (by omega), toInt_ofNat_of_lt (by omega), hfloor]

theorem fxFromByte_eq_ofNat (v : Byte) : fxFromByte v = BitVec.ofNat 32 (v.toNat * 1024) := by
  rw [fxFromByte_eq_s32, ← s32_natCast, Nat.cast_mul, Nat.cast_ofNat]

/-- R119: the product of a byte and a weight is exact. -/
theorem fxMulIn_fxFromByte (mode : MulMode) (v : Byte) {w : Nat} (hw : w ≤ 1024) :
    fxMulIn mode (fxFromByte v) (BitVec.ofNat 32 w) = BitVec.ofNat 32 (v.toNat * w) := by
  have hlt := v.isLt
  rw [fxFromByte_eq_ofNat, fxMulIn_weight mode (by omega) hw, Nat.mul_right_comm, Nat.mul_div_cancel _ (by decide)]

theorem fxFract_eq_ofNat (x : Word) : fxFract x = BitVec.ofNat 32 (part x) := by
  have hnonneg : 0 ≤ x.toInt % 1024 := Int.emod_nonneg _ (by decide)
  rw [fxFract_eq_s32, ← s32_natCast, part, Int.toNat_of_nonneg hnonneg]

theorem fxSub_one_fxFract (x : Word) : fxSub one (fxFract x) = BitVec.ofNat 32 (1024 - part x) := by
  have hle := part_le x
  rw [fxFract_eq_ofNat]
  exact BitVec.ofNat_sub_ofNat_of_le _ _ (by omega) hle

/-- R117 in numbers. -/
theorem corners_eq_ofNat (x y : Word) : corners c x y =
    { i0 := BitVec.ofNat 32 (cell c x)
      i1 := BitVec.ofNat 32 (nextCell c x)
      j0 := BitVec.ofNat 32 (cell c y)
      j1 := BitVec.ofNat 32 (nextCell c y)
      w00 := BitVec.ofNat 32 ((1024 - part x) * (1024 - part y) / 1024)
      w10 := BitVec.ofNat 32 (part x * (1024 - part y) / 1024)
      w01 := BitVec.ofNat 32 ((1024 - part x) * part y / 1024)
      w11 := BitVec.ofNat 32 (part x * part y / 1024) } := by
  have hx := part_le x
  have hy := part_le y
  rw [corners, wrap_cellOf_succ, wrap_cellOf_succ, cellOf_eq_ofNat, cellOf_eq_ofNat, fxSub_one_fxFract, fxSub_one_fxFract,
    fxFract_eq_ofNat, fxFract_eq_ofNat]
  simp only [fxMul]
  rw [fxMulIn_weight _ (by omega) (by omega), fxMulIn_weight _ (by omega) (by omega),
    fxMulIn_weight _ (by omega) (by omega), fxMulIn_weight _ (by omega) (by omega)]

/-- R118: the weights as numbers. -/
theorem toNat_corners_weights (x y : Word) :
    (corners c x y).w00.toNat = (1024 - part x) * (1024 - part y) / 1024 ∧
    (corners c x y).w10.toNat = part x * (1024 - part y) / 1024 ∧
    (corners c x y).w01.toNat = (1024 - part x) * part y / 1024 ∧
    (corners c x y).w11.toNat = part x * part y / 1024 := by
  have hsum := weights_sum_le x y
  rw [corners_eq_ofNat]
  exact ⟨Nat.mod_eq_of_lt (by omega), Nat.mod_eq_of_lt (by omega), Nat.mod_eq_of_lt (by omega),
    Nat.mod_eq_of_lt (by omega)⟩

/-! The blend (R119). -/

/-- R119: the four products are exact, and the sum can wrap at the end only. -/
theorem blend_eq_ofNat (x y : Word) (s00 s10 s01 s11 : Byte) : blend (corners c x y) s00 s10 s01 s11 = BitVec.ofNat 32
    (s00.toNat * ((1024 - part x) * (1024 - part y) / 1024) + s10.toNat * (part x * (1024 - part y) / 1024) +
      s01.toNat * ((1024 - part x) * part y / 1024) + s11.toNat * (part x * part y / 1024)) := by
  have hsum := weights_sum_le x y
  rw [blend, corners_eq_ofNat]
  simp only [fxMul, fxAdd]
  rw [fxMulIn_fxFromByte _ _ (by omega), fxMulIn_fxFromByte _ _ (by omega), fxMulIn_fxFromByte _ _ (by omega),
    fxMulIn_fxFromByte _ _ (by omega), ← BitVec.ofNat_add, ← BitVec.ofNat_add, ← BitVec.ofNat_add]

/-! The samples (R120 to R123). -/

/-- R120. -/
theorem sampleHeight_eq (x y : Word) : sampleHeight c m x y = nearestHeight c m x y := by
  rw [sampleHeight, cellOf_eq_ofNat, cellOf_eq_ofNat, fxFromByte_eq_ofNat, toNat_heightByte, nearestHeight]

/-- R121. -/
theorem sampleHeightBilinear_eq (x y : Word) : sampleHeightBilinear c m x y = bilinearHeight c m x y := by
  rw [sampleHeightBilinear, blend_eq_ofNat, corners_eq_ofNat]
  simp only [toNat_heightByte]
  rfl

/-- R122: the bytes of a packed colour. -/
theorem packColor_eq_ofNat (a b g r : Byte) : packColor a b g r =
    BitVec.ofNat 32 (r.toNat + 2 ^ 8 * g.toNat + 2 ^ 16 * b.toNat + 2 ^ 24 * a.toNat) := by
  apply BitVec.eq_of_toNat_eq
  rw [packColor, toNat_append_eq_add, toNat_append_eq_add, toNat_append_eq_add, BitVec.toNat_ofNat]
  omega

/-- R122. -/
theorem sampleColor_eq (x y : Word) : sampleColor c m x y = nearestColor c m x y := by
  rw [sampleColor, cellOf_eq_ofNat, cellOf_eq_ofNat, packColor_eq_ofNat, toNat_texelByte, toNat_texelByte,
    toNat_texelByte, toNat_texelByte, nearestColor]

/-- R123: the floor of a blended channel fits in a byte. -/
theorem toNat_blendChannel (x y : Word) (k : Nat) :
    (blendChannel c m (corners c x y) (BitVec.ofNat 32 k)).toNat = mix c x y (texelOf c m k) / 1024 := by
  have hle := mix_le c x y (texelOf_le c m k)
  have hblend : blendChannel c m (corners c x y) (BitVec.ofNat 32 k) =
      fxToByte (BitVec.ofNat 32 (mix c x y (texelOf c m k))) := by
    rw [blendChannel, blend_eq_ofNat, corners_eq_ofNat]
    simp only [toNat_texelByte]
    rfl
  have hbyte := toNat_fxToByte (BitVec.ofNat 32 (mix c x y (texelOf c m k)))
  rw [toInt_ofNat_of_lt (by omega)] at hbyte
  rw [hblend]
  omega

/-- R123: alpha is not blended. -/
theorem sampleColorBilinear_eq (x y : Word) : sampleColorBilinear c m x y = bilinearColor c m x y := by
  have halpha : (texelByte c m (corners c x y).i0 (corners c x y).j0 3#32).toNat =
      texelOf c m 3 (cell c x) (cell c y) := by
    rw [corners_eq_ofNat]; exact toNat_texelByte c m _ _ 3
  rw [sampleColorBilinear, packColor_eq_ofNat, toNat_blendChannel, toNat_blendChannel, toNat_blendChannel, halpha,
    bilinearColor]

/-! Grid points (R128). -/

theorem part_eq_zero_of_fxFract {x : Word} (h : fxFract x = 0#32) : part x = 0 := by
  have hfract := toInt_fxFract x
  rw [h, BitVec.toInt_zero] at hfract
  rw [part, ← hfract, Int.toNat_zero]

/-- R128: at a grid point the whole weight is that of (`i0`, `j0`). -/
theorem corners_weights_of_part_zero {x y : Word} (hx : part x = 0) (hy : part y = 0) :
    (corners c x y).w00 = 1024#32 ∧ (corners c x y).w10 = 0#32 ∧ (corners c x y).w01 = 0#32 ∧
    (corners c x y).w11 = 0#32 := by
  rw [corners_eq_ofNat, hx, hy]
  exact ⟨rfl, rfl, rfl, rfl⟩

/-! Periods (R129): a period is a multiple of `S`·1024, and so is 2^32. -/

theorem dvd_toInt_fxAdd_period (x : Word) (n : Int) :
    (2 : Int) ^ 32 ∣ (fxAdd x (fxFromInt (s32 (n * side c)))).toInt - (x.toInt + n * side c * 1024) := by
  have hperiod : fxAdd x (fxFromInt (s32 (n * side c))) = s32 (x.toInt + n * side c * 1024) := by
    rw [fxFromInt_eq_s32, fxAdd, s32_mul, s32_toInt, ← s32_mul, s32_add, s32_toInt]
  rw [hperiod]
  exact dvd_toInt_s32_sub _

/-- The fractions agree, since 1024 divides a period and 2^32. -/
theorem fxFract_fxAdd_period (x : Word) (n : Int) : fxFract (fxAdd x (fxFromInt (s32 (n * side c)))) = fxFract x := by
  have hdvd := dvd_toInt_fxAdd_period c x n
  have hmod : (fxAdd x (fxFromInt (s32 (n * side c)))).toInt % 1024 = x.toInt % 1024 := by omega
  rw [fxFract_eq_s32, hmod, ← fxFract_eq_s32]

/-- The floors differ by a multiple of `S` and one of 2^22. -/
theorem cellOf_fxAdd_period (x : Word) (n : Int) : cellOf c (fxAdd x (fxFromInt (s32 (n * side c)))) = cellOf c x := by
  obtain ⟨k, hk⟩ := dvd_toInt_fxAdd_period c x n
  obtain ⟨t, ht⟩ := side_dvd c
  have hfloor : (fxAdd x (fxFromInt (s32 (n * side c)))).toInt / 1024 = x.toInt / 1024 + (n + 2 ^ 7 * t * k) * side c := by
    have hside : (2 : Int) ^ 15 = side c * t := by exact_mod_cast ht
    have hwrap : (n + 2 ^ 7 * t * k) * side c = n * side c + 2 ^ 22 * k := by linear_combination -2 ^ 7 * k * hside
    rw [hwrap]
    omega
  rw [cellOf_eq_ofNat, cellOf_eq_ofNat, cell, cell, hfloor, Int.add_mul_emod_self_right]

/-- R114 to R123: the samples read a coordinate's cell and fraction only. -/
theorem samples_congr {x x' y y' : Word} (hx : cellOf c x' = cellOf c x) (hfx : fxFract x' = fxFract x)
    (hy : cellOf c y' = cellOf c y) (hfy : fxFract y' = fxFract y) :
    sampleHeight c m x' y' = sampleHeight c m x y ∧
    sampleHeightBilinear c m x' y' = sampleHeightBilinear c m x y ∧
    sampleColor c m x' y' = sampleColor c m x y ∧
    sampleColorBilinear c m x' y' = sampleColorBilinear c m x y := by
  have hcorners : corners c x' y' = corners c x y := by rw [corners, corners, hx, hfx, hy, hfy]
  refine ⟨?_, ?_, ?_, ?_⟩
  · rw [sampleHeight, sampleHeight, hx, hy]
  · rw [sampleHeightBilinear, sampleHeightBilinear, hcorners]
  · rw [sampleColor, sampleColor, hx, hy]
  · rw [sampleColorBilinear, sampleColorBilinear, hcorners]

/-- A command that samples the maps it finds in its state: its function is `g`, so it computes `g` of its sources. -/
theorem computes_of_sample {i : Instr} {rd ra rb : Reg} {f g : ControlRegs → Memory → Word → Word → Word}
    (h : ∀ s, exec i s = .next (s.writeBinary (f s.ctl s.mem) rd ra rb)) (hfg : ∀ c m x y, f c m x y = g c m x y) :
    Computes i rd (fun s => g s.ctl s.mem (s.reg ra) (s.reg rb)) :=
  computes_of_exec fun s => by rw [h, State.writeBinary, hfg]

end Sys2Proof.Machine

namespace Sys2Proof.Proofs

open Sys2Proof Sys2Proof.Machine Sys2Proof.Claim

/-- Settles O21: the four products and their sum are exact, so the blend is the number `mix`. -/
theorem bilinearHeightSample : Obligations.BilinearHeightSample :=
  ⟨sampleHeightBilinear_eq, fun rd ra rb =>
    ⟨decodeWord_rrr 0x21#6 rfl rd ra rb, computes_of_sample (fun _ => rfl) sampleHeightBilinear_eq⟩⟩

/-- Settles O23: each blended channel is at most 255.0, so its floor is the byte. -/
theorem bilinearTexelSample : Obligations.BilinearTexelSample :=
  ⟨sampleColorBilinear_eq, fun rd ra rb =>
    ⟨decodeWord_rrr 0x23#6 rfl rd ra rb, computes_of_sample (fun _ => rfl) sampleColorBilinear_eq⟩⟩

/-- Settles O20: a cell, its address and its byte in numbers. -/
theorem nearestHeightSample : Obligations.NearestHeightSample :=
  ⟨sampleHeight_eq, fun rd ra rb =>
    ⟨decodeWord_rrr 0x20#6 rfl rd ra rb, computes_of_sample (fun _ => rfl) sampleHeight_eq⟩⟩

/-- Settles O22: the four bytes of the texel of a cell, packed. -/
theorem nearestTexelSample : Obligations.NearestTexelSample :=
  ⟨sampleColor_eq, fun rd ra rb =>
    ⟨decodeWord_rrr 0x22#6 rfl rd ra rb, computes_of_sample (fun _ => rfl) sampleColor_eq⟩⟩

/-- Settles O24: the weights are the floored products of numbers (`corners_eq_ofNat`), whose exact sum is 1024 · 1024. -/
theorem bilinearWeightBounds : Obligations.BilinearWeightBounds := by
  intro c i j q fx fy
  have hfx : fx ≤ 1024 := part_le i
  have hfy : fy ≤ 1024 := part_le j
  obtain ⟨h00, h10, h01, h11⟩ := toNat_corners_weights c i j
  have hsum := weights_sum_le i j
  refine ⟨fun mode => ?_, h00.trans_le (by omega), h10.trans_le (by omega), h01.trans_le (by omega),
    h11.trans_le (by omega), fun hgrid => ?_, ?_⟩
  · have hcompl : ∀ n ≤ 1024, s32 (1024 - (n : Nat)) = BitVec.ofNat 32 (1024 - n) := fun n hn => by
      rw [← s32_natCast, Nat.cast_sub hn, Nat.cast_ofNat]
    rw [hcompl fx hfx, hcompl fy hfy, s32_natCast, s32_natCast, fxMulIn_weight _ (by omega) (by omega),
      fxMulIn_weight _ (by omega) (by omega), fxMulIn_weight _ (by omega) (by omega),
      fxMulIn_weight _ (by omega) (by omega)]
    simp only [q, corners_eq_ofNat]
    exact ⟨rfl, rfl, rfl, rfl⟩
  · obtain ⟨e00, e10, e01, e11⟩ := weights_exact hgrid
    rw [h00, h10, h01, h11]
    exact ⟨Nat.mul_div_cancel' e00, Nat.mul_div_cancel' e10, Nat.mul_div_cancel' e01, Nat.mul_div_cancel' e11⟩
  · rw [h00, h10, h01, h11]
    exact weights_sum hfx hfy

/-- Settles O25: each product is exact, and the sum of the weights bounds the blend by 255.0. -/
theorem blendIsExactSum : Obligations.BlendIsExactSum := by
  refine ⟨fun mode s w => fxMulIn_fxFromByte mode s (Nat.le_of_lt_succ w.isLt), ?_⟩
  intro c i j s00 s10 s01 s11 q
  obtain ⟨h00, h10, h01, h11⟩ := toNat_corners_weights c i j
  have hbyte : ∀ s : Byte, s.toNat ≤ 255 := fun s => Nat.le_of_lt_succ s.isLt
  have hle := weighted_sum_le (weights_sum_le i j) (hbyte s00) (hbyte s10) (hbyte s01) (hbyte s11)
  have hblend := congrArg BitVec.toNat (blend_eq_ofNat c i j s00 s10 s01 s11)
  rw [BitVec.toNat_ofNat, Nat.mod_eq_of_lt (by omega)] at hblend
  rw [h00, h10, h01, h11, hblend]
  exact ⟨rfl, hle⟩

/-- Settles O26: with both fractions 0, only the weight of (`i0`, `j0`) is not 0, in the corners and in the samples. -/
theorem bilinearIsNearestOnGrid : Obligations.BilinearIsNearestOnGrid := by
  intro c m i j hi hj
  have hx := part_eq_zero_of_fxFract hi
  have hy := part_eq_zero_of_fxFract hj
  obtain ⟨h00, h10, h01, h11⟩ := corners_weights_of_part_zero c hx hy
  refine ⟨h00, h10, h01, h11, ?_, ?_⟩
  · rw [sampleHeightBilinear_eq, sampleHeight_eq, bilinearHeight, mix_of_part_zero c hx hy, nearestHeight]
  · have hfloor : ∀ k, mix c i j (texelOf c m k) / 1024 = texelOf c m k (cell c i) (cell c j) := fun k => by
      rw [mix_of_part_zero c hx hy, Nat.mul_div_cancel _ (by decide)]
    rw [sampleColorBilinear_eq, sampleColor_eq, bilinearColor, hfloor, hfloor, hfloor, nearestColor]

/-- Settles O27: a period changes neither the cell nor the fraction of a coordinate, and the samples read nothing else. -/
theorem samplesArePeriodic : Obligations.SamplesArePeriodic := by
  intro c m i j n d
  have hcell : ∀ x, cellOf c (fxAdd x d) = cellOf c x := fun x => cellOf_fxAdd_period c x n
  have hfract : ∀ x, fxFract (fxAdd x d) = fxFract x := fun x => fxFract_fxAdd_period c x n
  obtain ⟨hi, hibil, hci, hcibil⟩ := samples_congr c m (hcell i) (hfract i) (rfl : cellOf c j = _) rfl
  obtain ⟨hj, hjbil, hcj, hcjbil⟩ := samples_congr c m (rfl : cellOf c i = _) rfl (hcell j) (hfract j)
  exact ⟨⟨hi, hj⟩, ⟨hibil, hjbil⟩, ⟨hci, hcj⟩, hcibil, hcjbil⟩

end Sys2Proof.Proofs
end

section
/-! SUPPORT. The fog blend of a channel in numbers, for a weight up to 1.0 (R141, R143). -/

namespace Sys2Proof.Claim

open Sys2Proof Sys2Proof.Machine

/-- The exact linear blend of two channels by a weight `w` of 1024ths, before it is cut to an integer (R143). -/
def fogMix (a b w : Nat) : Nat := a * (1024 - w) + b * w

theorem fogMix_zero (a b : Nat) : fogMix a b 0 = a * 1024 := by
  rw [fogMix, Nat.sub_zero, Nat.mul_zero, Nat.add_zero]

theorem fogMix_full (a b : Nat) : fogMix a b 1024 = b * 1024 := by
  rw [fogMix, Nat.sub_self, Nat.mul_zero, Nat.zero_add]

/-- The weights of the two channels sum to 1.0. -/
theorem fogMix_self (a : Nat) {w : Nat} (hw : w ≤ 1024) : fogMix a a w = a * 1024 := by
  rw [fogMix, ← Nat.mul_add, Nat.sub_add_cancel hw]

theorem fogMix_mono {a a' b b' : Nat} (ha : a ≤ a') (hb : b ≤ b') (w : Nat) : fogMix a b w ≤ fogMix a' b' w :=
  Nat.add_le_add (Nat.mul_le_mul_right _ ha) (Nat.mul_le_mul_right _ hb)

/-- R143: the floored blend lies between the two channels. -/
theorem fogMix_div_bounds (a b : Nat) {w : Nat} (hw : w ≤ 1024) :
    min a b ≤ fogMix a b w / 1024 ∧ fogMix a b w / 1024 ≤ max a b := by
  have hlo : min a b * 1024 ≤ fogMix a b w :=
    (fogMix_self _ hw).symm.trans_le (fogMix_mono (Nat.min_le_left a b) (Nat.min_le_right a b) w)
  have hhi : fogMix a b w ≤ max a b * 1024 :=
    (fogMix_mono (Nat.le_max_left a b) (Nat.le_max_right a b) w).trans_eq (fogMix_self _ hw)
  omega

/-- R54: a channel of a colour is a byte. -/
theorem colorChannel_le (color : Word) (ch : Channel) : colorChannel color ch ≤ 255 := by
  cases ch <;> exact Nat.le_of_lt_succ (Nat.mod_lt _ (by decide))

/-- R143: a scaled channel times a weight up to 1.0 fits in 32 bits. -/
theorem colorChannel_product_le (color : Word) (ch : Channel) {w : Nat} (hw : w ≤ 1024) :
    colorChannel color ch * 1024 * w ≤ 255 * 2 ^ 20 :=
  calc colorChannel color ch * 1024 * w
    _ ≤ 255 * 1024 * 1024 := Nat.mul_le_mul (Nat.mul_le_mul_right 1024 (colorChannel_le color ch)) hw
    _ = 255 * 2 ^ 20 := by norm_num

end Sys2Proof.Claim

namespace Sys2Proof.Machine

open Sys2Proof Sys2Proof.Claim

/-- R54. -/
theorem toNat_channelByte (color : Word) (ch : Channel) : (channelByte color ch).toNat = colorChannel color ch := by
  cases ch with
  | red => rfl
  | green => simp [channelByte, colorChannel, Nat.shiftRight_eq_div_pow]
  | blue => simp [channelByte, colorChannel, Nat.shiftRight_eq_div_pow]

/-- R141: the weight of the texel's colour. -/
theorem fxSub_one_ofNat {w : Nat} (hw : w ≤ 1024) : fxSub one (BitVec.ofNat 32 w) = BitVec.ofNat 32 (1024 - w) :=
  BitVec.ofNat_sub_ofNat_of_le _ _ (by omega) hw

/-- R143: both products are exact, so the channel is the floor of the exact blend, which is at most 255.0. -/
theorem toNat_fogChannel (color sky : Word) (ch : Channel) {w : Nat} (hw : w ≤ 1024) :
    (fogChannel (BitVec.ofNat 32 w) color sky ch).toNat =
      fogMix (colorChannel color ch) (colorChannel sky ch) w / 1024 := by
  have hle : fogMix (colorChannel color ch) (colorChannel sky ch) w ≤ 255 * 1024 :=
    (fogMix_mono (colorChannel_le color ch) (colorChannel_le sky ch) w).trans_eq (fogMix_self 255 hw)
  have hblend : fogChannel (BitVec.ofNat 32 w) color sky ch =
      fxToByte (BitVec.ofNat 32 (fogMix (colorChannel color ch) (colorChannel sky ch) w)) := by
    rw [fogChannel, fxSub_one_ofNat hw, fxMul, fxMul, fxMulIn_fxFromByte _ _ (Nat.sub_le 1024 w),
      fxMulIn_fxFromByte _ _ hw, toNat_channelByte, toNat_channelByte, fxAdd, ← BitVec.ofNat_add, fogMix]
  have hbyte := toNat_fxToByte (BitVec.ofNat 32 (fogMix (colorChannel color ch) (colorChannel sky ch) w))
  rw [toInt_ofNat_of_lt (by omega)] at hbyte
  rw [hblend]
  omega

end Sys2Proof.Machine

namespace Sys2Proof.Proofs

open Sys2Proof Sys2Proof.Machine Sys2Proof.Claim

/-- Settles O32: the channel is the floor of `fogMix`, a blend whose weights sum to 1.0. -/
theorem fogBlendRange : Obligations.FogBlendRange := by
  intro color sky ch w a b out
  have hw : w.val ≤ 1024 := Nat.le_of_lt_succ w.isLt
  have hout : out = fogMix a b w.val / 1024 := toNat_fogChannel color sky ch hw
  obtain ⟨hlo, hhi⟩ := fogMix_div_bounds a b hw
  refine ⟨colorChannel_product_le color ch (Nat.sub_le 1024 w.val), colorChannel_product_le sky ch hw, hout,
    hout ▸ hlo, hout ▸ hhi, fun hzero => ?_, fun hfull => ?_⟩
  · rw [hout, hzero, fogMix_zero, Nat.mul_div_cancel _ (by decide)]
  · rw [hout, hfull, fogMix_full, Nat.mul_div_cancel _ (by decide)]

end Sys2Proof.Proofs
end

section
/-! SUPPORT. A step in which the outside does nothing, and the sequencer's turn while no pass is in progress. -/

namespace Sys2Proof.Machine

open Sys2Proof

variable {s : State}

theorem step_of_inputs_nil (h : s.inputs = []) : step s = .next s.sequencerTurn := by
  rw [step, h]

/-- BUSY is 0 exactly while there is no pass (R25), and without a pass the sequencer does nothing. -/
theorem State.sequencerTurn_of_not_busy (h : s.busy = false) : s.sequencerTurn = s := by
  have hpass : s.pass = none := s.not_busy_iff.mp h
  rw [State.sequencerTurn, hpass]

end Sys2Proof.Machine

namespace Sys2Proof.Proofs

open Sys2Proof Sys2Proof.Machine

/-- Settles O56: without an action of the outside a step is the sequencer's turn, which changes nothing in an idle block
(R167). -/
theorem idleBlockKeepsItsState : Obligations.IdleBlockKeepsItsState := by
  intro s hidle hinputs
  rw [step_of_inputs_nil hinputs, State.sequencerTurn_of_not_busy hidle]

end Sys2Proof.Proofs
end

section
/-! SUPPORT. What reset leaves waiting (R170): no pass and no pending LI, so the next word written to CMD is decoded. -/

namespace Sys2Proof.Machine

open Sys2Proof

@[simp] theorem State.applyReset_busy (s : State) : s.applyReset.busy = false := rfl

/-- R78: a word written to CMD reaches the decoder where no pass runs and no LI is pending. -/
theorem mmioWrite_cmd_of_idle {s : State} (w : Word) (hidle : s.busy = false) (hlipend : s.lipend = false) :
    mmioWrite .word 0x0C#8 w s = runCommandWord w s := by
  rw [mmioWrite_cmd, writeCommand_of_idle w hidle hlipend]

end Sys2Proof.Machine

namespace Sys2Proof.Proofs

open Sys2Proof Sys2Proof.Machine Sys2Proof.Claim

/-- Settles O51: reset leaves an idle block with no LI pending, so a word written to CMD takes one of the decoder's three
branches (R171), and a step without an action changes nothing (`idleBlockKeepsItsState`). -/
theorem resetMakesTheBlockIdle : Obligations.ResetMakesTheBlockIdle := by
  intro s
  have hidle := s.applyReset_busy
  have hlipend := s.applyReset_lipend
  have hdecoded : ∀ w, mmioWrite .word 0x0C#8 w s.applyReset = runCommandWord w s.applyReset := fun w =>
    mmioWrite_cmd_of_idle w hidle hlipend
  refine ⟨s.applyReset, rfl, hidle, hlipend, s.applyReset_lird, ⟨_, mmioRead_aligned _ 0x00#8 rfl, rfl⟩,
    fun w i hcommand => ?_, fun w rd hli => ?_, fun w e hillegal => ?_, idleBlockKeepsItsState _ hidle rfl⟩
  · rw [hdecoded, runCommandWord_command hcommand]
  · rw [hdecoded, runCommandWord_needsImmediate hli]
    obtain ⟨hregs, -⟩ := s.applyReset.acceptLoad_frame rd
    exact ⟨_, rfl, rfl, rfl, hregs⟩
  · obtain ⟨u, hu, hill, -, -, hregs, -, ⟨hlipend', -⟩, -⟩ := mmioWrite_cmd_illegal hillegal hidle hlipend
    exact ⟨u, hu, hill, hlipend'.trans hlipend, hregs⟩

end Sys2Proof.Proofs
end

section
/-! SUPPORT. `encode` and `decode` are inverse to each other (R70, R71, R75, R76): what `decode` answers by the first word,
and a word that a format accepts is the encoding of its own fields. -/

namespace Sys2Proof

/-! What `decode` answers, by the reading of the first word (R76). -/

theorem decode_cons_command {w : Word} {i : Instr} (h : decodeWord w = .ok (.command i)) (rest : List Word) :
    decode (w :: rest) = .ok (i, rest) := by
  simp only [decode, h]

theorem decode_cons_needsImmediate {w : Word} {rd : Reg} (h : decodeWord w = .ok (.needsImmediate rd)) (imm : Word)
    (rest : List Word) : decode (w :: imm :: rest) = .ok (.li rd imm, rest) := by
  simp only [decode, h]

/-- Words that decode to a command start with its only word, or with LI's command word and its immediate. -/
theorem decode_cases {ws rest : List Word} {i : Instr} (h : decode ws = .ok (i, rest)) :
    (∃ w, ws = w :: rest ∧ decodeWord w = .ok (.command i)) ∨
    (∃ w rd imm, ws = w :: imm :: rest ∧ decodeWord w = .ok (.needsImmediate rd) ∧ i = .li rd imm) := by
  unfold decode at h
  split at h
  · contradiction
  next w tail =>
    split at h
    · contradiction
    next i' hw =>
      cases h
      exact .inl ⟨w, rfl, hw⟩
    next rd hw =>
      split at h
      · contradiction
      next imm tail' =>
        cases h
        exact .inr ⟨w, rd, imm, rfl, hw, rfl⟩

/-- A word the decoder accepts has a format that accepts it, and is read by that format (R75, R79). -/
theorem decodeWord_ok_iff {w : Word} {d : Decoded} : decodeWord w = .ok d ↔
    ∃ f, opcodeFormat (opField w) = some f ∧ w &&& mustBeZero f = 0#32 ∧ buildCommand f w = d := by
  unfold decodeWord
  cases opcodeFormat (opField w) with
  | none => simp
  | some f => by_cases hzero : w &&& mustBeZero f = 0#32 <;> simp [hzero]

/-- The single word of DRAW (R70, R75). -/
theorem decodeWord_encodeN {op : BitVec 6} {i : Instr} (hop : opcodeFormat op.toNat = some (.n i)) :
    decodeWord (encodeN op) = .ok (.command i) := by
  have hzero : encodeN op &&& mustBeZero (.n i) = 0#32 := by
    have hmask : mustBeZero (.n i) = 0#6 ++ BitVec.allOnes 26 := rfl
    rw [hmask, encodeN, BitVec.and_append, BitVec.and_zero, BitVec.zero_and, BitVec.zero_append_zero]
  exact decodeWord_of_format ((opField_encodeN op).symm ▸ hop) hzero

/-! A word whose reserved bits are zero is the layout of its own fields (R70). -/

/-- A word with no bit of a mask of its `k` low bits is a multiple of 2^k. -/
theorem mod_two_pow_eq_zero_of_and {w mask : Word} {k : Nat} (hmask : mask.toNat = 2 ^ k - 1)
    (h : w &&& mask = 0#32) : w.toNat % 2 ^ k = 0 := by
  rw [← Nat.and_two_pow_sub_one_eq_mod, ← hmask, ← BitVec.toNat_and, h, BitVec.toNat_zero]

section layouts

variable {w : Word} {op : BitVec 6} (hop : opField w = op.toNat)
include hop

theorem encodeRRR_fields {mk : Reg → Reg → Reg → Instr} (hzero : w &&& mustBeZero (.rrr mk) = 0#32) :
    encodeRRR op (rdField w) (raField w) (rbField w) = w := by
  have hlow := mod_two_pow_eq_zero_of_and (k := 14) rfl hzero
  rw [opField_eq_div] at hop
  apply BitVec.eq_of_toNat_eq
  rw [encodeRRR_toNat, rdField_val, raField_val, rbField_val]
  omega

theorem encodeRR_fields {mk : Reg → Reg → Instr} (hzero : w &&& mustBeZero (.rr mk) = 0#32) :
    encodeRR op (rdField w) (raField w) = w := by
  have hlow := mod_two_pow_eq_zero_of_and (k := 18) rfl hzero
  rw [opField_eq_div] at hop
  apply BitVec.eq_of_toNat_eq
  rw [encodeRR_toNat, rdField_val, raField_val]
  omega

theorem encodeRRS_fields {mk : Reg → Reg → Nat → Instr} (hzero : w &&& mustBeZero (.rrs mk) = 0#32) :
    encodeRRS op (rdField w) (raField w) (shField w) = w := by
  have hmask : (mustBeZero (.rrs mk) >>> 5).toNat = 2 ^ 13 - 1 := by rw [mustBeZero]; decide
  have hshift : w >>> 5 &&& mustBeZero (.rrs mk) >>> 5 = 0#32 := by
    rw [← BitVec.ushiftRight_and_distrib, hzero, BitVec.zero_ushiftRight]
  have hlow := mod_two_pow_eq_zero_of_and hmask hshift
  rw [BitVec.toNat_ushiftRight, Nat.shiftRight_eq_div_pow] at hlow
  rw [opField_eq_div] at hop
  apply BitVec.eq_of_toNat_eq
  rw [encodeRRS_toNat, rdField_val, raField_val, shField_eq]
  omega

theorem encodeRI_fields (hzero : w &&& mustBeZero .ri = 0#32) : encodeRI op (rdField w) = w := by
  have hlow := mod_two_pow_eq_zero_of_and (k := 22) rfl hzero
  rw [opField_eq_div] at hop
  apply BitVec.eq_of_toNat_eq
  rw [encodeRI_toNat, rdField_val]
  omega

theorem encodeN_fields {i : Instr} (hzero : w &&& mustBeZero (.n i) = 0#32) : encodeN op = w := by
  have hlow := mod_two_pow_eq_zero_of_and (k := 26) rfl hzero
  rw [opField_eq_div] at hop
  apply BitVec.eq_of_toNat_eq
  rw [encodeN_toNat]
  omega

end layouts

/-- `encode` writes the commands of format `f` in the layout of `f` under opcode `op`, and they are well-formed. -/
def Format.EncodedWith (op : BitVec 6) (f : Format) : Prop :=
  match f with
  | .rrr mk => ∀ rd ra rb, encode (mk rd ra rb) = [encodeRRR op rd ra rb] ∧ (mk rd ra rb).wellFormed = true
  | .rr mk => ∀ rd ra, encode (mk rd ra) = [encodeRR op rd ra] ∧ (mk rd ra).wellFormed = true
  | .rrs mk => ∀ rd ra k, encode (mk rd ra k) = [encodeRRS op rd ra k] ∧ (k < 32 → (mk rd ra k).wellFormed = true)
  | .ri => ∀ rd imm, encode (.li rd imm) = [encodeRI op rd, imm] ∧ (Instr.li rd imm).wellFormed = true
  | .n i => encode i = [encodeN op] ∧ i.wellFormed = true

/-- R75: the encoder uses the opcodes of the decoder's map. -/
theorem opcodeFormat_encodedWith {op : Nat} {f : Format} (h : opcodeFormat op = some f) :
    f.EncodedWith (BitVec.ofNat 6 op) := by
  unfold opcodeFormat at h
  split at h <;> cases h <;> simp [Format.EncodedWith, encode, Instr.wellFormed, shiftEncodable]

theorem opField_lt (w : Word) : opField w < 64 := (w.extractLsb' 26 6).isLt

/-- R79: a word the decoder reads as a whole command is that command's encoding. -/
theorem encode_of_decodeWord_command {w : Word} {i : Instr} (h : decodeWord w = .ok (.command i)) :
    encode i = [w] ∧ i.wellFormed = true := by
  obtain ⟨f, hf, hzero, hbuild⟩ := decodeWord_ok_iff.1 h
  have hop : opField w = (BitVec.ofNat 6 (opField w)).toNat := by
    rw [BitVec.toNat_ofNat, Nat.mod_eq_of_lt (opField_lt w)]
  have henc := opcodeFormat_encodedWith hf
  cases f with
  | rrr mk =>
    cases hbuild
    obtain ⟨hwords, hwf⟩ := henc (rdField w) (raField w) (rbField w)
    exact ⟨by rw [hwords, encodeRRR_fields hop hzero], hwf⟩
  | rr mk =>
    cases hbuild
    obtain ⟨hwords, hwf⟩ := henc (rdField w) (raField w)
    exact ⟨by rw [hwords, encodeRR_fields hop hzero], hwf⟩
  | rrs mk =>
    cases hbuild
    obtain ⟨hwords, hwf⟩ := henc (rdField w) (raField w) (shField w)
    exact ⟨by rw [hwords, encodeRRS_fields hop hzero], hwf (w.extractLsb' 0 5).isLt⟩
  | ri => contradiction
  | n i =>
    cases hbuild
    obtain ⟨hwords, hwf⟩ := henc
    exact ⟨by rw [hwords, encodeN_fields hop hzero], hwf⟩

/-- R76, R79: a word the decoder reads as the first word of an LI, with any immediate, is that LI's encoding. -/
theorem encode_of_decodeWord_needsImmediate {w : Word} {rd : Reg} (h : decodeWord w = .ok (.needsImmediate rd))
    (imm : Word) : encode (.li rd imm) = [w, imm] ∧ (Instr.li rd imm).wellFormed = true := by
  obtain ⟨f, hf, hzero, hbuild⟩ := decodeWord_ok_iff.1 h
  have hop : opField w = (BitVec.ofNat 6 (opField w)).toNat := by
    rw [BitVec.toNat_ofNat, Nat.mod_eq_of_lt (opField_lt w)]
  have henc := opcodeFormat_encodedWith hf
  cases f with
  | ri =>
    cases hbuild
    obtain ⟨hwords, hwf⟩ := henc (rdField w) imm
    exact ⟨by rw [hwords, encodeRI_fields hop hzero], hwf⟩
  | _ => contradiction

end Sys2Proof

namespace Sys2Proof.Proofs

open Sys2Proof Sys2Proof.Machine Sys2Proof.Claim

/-- Settles O38: one decoding lemma for each layout, at the opcode the encoder uses. -/
theorem decodeOfEncode : Obligations.DecodeOfEncode := by
  intro i rest hwf
  cases i with
  | fshl rd ra k | fshr rd ra k =>
    have hk : k < 32 := of_decide_eq_true hwf
    exact decode_cons_command (decodeWord_encodeRRS rfl rd ra hk) rest
  | li rd imm => exact decode_cons_needsImmediate (decodeWord_encodeRI rd) imm rest
  | draw => exact decode_cons_command (decodeWord_encodeN rfl) rest
  | ffloor rd ra | ffract rd ra | fromi rd ra | fromu rd ra | fromb rd ra | fromf rd ra | toi rd ra | tou rd ra
  | tob rd ra | tof rd ra => exact decode_cons_command (decodeWord_encodeRR rfl rd ra) rest
  | _ rd ra rb => exact decode_cons_command (decodeWord_encodeRRR rfl rd ra rb) rest

/-- Settles O39: the words that decode are a whole command's word or LI's two words, and each word is the layout of its
own fields. -/
theorem encodeOfDecode : Obligations.EncodeOfDecode := by
  intro ws rest i h
  obtain ⟨w, rfl, hw⟩ | ⟨w, rd, imm, rfl, hw, rfl⟩ := decode_cases h
  · obtain ⟨hwords, hwf⟩ := encode_of_decodeWord_command hw
    exact ⟨by rw [hwords]; rfl, hwf⟩
  · obtain ⟨hwords, hwf⟩ := encode_of_decodeWord_needsImmediate hw imm
    exact ⟨by rw [hwords]; rfl, hwf⟩

/-- Settles O40: the decoder run on each of the words. -/
theorem exampleWordsDecode : Obligations.ExampleWordsDecode :=
  ⟨rfl, rfl, rfl, rfl, rfl, rfl, rfl, rfl⟩

end Sys2Proof.Proofs
end

section
/-! SUPPORT. The machine's invariant: which fields it reads, the ranges of each phase as conjunctions, and that every action
of the outside and every turn of the sequencer keeps it. -/

namespace Sys2Proof.Machine

open Sys2Proof

/-! What the invariant looks at. -/

/-- The invariant reads MEM, the host-written registers, the column array, the pass and LIPEND only. -/
theorem State.inv_congr {s t : State} (hinv : s.inv = true) (hmem : t.mem = s.mem) (hctl : t.ctl = s.ctl)
    (hcols : t.colmax = s.colmax) (hpass : t.pass = s.pass) (hlipend : t.lipend = s.lipend) : t.inv = true := by
  rwa [State.inv, hmem, hctl, hcols, hpass, hlipend]

/-- Without a pass, LIPEND plays no part in the invariant. -/
theorem State.inv_of_pass_none {s : State} (hmem : s.mem.wf = true) (hctl : s.ctl.reservedZero = true)
    (hcols : columnsSound s.colmax = true) (hpass : s.pass = none) : s.inv = true :=
  s.inv_iff.2 ⟨hmem, hctl, hcols, fun p hp => by rw [hpass] at hp; contradiction⟩

/-- The reserved bits as a conjunction. -/
theorem ControlRegs.reservedZero_iff (c : ControlRegs) : c.reservedZero = true ↔
    c.ctrl &&& ~~~ctrlMask = 0#32 ∧ c.skyColor &&& ~~~skyMask = 0#32 ∧ c.fbWidth &&& ~~~sizeMask = 0#32 ∧
      c.fbHeight &&& ~~~sizeMask = 0#32 := by
  simp [ControlRegs.reservedZero, and_assoc]

/-- R38: a masked value has no bit outside its mask. -/
theorem and_mask_and_not (v mask : Word) : v &&& mask &&& ~~~mask = 0#32 := by
  rw [BitVec.and_assoc, BitVec.and_not_self]
  exact BitVec.and_zero

/-- R38: a write to the window keeps the reserved bits 0. -/
theorem ControlRegs.write_reservedZero {c : ControlRegs} (h : c.reservedZero = true) (r : MmioReg) (v : Word) :
    (c.write r v).reservedZero = true := by
  obtain ⟨hctrl, hsky, hwidth, hheight⟩ := c.reservedZero_iff.1 h
  refine (c.write r v).reservedZero_iff.2 ⟨?_, ?_, ?_, ?_⟩
  · rw [ControlRegs.write_ctrl]; split; exacts [and_mask_and_not v _, hctrl]
  · rw [ControlRegs.write_skyColor]; split; exacts [and_mask_and_not v _, hsky]
  · rw [ControlRegs.write_fbWidth]; split; exacts [and_mask_and_not v _, hwidth]
  · rw [ControlRegs.write_fbHeight]; split; exacts [and_mask_and_not v _, hheight]

/-! The ranges of the phases (R134 to R140). -/

section ranges

variable {c : ControlRegs} {z i y x hh top : Nat} {scan : ScanLine} {rh color : Word} {ch : Channel} {cols : List Word}

theorem inRange_sky : (Phase.sky y x ch).inRange c = true ↔ y < c.height ∧ x < c.width := by
  simp [Phase.inRange]

theorem inRange_depth : (Phase.depth z).inRange c = true ↔ 1 ≤ z ∧ z ≤ 2 ^ 31 := by
  simp [Phase.inRange]

theorem inRange_column : (Phase.column z i scan).inRange c = true ↔
    1 ≤ z ∧ (z : Int) ≤ c.distMax.toInt ∧ i < c.width ∧ scan = scanLine c z := by
  simp [Phase.inRange, and_assoc]

theorem inRange_line : (Phase.line z i scan hh top rh color ch).inRange c = true ↔
    (Phase.column z i scan).inRange c = true ∧ hh < top ∧ top = lineTop c rh ∧ 0 ≤ rh.toInt := by
  simp [Phase.inRange, and_assoc]

theorem raises_line : (Phase.line z i scan hh top rh color ch).raises cols = true ↔
    (columnAt cols i).toInt < rh.toInt ∧ (columnAt cols i).toInt ≤ (hh : Int) := by
  simp [Phase.raises]

/-- R134: the next sky byte is inside the frame, or the sky is done. -/
theorem afterSky_inRange (h : (Phase.sky y x ch).inRange c = true) : (afterSky c y x ch).inRange c = true := by
  obtain ⟨hy, hx⟩ := inRange_sky.1 h
  unfold afterSky
  split
  · exact inRange_sky.2 ⟨hy, hx⟩
  split
  next hnext => exact inRange_sky.2 ⟨hy, hnext⟩
  split
  next hnext => exact inRange_sky.2 ⟨hnext, by omega⟩
  · rfl

theorem afterSky_raises (c : ControlRegs) (y x : Nat) (ch : Channel) (cols : List Word) :
    (afterSky c y x ch).raises cols = true := by
  unfold afterSky
  repeat' split
  all_goals rfl

/-- R136: the next column, or the next depth, which is at most 2^31. -/
theorem afterColumn_inRange (h : (Phase.column z i scan).inRange c = true) :
    (afterColumn c z i scan).inRange c = true := by
  obtain ⟨hz, hmax, -, hscan⟩ := inRange_column.1 h
  have hlt := c.distMax.toInt_lt
  unfold afterColumn
  split
  next hnext => exact inRange_column.2 ⟨hz, hmax, hnext, hscan⟩
  · exact inRange_depth.2 ⟨by omega, by omega⟩

theorem afterColumn_raises (c : ControlRegs) (z i : Nat) (scan : ScanLine) (cols : List Word) :
    (afterColumn c z i scan).raises cols = true := by
  unfold afterColumn
  split <;> rfl

end ranges

/-! A turn of the sequencer. -/

/-- What a state in pass `p` must have for the invariant, whatever the phase of `p` is. -/
structure State.DrawsIn (s : State) (p : Pass) : Prop where
  mem : s.mem.wf = true
  ctl : s.ctl.reservedZero = true
  cols : columnsSound s.colmax = true
  lipend : s.lipend = false
  latch : p.latch = s.ctl
  drawable : p.latch.drawable = true

/-- A pass goes on soundly at a phase that is in range and draws no line that is already hidden. -/
theorem State.DrawsIn.goOn_inv {s : State} {p : Pass} (h : s.DrawsIn p) {ph : Phase}
    (hrange : ph.inRange p.latch = true) (hraises : ph.raises s.colmax = true) : (s.goOn p ph).inv = true := by
  refine (s.goOn p ph).inv_iff.2 ⟨h.mem, h.ctl, h.cols, fun q hq => ⟨h.lipend, ?_⟩⟩
  cases hq
  exact (passSound_iff _ _ _).2 ⟨h.latch, h.drawable, hrange, hraises⟩

theorem State.DrawsIn.putChannel {s : State} {p : Pass} (h : s.DrawsIn p) (x y : Nat) (color : Word) (ch : Channel) :
    State.DrawsIn { s with mem := putChannel p.latch s.mem x y color ch } p :=
  { h with mem := Memory.write_wf _ _ _ h.mem }

theorem State.DrawsIn.setColumnMax {s : State} {p : Pass} (h : s.DrawsIn p) {i : Nat} (hi : i < p.latch.width)
    {rh : Word} (hrh : 0 ≤ rh.toInt) : (s.setColumnMax i rh).DrawsIn p := by
  obtain ⟨-, hwidth, -⟩ := p.latch.drawable_iff.1 h.drawable
  exact { h with cols := columnsSound_setColumn s.colmax i rh h.cols (hi.trans_le hwidth) hrh }

/-- R134 to R144: a turn of a sound pass leaves a sound pass, or none. -/
theorem State.advance_inv {s : State} {p : Pass} (h : s.DrawsIn p) (hrange : p.phase.inRange p.latch = true)
    (hraises : p.phase.raises s.colmax = true) : (s.advance p).inv = true := by
  obtain ⟨hwidth, hmaxWidth, hheight⟩ := p.latch.drawable_iff.1 h.drawable
  obtain ⟨y, x, ch, hphase, hs⟩ | ⟨-, hs⟩ | ⟨z, hphase, hz, hs⟩ | ⟨z, -, -, hs⟩ |
    ⟨z, i, scan, rh, hphase, hrh, -, hcolumn⟩ | ⟨z, i, scan, hh, top, rh, color, ch, s', hphase, rfl, hline⟩ :=
    s.advance_cases p
  case inl =>
    rw [hphase] at hrange
    rw [hs]
    exact (h.putChannel x y _ ch).goOn_inv (afterSky_inRange hrange) (afterSky_raises _ _ _ _ _)
  case inr.inl =>
    have hcleared : State.DrawsIn { s with colmax := clearColumns p.latch.width s.colmax } p :=
      { h with cols := columnsSound_clearColumns s.colmax _ h.cols hmaxWidth }
    rw [hs]
    exact hcleared.goOn_inv rfl rfl
  case inr.inr.inl =>
    rw [hphase, inRange_depth] at hrange
    rw [hs]
    exact h.goOn_inv (inRange_column.2 ⟨hrange.1, hz, hwidth, rfl⟩) rfl
  case inr.inr.inr.inl =>
    rw [hs]
    exact State.inv_of_pass_none h.mem h.ctl h.cols rfl
  case inr.inr.inr.inr.inl =>
    rw [hphase] at hrange
    obtain ⟨-, -, hi, -⟩ := inRange_column.1 hrange
    have hnext := afterColumn_inRange hrange
    obtain ⟨-, hs⟩ | ⟨-, -, hs⟩ | ⟨hhigher, hvisible, hs⟩ := hcolumn <;> rw [hs]
    · exact h.goOn_inv hnext (afterColumn_raises _ _ _ _ _)
    · exact (h.setColumnMax hi hrh).goOn_inv hnext (afterColumn_raises _ _ _ _ _)
    · exact h.goOn_inv (inRange_line.2 ⟨hrange, hvisible, rfl, hrh⟩)
        (raises_line.2 ⟨hhigher, Int.self_le_toNat _⟩)
  case inr.inr.inr.inr.inr =>
    rw [hphase] at hrange hraises
    obtain ⟨hcolumn, hlt, htop, hrh⟩ := inRange_line.1 hrange
    obtain ⟨hhigher, hbelow⟩ := raises_line.1 hraises
    obtain ⟨-, -, hi, -⟩ := inRange_column.1 hcolumn
    have hput := h.putChannel i (p.latch.height - 1 - hh) color ch
    obtain ⟨ch', -, hs⟩ | ⟨-, hnext, hs⟩ | ⟨-, -, hs⟩ := hline <;> rw [hs]
    · exact hput.goOn_inv (inRange_line.2 ⟨hcolumn, hlt, htop, hrh⟩) (raises_line.2 ⟨hhigher, hbelow⟩)
    · exact hput.goOn_inv (inRange_line.2 ⟨hcolumn, hnext, htop, hrh⟩)
        (raises_line.2 ⟨hhigher, hbelow.trans (by omega)⟩)
    · exact (hput.setColumnMax hi hrh).goOn_inv (afterColumn_inRange hcolumn) (afterColumn_raises _ _ _ _ _)

theorem State.drawsIn_of_inv {s : State} {p : Pass} (hinv : s.inv = true) (hp : s.pass = some p) :
    s.DrawsIn p ∧ p.phase.inRange p.latch = true ∧ p.phase.raises s.colmax = true := by
  obtain ⟨hmem, hctl, hcols, hpass⟩ := s.inv_iff.1 hinv
  obtain ⟨hlipend, hsound⟩ := hpass p hp
  obtain ⟨hlatch, hdrawable, hrange, hraises⟩ := (passSound_iff _ _ p).1 hsound
  exact ⟨⟨hmem, hctl, hcols, hlipend, hlatch, hdrawable⟩, hrange, hraises⟩

theorem State.sequencerTurn_inv {s : State} (hinv : s.inv = true) : s.sequencerTurn.inv = true := by
  obtain ⟨-, hs⟩ | ⟨p, hp, hs⟩ := s.sequencerTurn_cases <;> rw [hs]
  · exact hinv
  · obtain ⟨hdraws, hrange, hraises⟩ := State.drawsIn_of_inv hinv hp
    exact State.advance_inv hdraws hrange hraises

/-! The actions of the outside. -/

/-- Recording an event touches nothing the invariant reads. -/
theorem State.record_inv {s : State} (hinv : s.inv = true) (e : ErrorEvent) : (s.record e).inv = true :=
  State.inv_congr hinv (s.record_mem e) (s.record_ctl e) (s.record_colmax e) (s.record_pass e) (s.record_lipend e)

/-- R132, R133: DRAW starts a sound pass, where no LI is pending. -/
theorem State.startPass_inv {s : State} (hinv : s.inv = true) (hlipend : s.lipend = false) :
    s.startPass.inv = true := by
  obtain ⟨-, hs⟩ | ⟨-, -, hs⟩ | ⟨hdraw, hs⟩ := s.startPass_cases <;> rw [hs]
  · exact State.record_inv hinv _
  · exact hinv
  · obtain ⟨hwidth, -, hheight⟩ := s.ctl.drawable_iff.1 hdraw
    obtain ⟨hmem, hctl, hcols, -⟩ := s.inv_iff.1 hinv
    have hdraws : s.DrawsIn { latch := s.ctl, phase := .sky 0 0 .red } := ⟨hmem, hctl, hcols, hlipend, rfl, hdraw⟩
    exact hdraws.goOn_inv (inRange_sky.2 ⟨hheight, hwidth⟩) rfl

/-- LI leaves LIPEND at 0, so both its words may be taken in every state (R109). -/
theorem State.acceptLoad_acceptImmediate_inv {s : State} (hinv : s.inv = true) (rd : Reg) (imm : Word) :
    ((s.acceptLoad rd).acceptImmediate imm).inv = true := by
  obtain ⟨hmem, hctl, hcols, hpass⟩ := s.inv_iff.1 hinv
  exact (State.inv_iff _).2 ⟨hmem, hctl, hcols, fun p hp => ⟨rfl, (hpass p hp).2⟩⟩

theorem exec_inv {i : Instr} {s t : State} (h : exec i s = .next t) (hinv : s.inv = true) (hlipend : s.lipend = false) :
    t.inv = true := by
  obtain ⟨rd, v, -, rfl⟩ | ⟨rd, imm, -, rfl⟩ | ⟨-, rfl⟩ := exec_cases i s t h
  · exact State.inv_congr hinv rfl rfl rfl rfl rfl
  · exact State.acceptLoad_acceptImmediate_inv hinv rd imm
  · exact State.startPass_inv hinv hlipend

/-- R78: LIPEND becomes 1 in an idle block only. -/
theorem writeCommand_inv {w : Word} {s t : State} (h : writeCommand w s = .next t) (hinv : s.inv = true) :
    t.inv = true := by
  obtain ⟨-, rfl⟩ | ⟨-, -, rfl⟩ | ⟨-, -, -, rfl⟩ | ⟨hidle, -, rd, -, rfl⟩ | ⟨-, hlipend, i, -, hi⟩ :=
    writeCommand_cases w s t h
  · exact State.record_inv hinv _
  · exact State.acceptLoad_acceptImmediate_inv hinv _ w
  · exact State.record_inv hinv _
  · obtain ⟨hmem, hctl, hcols, -⟩ := s.inv_iff.1 hinv
    exact State.inv_of_pass_none hmem hctl hcols (s.not_busy_iff.1 hidle)
  · exact exec_inv hi hinv hlipend

/-- R37: the host-written registers change in an idle block only. -/
theorem writeRegister_inv (r : MmioReg) (v : Word) {s : State} (hinv : s.inv = true) :
    (writeRegister r v s).inv = true := by
  obtain ⟨-, hs⟩ | ⟨-, i, -, hs⟩ | ⟨hidle, -, hs⟩ := writeRegister_cases r v s <;> rw [hs]
  · exact State.record_inv hinv _
  · exact State.inv_congr hinv rfl rfl rfl rfl rfl
  · obtain ⟨hmem, hctl, hcols, -⟩ := s.inv_iff.1 hinv
    exact State.inv_of_pass_none hmem (ControlRegs.write_reservedZero hctl r v) hcols (s.not_busy_iff.1 hidle)

theorem mmioWrite_inv {size : AccessSize} {o : BitVec 8} {v : Word} {s t : State} (h : mmioWrite size o v s = .next t)
    (hinv : s.inv = true) : t.inv = true := by
  obtain ⟨-, ⟨-, rfl⟩ | ⟨-, rfl⟩ | ⟨-, hcmd⟩ | ⟨-, -, -, -, rfl⟩⟩ := mmioWrite_cases size o v s t h
  · exact hinv
  · exact State.inv_congr hinv rfl rfl rfl rfl rfl
  · exact writeCommand_inv hcmd hinv
  · exact writeRegister_inv _ v hinv

theorem hostMemWrite_inv {a : Word} {v : Byte} {s t : State} (h : hostMemWrite a v s = .next t) (hinv : s.inv = true) :
    t.inv = true := by
  obtain ⟨rfl, -⟩ := hostMemWrite_cases a v s t h
  obtain ⟨hmem, hctl, hcols, hpass⟩ := s.inv_iff.1 hinv
  exact (State.inv_iff _).2 ⟨Memory.write_wf _ a v hmem, hctl, hcols, hpass⟩

/-- R43: no reserved bit is set in the reset values. -/
theorem ControlRegs.reset_reservedZero : ControlRegs.reset.reservedZero = true := rfl

theorem State.applyReset_inv {s : State} (hinv : s.inv = true) : s.applyReset.inv = true := by
  obtain ⟨hmem, -⟩ := s.inv_iff.1 hinv
  exact State.inv_of_pass_none hmem ControlRegs.reset_reservedZero rfl rfl

theorem perform_inv {a : HostAction} {s t : State} (h : perform a s = .next t) (hinv : s.inv = true) : t.inv = true := by
  cases a with
  | mmioWrite size o v => exact mmioWrite_inv h hinv
  | mmioRead size o =>
    obtain ⟨-, rfl⟩ := mmioRead_cases size o s t h
    exact State.inv_congr hinv rfl rfl rfl rfl rfl
  | memWrite addr v => exact hostMemWrite_inv h hinv
  | memRead addr =>
    obtain ⟨rfl, -⟩ := hostMemRead_cases addr s t h
    exact State.inv_congr hinv rfl rfl rfl rfl rfl
  | reset =>
    cases h
    exact State.applyReset_inv hinv
  | wait =>
    cases h
    exact State.sequencerTurn_inv hinv

end Sys2Proof.Machine

namespace Sys2Proof.Proofs

open Sys2Proof Sys2Proof.Machine Sys2Proof.Claim

/-- Settles O59: the sequencer's turn and every action of the outside keep the invariant, and taking an action from the
list does not touch it. -/
theorem stepKeepsTheInvariant : Obligations.StepKeepsTheInvariant := by
  intro s t hinv hstep
  obtain ⟨-, rfl⟩ | ⟨a, rest, -, ha⟩ := step_cases s t hstep
  · exact State.sequencerTurn_inv hinv
  · exact perform_inv ha hinv

/-- Settles O58: an empty MEM is canonical, the reset values have no reserved bit set, and no pass is in progress. -/
theorem resetMeetsTheInvariant : Obligations.ResetMeetsTheInvariant :=
  State.inv_of_pass_none rfl ControlRegs.reset_reservedZero rfl rfl

end Sys2Proof.Proofs
end

section
/-! SUPPORT. The fixed product for all operands (R87), and the division by a number that a pass makes (R89). -/

namespace Sys2Proof.Machine

open Sys2Proof Sys2Proof.Claim

/-- R87 under WRAP32: the product wraps, and the shift then rounds toward −∞. -/
theorem toInt_fxMulIn_wrap32 (a b : Word) :
    (fxMulIn .wrap32 a b).toInt = (s32 (a.toInt * b.toInt)).toInt / 1024 := by
  rw [s32_mul, s32_toInt, s32_toInt]
  exact toInt_fxShr (a * b) 10

/-- R87 under WRAP32. -/
theorem fxMulIn_wrap32_eq_s32 (a b : Word) :
    fxMulIn .wrap32 a b = s32 ((s32 (a.toInt * b.toInt)).toInt / 1024) := by
  rw [← toInt_fxMulIn_wrap32, s32_toInt]

/-- R87 under WIDE64. -/
theorem fxMulIn_wide64_eq_s32 (a b : Word) : fxMulIn .wide64 a b = s32 (a.toInt * b.toInt / 1024) := rfl

/-- R87(b): where the true product fits in 32 bits it is not wrapped. -/
theorem fxMulIn_wrap32_eq_wide64 {a b : Word} (hlo : -2 ^ 31 ≤ a.toInt * b.toInt) (hhi : a.toInt * b.toInt < 2 ^ 31) :
    fxMulIn .wrap32 a b = fxMulIn .wide64 a b := by
  rw [fxMulIn_wrap32_eq_s32, fxMulIn_wide64_eq_s32, toInt_s32_of_fits hlo hhi]

/-- R89: a division by a number below 2^31; by 0 the rounded quotient and `DIV0_RESULT` are both 0. -/
theorem fxDivi_ofNat (a : Word) {n : Nat} (hn : n < 2 ^ 31) :
    fxDivi a (BitVec.ofNat 32 n) = s32 (Int.tdiv a.toInt n) := by
  rw [fxDivi_eq_ite, toInt_ofNat_of_lt hn]
  split
  next hzero => rw [hzero, Int.tdiv_zero]; rfl
  · rfl

/-- R88: a product with a number, which wraps first. -/
theorem fxMuli_ofNat (a : Word) (n : Nat) : fxMuli a (BitVec.ofNat 32 n) = s32 (a.toInt * n) := by
  rw [s32_mul, s32_toInt, s32_natCast, fxMuli]

end Sys2Proof.Machine

namespace Sys2Proof.Proofs

open Sys2Proof Sys2Proof.Machine Sys2Proof.Claim

/-- Settles O3: the product is wrapped before its shift under WRAP32 and after it under WIDE64. -/
theorem multiplyRenormalises : Obligations.MultiplyRenormalises :=
  ⟨fxMulIn_wrap32_eq_s32, fxMulIn_wide64_eq_s32, fun _ _ => fxMulIn_wrap32_eq_wide64, fun rd ra rb =>
    ⟨decodeWord_rrr 0x05#6 rfl rd ra rb, computes_of_writeBinary (fun _ => rfl) fxMulIn_wrap32_eq_s32⟩⟩

end Sys2Proof.Proofs
end

section
/-! SUPPORT. The arithmetic of a depth in wrapped integers: the scan line and the sample positions (R137), and the projected
height (R139). -/

namespace Sys2Proof.Machine

open Sys2Proof Sys2Proof.Claim

theorem ControlRegs.width_lt (c : ControlRegs) : c.width < 2 ^ 16 := by
  rw [c.width_eq_mod]; omega

theorem s32_neg (x : Int) : s32 (-x) = -s32 x := by
  rw [← zero_sub, s32_sub]; exact zero_sub _

/-- R137: a stride is the wrapped width of the scan line over `W`, truncated toward zero. -/
theorem stride_eq_s32 (c : ControlRegs) (r l : Word) :
    fxDivi (fxSub r l) (BitVec.ofNat 32 c.width) =
      s32 (Int.tdiv (s32 (r.toInt - l.toInt)).toInt (c.fbWidth.toNat % 2 ^ 16 : Nat)) := by
  have hlt := c.width_lt
  rw [fxDivi_ofNat _ (by omega), fxSub_eq_s32, c.width_eq_mod]

/-- R137: the position of a column. -/
theorem columnX_eq_s32 (scan : ScanLine) (i : Nat) : columnX scan i = s32 (scan.lx.toInt + scan.dx.toInt * i) := by
  rw [columnX, fxMuli_ofNat, fxAdd, s32_add, s32_toInt]

theorem columnY_eq_s32 (scan : ScanLine) (i : Nat) : columnY scan i = s32 (scan.ly.toInt + scan.dy.toInt * i) := by
  rw [columnY, fxMuli_ofNat, fxAdd, s32_add, s32_toInt]

/-- R139: the division by the depth and the scaled horizon, in wrapped integers. -/
theorem projected_eq_s32 (c : ControlRegs) (h : Word) {z : Nat} (hz : z < 2 ^ 31) :
    projected c h z =
      s32 ((s32 (Int.tdiv (s32 ((s32 (h.toInt - c.camZ.toInt)).toInt * c.scaleHeight.toInt)).toInt z)).toInt +
        (s32 (c.horizon.toInt * 1024)).toInt) := by
  rw [projected, fxDivi_ofNat _ hz, fxAddi_eq_s32_add, fxMuli_eq_s32, fxSub_eq_s32]

/-- R139: the floor, clamped to a minimum of 0. -/
theorem toInt_projectedHeight (c : ControlRegs) (h : Word) (z : Nat) :
    (projectedHeight c h z).toInt = max 0 ((projected c h z).toInt / 1024) := by
  have hfloor := toInt_fxToInt (projected c h z)
  simp only [projectedHeight, BitVec.slt, BitVec.toInt_zero, decide_eq_true_eq]
  split
  · rw [BitVec.toInt_zero]; omega
  · omega

end Sys2Proof.Machine

namespace Sys2Proof.Proofs

open Sys2Proof Sys2Proof.Machine Sys2Proof.Claim

/-- Settles O29: wrapping once at the end is wrapping each operation, so the endpoints are sums of wrapped products, and the
camera's position drops out of the strides. -/
theorem scanLineOfADepth : Obligations.ScanLineOfADepth := by
  intro c z i cz sz lx ly rx ry w dx dy
  have hcz : fxMuli c.camCos (BitVec.ofNat 32 z) = s32 cz := fxMuli_ofNat _ _
  have hsz : fxMuli c.camSin (BitVec.ofNat 32 z) = s32 sz := fxMuli_ofNat _ _
  have hscan : scanLine c z = { lx := lx, ly := ly, dx := dx, dy := dy } := by
    simp only [scanLine, hcz, hsz, stride_eq_s32]
    simp only [lx, ly, rx, ry, dx, dy, w, s32_add, s32_sub, s32_neg, s32_toInt]
  have hwide : s32 (rx.toInt - lx.toInt) = s32 (2 * cz) := by
    rw [s32_sub, s32_toInt, s32_toInt, ← s32_sub]; congr 1; ring
  have hhigh : s32 (ry.toInt - ly.toInt) = s32 (-2 * sz) := by
    rw [s32_sub, s32_toInt, s32_toInt, ← s32_sub]; congr 1; ring
  refine ⟨hscan, by rw [← hwide], by rw [← hhigh], ?_, ?_⟩
  · rw [columnX_eq_s32, hscan]
  · rw [columnY_eq_s32, hscan]

/-- Settles O30: the wrapped formula of R139, floored and clamped. -/
theorem projectedHeightIsFloorClamped : Obligations.ProjectedHeightIsFloorClamped := by
  intro c h z _ hz t₁ t₂ t₃ t₄
  rw [toInt_projectedHeight, projected_eq_s32 c h hz]

end Sys2Proof.Proofs
end

section
/-! SUPPORT. The samples a pass takes (R133, R138): CTRL.FILTER selects between the two sample functions. -/

namespace Sys2Proof.Machine

open Sys2Proof Sys2Proof.Claim

variable {c : ControlRegs}

theorem passSamples_of_filter (h : c.filter = true) (m : Memory) (px py : Word) :
    passHeight c m px py = bilinearHeight c m px py ∧ passColor c m px py = bilinearColor c m px py := by
  rw [passHeight, passColor, if_pos h, if_pos h]
  exact ⟨sampleHeightBilinear_eq c m px py, sampleColorBilinear_eq c m px py⟩

theorem passSamples_of_not_filter (h : c.filter = false) (m : Memory) (px py : Word) :
    passHeight c m px py = nearestHeight c m px py ∧ passColor c m px py = nearestColor c m px py := by
  have h' : ¬ c.filter = true := by rw [h]; decide
  rw [passHeight, passColor, if_neg h', if_neg h']
  exact ⟨sampleHeight_eq c m px py, sampleColor_eq c m px py⟩

end Sys2Proof.Machine

namespace Sys2Proof.Proofs

open Sys2Proof Sys2Proof.Machine Sys2Proof.Claim

/-- Settles O60: FILTER is bit 1 of CTRL, and each sample function is its rule's number. -/
theorem filterSelectsTheSamples : Obligations.FilterSelectsTheSamples :=
  ⟨fun _ m px py => ⟨fun h => passSamples_of_filter h m px py, fun h => passSamples_of_not_filter h m px py⟩,
    fun c => ⟨c.width_eq_mod, c.height_eq_mod⟩⟩

end Sys2Proof.Proofs
end

section
/-! SUPPORT. Fog (R140 to R142): where it applies, its weight for every depth, and the channels of a fogged colour for every
weight. -/

namespace Sys2Proof.Machine

open Sys2Proof Sys2Proof.Claim

variable (c : ControlRegs) (z : Nat)

/-- R140: FOG_EN is bit 0 of CTRL, and the comparison is strict. -/
theorem fogApplies_iff : fogApplies c z = true ↔ c.ctrl.getLsbD 0 = true ∧ c.fogStart.toInt < z := by
  simp [fogApplies, ControlRegs.fogEn]

/-- R141: the weight with every operation wrapping; a zero divisor gives 0. -/
theorem fogWeight_eq_ite : fogWeight c z = if (s32 (c.distMax.toInt - c.fogStart.toInt)).toInt = 0 then 0#32
    else s32 (Int.tdiv (s32 ((s32 ((z : Int) - c.fogStart.toInt)).toInt * 1024)).toInt
      (s32 (c.distMax.toInt - c.fogStart.toInt)).toInt) := by
  have hdepth : BitVec.ofNat 32 z - c.fogStart = s32 ((z : Int) - c.fogStart.toInt) := by
    rw [s32_sub, s32_natCast, s32_toInt]
  have hrange : c.distMax - c.fogStart = s32 (c.distMax.toInt - c.fogStart.toInt) := fxSub_eq_s32 _ _
  rw [fogWeight, fxDivi_eq_ite, fxFromInt_eq_s32, hdepth, hrange]

/-- A floored quotient of a positive number by one that is no smaller, in 1024ths. -/
theorem scaled_ediv_bounds {n d : Int} (hn : 0 < n) (hd : n ≤ d) : 0 ≤ n * 1024 / d ∧ n * 1024 / d ≤ 1024 :=
  ⟨Int.ediv_nonneg (by omega) (by omega), Int.ediv_le_of_le_mul (by omega) (by omega)⟩

/-- R142: where nothing wraps the weight is the floored quotient of two positive numbers, at most 1.0 at DIST_MAX. -/
theorem toInt_fogWeight {c : ControlRegs} {z : Nat} (hfog : c.fogStart.toInt < z) (hmax : (z : Int) ≤ c.distMax.toInt)
    (hz : (z : Int) - c.fogStart.toInt ≤ 2 ^ 21 - 1) (hrange : c.distMax.toInt - c.fogStart.toInt ≤ 2 ^ 31 - 1) :
    (fogWeight c z).toInt = ((z : Int) - c.fogStart.toInt) * 1024 / (c.distMax.toInt - c.fogStart.toInt) ∧
    0 ≤ (fogWeight c z).toInt ∧ (fogWeight c z).toInt ≤ 1024 ∧
    ((z : Int) = c.distMax.toInt → (fogWeight c z).toInt = 1024) := by
  have hnum : (s32 ((s32 ((z : Int) - c.fogStart.toInt)).toInt * 1024)).toInt = ((z : Int) - c.fogStart.toInt) * 1024 := by
    rw [toInt_s32_of_fits (v := (z : Int) - c.fogStart.toInt) (by omega) (by omega)]
    exact toInt_s32_of_fits (by omega) (by omega)
  have hden : (s32 (c.distMax.toInt - c.fogStart.toInt)).toInt = c.distMax.toInt - c.fogStart.toInt :=
    toInt_s32_of_fits (by omega) (by omega)
  have hweight := fogWeight_eq_ite c z
  rw [hnum, hden, if_neg (by omega), Int.tdiv_eq_ediv_of_nonneg (by omega)] at hweight
  obtain ⟨hlo, hhi⟩ := scaled_ediv_bounds (n := (z : Int) - c.fogStart.toInt) (d := c.distMax.toInt - c.fogStart.toInt)
    (by omega) (by omega)
  rw [hweight, toInt_s32_of_fits (by omega) (by omega)]
  refine ⟨rfl, hlo, hhi, fun hend => ?_⟩
  rw [hend]
  exact Int.mul_ediv_cancel_left _ (by omega)

/-- R54, R122: the channels of a packed colour are its bytes. -/
theorem channelByte_packColor (a b g r : Byte) : channelByte (packColor a b g r) .red = r ∧
    channelByte (packColor a b g r) .green = g ∧ channelByte (packColor a b g r) .blue = b := by
  have hword := congrArg BitVec.toNat (packColor_eq_ofNat a b g r)
  have ha := a.isLt
  have hb := b.isLt
  have hg := g.isLt
  have hr := r.isLt
  rw [BitVec.toNat_ofNat] at hword
  refine ⟨BitVec.eq_of_toNat_eq ?_, BitVec.eq_of_toNat_eq ?_, BitVec.eq_of_toNat_eq ?_⟩ <;>
    rw [toNat_channelByte, colorChannel, hword] <;> omega

/-- R140, R141: each channel of a fogged line's colour. -/
theorem channelByte_lineColor_of_fog {c : ControlRegs} {z : Nat} (h : fogApplies c z = true) (color : Word)
    (ch : Channel) : channelByte (lineColor c color z) ch = fogChannel (fogWeight c z) color c.skyColor ch := by
  rw [lineColor, if_pos h, fogColor]
  obtain ⟨hred, hgreen, hblue⟩ := channelByte_packColor 0#8 (fogChannel (fogWeight c z) color c.skyColor .blue)
    (fogChannel (fogWeight c z) color c.skyColor .green) (fogChannel (fogWeight c z) color c.skyColor .red)
  cases ch with
  | red => exact hred
  | green => exact hgreen
  | blue => exact hblue

/-- R140: a line that is not fogged has the texel's red, green and blue. -/
theorem lineColor_of_not_fog {c : ControlRegs} {z : Nat} (h : fogApplies c z = false) (color : Word) :
    lineColor c color z = color &&& 0x00FFFFFF#32 := by
  rw [lineColor, h]
  rfl

/-- R141 under the decided MUL_MODE: each product of the blend wraps and is floored, and so is their sum, for any weight. -/
theorem toNat_fogChannel_of_any_weight (w color sky : Word) (ch : Channel) :
    ((fogChannel w color sky ch).toNat : Int) =
      (s32 ((s32 ((colorChannel color ch : Int) * 1024 * (s32 (1024 - w.toInt)).toInt)).toInt / 1024 +
        (s32 ((colorChannel sky ch : Int) * 1024 * w.toInt)).toInt / 1024)).toInt / 1024 % 256 := by
  have hone : fxSub one w = s32 (1024 - w.toInt) := fxSub_eq_s32 one w
  have hproduct : ∀ (v : Byte) (x : Word), (fxMul (fxFromByte v) x).toInt =
      (s32 ((v.toNat : Int) * 1024 * x.toInt)).toInt / 1024 := fun v x =>
    (toInt_fxMulIn_wrap32 _ x).trans (by rw [toInt_fxFromByte])
  rw [fogChannel, toNat_fxToByte, fxAdd_eq_s32, hproduct, hproduct, hone, toNat_channelByte, toNat_channelByte]

end Sys2Proof.Machine

namespace Sys2Proof.Proofs

open Sys2Proof Sys2Proof.Machine Sys2Proof.Claim

/-- Settles O31, a lemma for each clause; with FOG_EN = 0 or FOG_START ≥ DIST_MAX no depth up to DIST_MAX is fogged. -/
theorem fogWeightRange : Obligations.FogWeightRange := by
  refine ⟨fogWeight_eq_ite, fun c z color ch h => channelByte_lineColor_of_fog h color ch,
    fun c z color h => lineColor_of_not_fog h color, toNat_fogChannel_of_any_weight, fogApplies_iff,
    fun c z => toInt_fogWeight, fun c z color hmax hoff => lineColor_of_not_fog ?_ color⟩
  rw [← Bool.not_eq_true, fogApplies_iff]
  rintro ⟨hen, hstart⟩
  rcases hoff with hoff | hoff
  · rw [hoff] at hen; contradiction
  · omega

end Sys2Proof.Proofs
end

section
/-! SUPPORT. The regions of MEM as ranges from their base (R51 to R53), and the accesses of the outside to MEM that stop the
model during a pass (R62, R153). -/

namespace Sys2Proof.Machine

open Sys2Proof Sys2Proof.Claim

/-- A region of `n` bytes from `b`, which may wrap at 2^32, holds the addresses `b + d` with `d < n`. -/
theorem toNat_sub_lt_iff (a b : Word) (n : Nat) :
    (a - b).toNat < n ↔ ∃ d < n, a = BitVec.ofNat 32 (b.toNat + d) := by
  have hadd : ∀ d, BitVec.ofNat 32 (b.toNat + d) = b + BitVec.ofNat 32 d := fun d => by
    rw [BitVec.ofNat_add, BitVec.ofNat_toNat, BitVec.setWidth_eq]
  constructor
  · intro h
    refine ⟨(a - b).toNat, h, ?_⟩
    rw [hadd, BitVec.ofNat_toNat, BitVec.setWidth_eq, add_sub_cancel]
  · rintro ⟨d, hd, rfl⟩
    rw [hadd, add_sub_cancel_left, BitVec.toNat_ofNat]
    exact (Nat.mod_le _ _).trans_lt hd

theorem anyBelow_iff (n : Nat) (p : Nat → Bool) : anyBelow n p = true ↔ ∃ k < n, p k = true := by
  induction n with
  | zero => simp [anyBelow]
  | succ n ih => rw [anyBelow, Bool.or_eq_true, ih, Nat.exists_lt_succ_right, or_comm]

/-- Counting `n` blocks of `k` numbers each. -/
theorem exists_lt_mul_iff {n k : Nat} (hk : 0 < k) (P : Nat → Prop) :
    (∃ d < n * k, P d) ↔ ∃ x < n, ∃ r < k, P (k * x + r) := by
  constructor
  · rintro ⟨d, hd, hP⟩
    exact ⟨d / k, Nat.div_lt_of_lt_mul (by rwa [Nat.mul_comm]), d % k, Nat.mod_lt _ hk, by rwa [Nat.div_add_mod]⟩
  · rintro ⟨x, hx, r, hr, hP⟩
    refine ⟨k * x + r, ?_, hP⟩
    calc k * x + r < k * (x + 1) := by rw [Nat.mul_succ]; omega
      _ ≤ n * k := by rw [Nat.mul_comm n]; exact Nat.mul_le_mul_left k hx

variable (c : ControlRegs) (a : Word)

/-- R53: the frame as rows of four-byte pixels. -/
theorem inFrame_iff : inFrame c a = true ↔ frameByte c a := by
  have hrow : ∀ y, (a - pixelAddr c 0 y).toNat < 4 * c.width ↔ ∃ x < c.width, ∃ k < 4,
      a = BitVec.ofNat 32 (c.fbBase.toNat + y * c.fbStride.toNat + 4 * x + k) := fun y => by
    have hbase : pixelAddr c 0 y = BitVec.ofNat 32 (c.fbBase.toNat + y * c.fbStride.toNat) := by
      have hzero : 4#32 * BitVec.ofNat 32 0 = 0#32 := rfl
      rw [pixelAddr, hzero, BitVec.add_zero, BitVec.ofNat_add, BitVec.ofNat_mul, BitVec.ofNat_toNat, BitVec.ofNat_toNat,
        BitVec.setWidth_eq, BitVec.setWidth_eq]
    have haddr : ∀ d, BitVec.ofNat 32 ((pixelAddr c 0 y).toNat + d) =
        BitVec.ofNat 32 (c.fbBase.toNat + y * c.fbStride.toNat + d) := fun d => by
      rw [BitVec.ofNat_add, BitVec.ofNat_add _ d, BitVec.ofNat_toNat, BitVec.setWidth_eq, hbase]
    rw [toNat_sub_lt_iff, Nat.mul_comm 4, exists_lt_mul_iff (by decide)]
    simp only [haddr, Nat.add_assoc]
  simp only [inFrame, anyBelow_iff, decide_eq_true_eq, hrow, frameByte]
  constructor
  · rintro ⟨y, hy, x, hx, k, hk, h⟩
    exact ⟨x, y, k, hx, hy, hk, h⟩
  · rintro ⟨x, y, k, hx, hy, hk, h⟩
    exact ⟨y, hy, x, hx, k, hk, h⟩

theorem side_eq_mapLog2 : 2 ^ c.mapLog2 = side c := by
  simp [ControlRegs.mapLog2, side, Nat.shiftRight_eq_div_pow]

/-- R51: the height map as rows of `S` bytes. -/
theorem inHeightMap_iff : inHeightMap c a = true ↔ ∃ j < side c, ∃ i < side c,
    a = BitVec.ofNat 32 (c.hmapBase.toNat + (side c * j + i)) := by
  rw [inHeightMap, decide_eq_true_eq, side_eq_mapLog2, toNat_sub_lt_iff, exists_lt_mul_iff (side_pos c)]

/-- R52: the texture as rows of `S` texels of four bytes. -/
theorem inTexture_iff : inTexture c a = true ↔ ∃ j < side c, ∃ i < side c, ∃ k < 4,
    a = BitVec.ofNat 32 (c.tmapBase.toNat + (4 * (side c * j + i) + k)) := by
  rw [inTexture, decide_eq_true_eq, side_eq_mapLog2, toNat_sub_lt_iff, Nat.mul_comm 4,
    exists_lt_mul_iff (by decide), exists_lt_mul_iff (side_pos c)]

/-- R51, R52: the bytes of the two maps. -/
theorem inMaps_iff : (inHeightMap c a || inTexture c a) = true ↔ mapByte c a := by
  rw [Bool.or_eq_true, inHeightMap_iff, inTexture_iff]
  simp only [mapByte, Nat.mul_comm _ (side c), Nat.add_assoc]
  constructor
  · rintro (⟨j, hj, i, hi, h⟩ | ⟨j, hj, i, hi, k, hk, h⟩)
    · exact ⟨i, j, hi, hj, .inl h⟩
    · exact ⟨i, j, hi, hj, .inr ⟨k, hk, h⟩⟩
  · rintro ⟨i, j, hi, hj, h | ⟨k, hk, h⟩⟩
    · exact .inl ⟨j, hj, i, hi, h⟩
    · exact .inr ⟨j, hj, i, hi, k, hk, h⟩

/-! What the outside may do to MEM (R62, R153). -/

section access

variable {s : State} {p : Pass} {a : Word}

/-- `s` after the outside has read the byte at `a`. -/
def State.answers (s : State) (a : Word) : State := { s with readData := (s.mem.read a).zeroExtend 32 }

theorem State.answers_eq (s : State) (a : Word) :
    s.answers a = { s with readData := BitVec.ofNat 32 (s.mem.read a).toNat } := by
  rw [State.answers, BitVec.ofNat_toNat, BitVec.zeroExtend_eq_setWidth]

theorem hostMemRead_of_idle (hp : s.pass = none) (a : Word) : hostMemRead a s = .next (s.answers a) := by
  unfold hostMemRead
  split
  · rfl
  next q hq => rw [hp] at hq; contradiction

theorem hostMemWrite_of_idle (hp : s.pass = none) (a : Word) (v : Byte) :
    hostMemWrite a v s = .next { s with mem := s.mem.write a v } := by
  simp only [hostMemWrite, hp]

/-- R62(b), R153(c): a read during a pass. -/
theorem hostMemRead_of_pass (hp : s.pass = some p) (a : Word) : hostMemRead a s =
    if inFrame p.latch a = true then .fault .frameReadDuringPass else .next (s.answers a) := by
  unfold hostMemRead
  split
  next hq => rw [hp] at hq; contradiction
  next q hq =>
    obtain rfl : p = q := Option.some.inj (hp.symm.trans hq)
    rfl

/-- R62(b), R153(c): a write during a pass. -/
theorem hostMemWrite_of_pass (hp : s.pass = some p) (a : Word) (v : Byte) : hostMemWrite a v s =
    if inFrame p.latch a = true then .fault .frameWriteDuringPass
    else if (inHeightMap p.latch a || inTexture p.latch a) = true then .fault .mapWriteDuringPass
    else .next { s with mem := s.mem.write a v } := by
  simp only [hostMemWrite, hp]

/-- R62: a read of MEM answers its byte, or it is one of the frame during a pass. -/
theorem hostMemRead_outcome (a : Word) (s : State) : (∃ t, hostMemRead a s = .next t) ∨
    ∃ p, s.pass = some p ∧ frameByte p.latch a ∧ hostMemRead a s = .fault .frameReadDuringPass := by
  cases hp : s.pass with
  | none => exact .inl ⟨_, hostMemRead_of_idle hp a⟩
  | some p =>
    rw [hostMemRead_of_pass hp]
    split
    next hframe => exact .inr ⟨p, rfl, (inFrame_iff _ _).1 hframe, rfl⟩
    · exact .inl ⟨_, rfl⟩

/-- R62: a write of MEM stores its byte, or it is one of the frame or of a map during a pass. -/
theorem hostMemWrite_outcome (a : Word) (v : Byte) (s : State) : (∃ t, hostMemWrite a v s = .next t) ∨
    (∃ p, s.pass = some p ∧ frameByte p.latch a ∧ hostMemWrite a v s = .fault .frameWriteDuringPass) ∨
    ∃ p, s.pass = some p ∧ mapByte p.latch a ∧ hostMemWrite a v s = .fault .mapWriteDuringPass := by
  cases hp : s.pass with
  | none => exact .inl ⟨_, hostMemWrite_of_idle hp a v⟩
  | some p =>
    rw [hostMemWrite_of_pass hp]
    split
    next hframe => exact .inr (.inl ⟨p, rfl, (inFrame_iff _ _).1 hframe, rfl⟩)
    split
    next hmap => exact .inr (.inr ⟨p, rfl, (inMaps_iff _ _).1 hmap, rfl⟩)
    · exact .inl ⟨_, rfl⟩

end access

/-! What stops the model (R153). -/

/-- Every command completes in every state (R152). -/
theorem exec_completes (i : Instr) (s : State) : ∃ t, exec i s = .next t := by
  cases i <;> exact ⟨_, rfl⟩

theorem writeCommand_completes (w : Word) (s : State) : ∃ t, writeCommand w s = .next t := by
  unfold writeCommand
  split
  · exact ⟨_, rfl⟩
  split
  · exact exec_completes _ s
  unfold runCommandWord
  split
  · exact ⟨_, rfl⟩
  next i _ => exact exec_completes i s
  · exact ⟨_, rfl⟩

/-- R39: every aligned word write to the window goes through, and every other access to it stops the model. -/
theorem mmioWrite_outcome (size : AccessSize) (o : BitVec 8) (v : Word) (s : State) :
    (∃ t, mmioWrite size o v s = .next t) ∨
    ((size ≠ .word ∨ o.toNat % 4 ≠ 0) ∧ mmioWrite size o v s = .fault .badMmioAccess) := by
  by_cases h : properAccess size o = true
  · refine .inl ?_
    rw [mmioWrite, if_pos h]
    split
    case h_4 => exact writeCommand_completes v s
    all_goals exact ⟨_, rfl⟩
  · have himproper : size ≠ .word ∨ o.toNat % 4 ≠ 0 := by
      rw [properAccess_iff] at h; tauto
    exact .inr ⟨himproper, (access_fault himproper v s).1⟩

theorem mmioRead_outcome (size : AccessSize) (o : BitVec 8) (s : State) :
    (∃ t, mmioRead size o s = .next t) ∨
    ((size ≠ .word ∨ o.toNat % 4 ≠ 0) ∧ mmioRead size o s = .fault .badMmioAccess) := by
  by_cases h : properAccess size o = true
  · exact .inl ⟨_, if_pos h⟩
  · have himproper : size ≠ .word ∨ o.toNat % 4 ≠ 0 := by
      rw [properAccess_iff] at h; tauto
    exact .inr ⟨himproper, (access_fault himproper 0#32 s).2⟩

/-- R153: the host errors of an action that stop the model with a fault, in state `s`. -/
def HostAction.isErrorIn (act : HostAction) (s : State) (f : Fault) : Prop :=
  (f = .badMmioAccess ∧ ∃ size o v, (size ≠ .word ∨ o.toNat % 4 ≠ 0) ∧
    (act = .mmioWrite size o v ∨ act = .mmioRead size o)) ∨
  (∃ p a, s.pass = some p ∧ frameByte p.latch a ∧
    ((f = .frameReadDuringPass ∧ act = .memRead a) ∨ (f = .frameWriteDuringPass ∧ ∃ v, act = .memWrite a v))) ∨
  (∃ p a v, s.pass = some p ∧ mapByte p.latch a ∧ f = .mapWriteDuringPass ∧ act = .memWrite a v)

/-- R153: an action of the outside goes through or is a host error, and is never refused. -/
theorem perform_outcome (act : HostAction) (s : State) :
    (∃ t, perform act s = .next t) ∨ ∃ f, perform act s = .fault f ∧ act.isErrorIn s f := by
  cases act with
  | mmioWrite size o v =>
    obtain hgo | ⟨himproper, hstop⟩ := mmioWrite_outcome size o v s
    · exact .inl hgo
    · exact .inr ⟨_, hstop, .inl ⟨rfl, size, o, v, himproper, .inl rfl⟩⟩
  | mmioRead size o =>
    obtain hgo | ⟨himproper, hstop⟩ := mmioRead_outcome size o s
    · exact .inl hgo
    · exact .inr ⟨_, hstop, .inl ⟨rfl, size, o, 0#32, himproper, .inr rfl⟩⟩
  | memWrite a v =>
    obtain hgo | ⟨p, hp, hframe, hstop⟩ | ⟨p, hp, hmap, hstop⟩ := hostMemWrite_outcome a v s
    · exact .inl hgo
    · exact .inr ⟨_, hstop, .inr (.inl ⟨p, a, hp, hframe, .inr ⟨rfl, v, rfl⟩⟩)⟩
    · exact .inr ⟨_, hstop, .inr (.inr ⟨p, a, v, hp, hmap, rfl, rfl⟩)⟩
  | memRead a =>
    obtain hgo | ⟨p, hp, hframe, hstop⟩ := hostMemRead_outcome a s
    · exact .inl hgo
    · exact .inr ⟨_, hstop, .inr (.inl ⟨p, a, hp, hframe, .inl ⟨rfl, rfl⟩⟩)⟩
  | reset | wait => exact .inl ⟨_, rfl⟩

theorem step_of_inputs_cons {s : State} {a : HostAction} {rest : List HostAction} (h : s.inputs = a :: rest) :
    step s = perform a { s with inputs := rest } := by
  unfold step
  split
  next hnil => rw [h] at hnil; contradiction
  next b tail hcons =>
    rw [h] at hcons
    cases hcons
    rfl

/-- R153: a step goes on, or stops on a host error of the outside's next action. -/
theorem step_outcome (s : State) : (∃ t, step s = .next t) ∨
    ∃ f act, step s = .fault f ∧ s.inputs.head? = some act ∧ act.isErrorIn s f := by
  cases hinputs : s.inputs with
  | nil => exact .inl ⟨_, step_of_inputs_nil hinputs⟩
  | cons act rest =>
    rw [step_of_inputs_cons hinputs]
    obtain hgo | ⟨f, hstop, herror⟩ := perform_outcome act { s with inputs := rest }
    · exact .inl hgo
    · exact .inr ⟨f, act, hstop, rfl, herror⟩

end Sys2Proof.Machine

namespace Sys2Proof.Proofs

open Sys2Proof Sys2Proof.Machine Sys2Proof.Claim

/-- Settles O48: the model's range checks are membership in the frame and in the maps, and decide each access. -/
theorem outsideMustLeaveThePassAlone : Obligations.OutsideMustLeaveThePassAlone := by
  refine ⟨fun s a v hp => ⟨hostMemWrite_of_idle hp a v, s.answers_eq a ▸ hostMemRead_of_idle hp a⟩, fun s p a v hp => ?_⟩
  rw [hostMemRead_of_pass hp, ← State.answers_eq, hostMemWrite_of_pass hp, ← inFrame_iff, ← inMaps_iff]
  refine ⟨fun hframe => ⟨if_pos hframe, if_pos hframe⟩, fun hframe hmap => ?_, fun hframe => if_neg hframe,
    fun hframe hmap => ?_⟩
  · rw [if_neg hframe, if_pos hmap]
  · rw [if_neg hframe, if_neg hmap]

/-- Settles O57: a step that does not go on stops on a host error, which names the action. -/
theorem onlyHostErrorsStopTheModel : Obligations.OnlyHostErrorsStopTheModel := by
  intro s
  obtain ⟨t, hgo⟩ | ⟨f, act, hstop, hact, herror⟩ := step_outcome s
  · rw [hgo]
    exact ⟨nofun, nofun⟩
  · rw [hstop, hact]
    simp only [Option.some.injEq]
    exact ⟨nofun, fun f' hf => Host.Outcome.fault.inj hf ▸ herror⟩

end Sys2Proof.Proofs
end

section
/-! SUPPORT. What one action of the outside does to the events, to a block that is reset, and to a block that takes a
command (R43, R78, R151, R152). -/

namespace Sys2Proof.Machine

open Sys2Proof Sys2Proof.Claim

section events

variable {s t : State} {e : ErrorEvent}

theorem no_new_event (hsame : SameEvents s t) (hclear : s.event e = false) : ¬ t.event e = true := by
  rw [State.event_congr hsame, hclear]
  decide

/-- R151: what is recorded where an event bit turns to 1 is that event. -/
theorem record_of_new_event {e' : ErrorEvent} (hclear : s.event e = false) (hset : (s.record e').event e = true) :
    s.record e' = s.record e := by
  rw [State.record_event, hclear, Bool.false_or] at hset
  rw [of_decide_eq_true hset]

/-- R132: an event that DRAW sets is CFGERR, and DRAW then does nothing else. -/
theorem startPass_of_new_event (hclear : s.event e = false) (hset : s.startPass.event e = true) :
    s.startPass = s.record e := by
  obtain ⟨-, hs⟩ | ⟨-, -, hs⟩ | ⟨-, hs⟩ := s.startPass_cases <;> rw [hs] at hset ⊢
  · exact record_of_new_event hclear hset
  · exact absurd hset (no_new_event ⟨rfl, rfl, rfl⟩ hclear)
  · exact absurd hset (no_new_event (s := s) ⟨rfl, rfl, rfl⟩ hclear)

theorem exec_of_new_event {i : Instr} (h : exec i s = .next t) (hclear : s.event e = false) (hset : t.event e = true) :
    t = s.record e := by
  obtain ⟨rd, v, -, rfl⟩ | ⟨rd, imm, -, rfl⟩ | ⟨-, rfl⟩ := exec_cases i s t h
  · exact absurd hset (no_new_event (s := s) ⟨rfl, rfl, rfl⟩ hclear)
  · exact absurd hset (no_new_event (s := s) ⟨rfl, rfl, rfl⟩ hclear)
  · exact startPass_of_new_event hclear hset

theorem writeCommand_of_new_event {w : Word} (h : writeCommand w s = .next t) (hclear : s.event e = false)
    (hset : t.event e = true) : t = s.record e := by
  obtain ⟨-, rfl⟩ | ⟨-, -, rfl⟩ | ⟨-, -, -, rfl⟩ | ⟨-, -, rd, -, rfl⟩ | ⟨-, -, i, -, hi⟩ := writeCommand_cases w s t h
  · exact record_of_new_event hclear hset
  · exact absurd hset (no_new_event (s := s) ⟨rfl, rfl, rfl⟩ hclear)
  · exact record_of_new_event hclear hset
  · exact absurd hset (no_new_event (s := s) ⟨rfl, rfl, rfl⟩ hclear)
  · exact exec_of_new_event hi hclear hset

theorem writeRegister_of_new_event {r : MmioReg} {v : Word} (hclear : s.event e = false)
    (hset : (writeRegister r v s).event e = true) : writeRegister r v s = s.record e := by
  obtain ⟨-, hs⟩ | ⟨-, i, -, hs⟩ | ⟨-, -, hs⟩ := writeRegister_cases r v s <;> rw [hs] at hset ⊢
  · exact record_of_new_event hclear hset
  · exact absurd hset (no_new_event (s := s) ⟨rfl, rfl, rfl⟩ hclear)
  · exact absurd hset (no_new_event (s := s) ⟨rfl, rfl, rfl⟩ hclear)

/-- R151, R154: a write to the window that sets an event records that event and does nothing else. -/
theorem mmioWrite_of_new_event {size : AccessSize} {o : BitVec 8} {v : Word} (h : mmioWrite size o v s = .next t)
    (hclear : s.event e = false) (hset : t.event e = true) : t = s.record e := by
  obtain ⟨-, ⟨-, rfl⟩ | ⟨-, rfl⟩ | ⟨-, hcmd⟩ | ⟨-, -, -, -, rfl⟩⟩ := mmioWrite_cases size o v s t h
  · exact absurd hset (no_new_event ⟨rfl, rfl, rfl⟩ hclear)
  · rw [State.clearEvents_event, hclear] at hset; contradiction
  · exact writeCommand_of_new_event hcmd hclear hset
  · exact writeRegister_of_new_event hclear hset

end events

/-! Commands (R45, R152). -/

/-- A command that is not DRAW leaves CFGERR, the pass and the columns as they were. -/
theorem exec_of_ne_draw {i : Instr} {s t : State} (h : exec i s = .next t) (hi : i ≠ .draw) :
    t.cfgerr = s.cfgerr ∧ t.pass = s.pass ∧ t.colmax = s.colmax := by
  obtain ⟨rd, v, -, rfl⟩ | ⟨rd, imm, -, rfl⟩ | ⟨hdraw, -⟩ := exec_cases i s t h
  · exact ⟨rfl, rfl, rfl⟩
  · exact ⟨rfl, rfl, rfl⟩
  · exact absurd hdraw hi

/-- A command that is not LI leaves LIPEND and LIRD as they were. -/
theorem exec_sameLoad_of_ne_li {i : Instr} {s t : State} (h : exec i s = .next t) (hi : ∀ rd imm, i ≠ .li rd imm) :
    SameLoad s t := by
  obtain ⟨rd, v, -, rfl⟩ | ⟨rd, imm, hli, -⟩ | ⟨-, rfl⟩ := exec_cases i s t h
  · exact ⟨rfl, rfl⟩
  · exact absurd hli (hi rd imm)
  · obtain ⟨e, p, hs⟩ := s.startPass_frame
    rw [hs]
    exact ⟨rfl, rfl⟩

/-- A command leaves every register but its destination as it was. -/
theorem exec_reg_of_ne_destination {i : Instr} {s t : State} (h : exec i s = .next t) {r : Reg}
    (hr : destination i ≠ some r) : t.reg r = s.reg r ∧ t.wasWritten r = s.wasWritten r := by
  have hset : ∀ rd v, destination i = some rd →
      (s.setReg rd v).reg r = s.reg r ∧ (s.setReg rd v).wasWritten r = s.wasWritten r := fun rd v hrd => by
    have hne : r ≠ rd := fun e => hr (e ▸ hrd)
    simp [hne]
  obtain ⟨rd, v, hrd, rfl⟩ | ⟨rd, imm, rfl, rfl⟩ | ⟨-, rfl⟩ := exec_cases i s t h
  · exact hset rd v hrd
  · exact hset rd imm rfl
  · obtain ⟨e, p, hs⟩ := s.startPass_frame
    rw [hs]
    exact ⟨rfl, rfl⟩

/-- No command sets ILL or WERR, or touches a host-written register or what the outside does. -/
theorem exec_frame {i : Instr} {s t : State} (h : exec i s = .next t) :
    t.ill = s.ill ∧ t.werr = s.werr ∧ SameControl s t ∧ SameOutside s t := by
  obtain ⟨rd, v, -, rfl⟩ | ⟨rd, imm, -, rfl⟩ | ⟨-, rfl⟩ := exec_cases i s t h
  · exact ⟨rfl, rfl, rfl, rfl, rfl⟩
  · exact ⟨rfl, rfl, rfl, rfl, rfl⟩
  · obtain ⟨e, p, hs⟩ := s.startPass_frame
    rw [hs]
    exact ⟨rfl, rfl, rfl, rfl, rfl⟩

/-- A single word decodes to a command where it is that command's only word. -/
theorem decodeWord_of_decode_singleton {w : Word} {i : Instr} (h : decode [w] = .ok (i, [])) :
    decodeWord w = .ok (.command i) := by
  obtain ⟨w', hw', hcommand⟩ | ⟨w', rd, imm, hw', -⟩ := decode_cases h
  · cases hw'; exact hcommand
  · cases hw'

end Sys2Proof.Machine

namespace Sys2Proof.Proofs

open Sys2Proof Sys2Proof.Machine Sys2Proof.Claim

/-- Settles O53: a write that sets an event bit is the recording of that event (`mmioWrite_of_new_event`). -/
theorem eventsArePrecise : Obligations.EventsArePrecise := by
  intro s t o v h
  refine ⟨fun ⟨hclear, hset⟩ => ?_, fun ⟨hclear, hset⟩ => ?_, fun ⟨hclear, hset⟩ => ?_⟩
  · rw [mmioWrite_of_new_event (e := .illegalCommand) h hclear hset]
    exact ⟨rfl, rfl, s.record_onlyEvents _⟩
  · rw [mmioWrite_of_new_event (e := .writeWhileBusy) h hclear hset]
    exact ⟨rfl, rfl, s.record_onlyEvents _⟩
  · rw [mmioWrite_of_new_event (e := .configuration) h hclear hset]
    exact ⟨rfl, rfl, s.record_onlyEvents _⟩

/-- Settles O50: the block's state takes the values of R43, and every offset the table gives 0 reads 0. -/
theorem resetLeavesTheTable : Obligations.ResetLeavesTheTable := by
  intro s
  have hread : ∀ (o : BitVec 8) (w : Word), o.toNat % 4 = 0 → windowValue s.applyReset o.toNat = w →
      reads s.applyReset o w := fun o w ho hw => ⟨_, mmioRead_aligned _ o ho, hw⟩
  refine ⟨s.applyReset, rfl, hread _ _ rfl rfl, hread _ _ rfl rfl, hread _ _ rfl rfl, hread _ _ rfl rfl,
    hread _ _ rfl rfl, hread _ _ rfl rfl, fun o ho hlo hhi hcos hsky => ?_, rfl, rfl, fun _ => rfl, rfl⟩
  have hat := mmioReg_standsAt o ho
  have hne : ∀ o' : BitVec 8, o ≠ o' → o.toNat ≠ o'.toNat := fun o' h e => h (BitVec.eq_of_toNat_eq e)
  have hcos' := hne _ hcos
  have hsky' := hne _ hsky
  rw [reads_iff _ _ _ ho]
  generalize mmioReg o = r at hat
  cases r with
  | id | ctrl | status | cmd | camCos | skyColor | gpr i =>
    simp only [MmioReg.standsAt, BitVec.toNat_ofNat] at hat hcos' hsky'
    omega
  | _ => rfl

/-- Settles O52: a step performs the next action, and a CMD write takes the branch of R78 that LIPEND and its word select. -/
theorem stepRunsTheDecodedCommand : Obligations.StepRunsTheDecodedCommand := by
  refine ⟨fun s => step_of_inputs_nil, fun s a rest => step_of_inputs_cons,
    fun s size o v addr b => ⟨rfl, rfl, rfl, rfl, rfl, rfl⟩, fun s w rest hinputs hidle => ?_⟩
  have hstep : step s = writeCommand w { s with inputs := rest } := step_of_inputs_cons hinputs
  have hidle' : State.busy { s with inputs := rest } = false := hidle
  rw [hstep]
  refine ⟨fun hlipend i hi => ?_, fun hlipend => writeCommand_of_lipend w hidle' hlipend, fun hlipend rd hrd => ?_⟩
  · rw [writeCommand_of_idle w hidle' hlipend, runCommandWord_command (decodeWord_of_decode_singleton hi)]
  · rw [writeCommand_of_idle w hidle' hlipend, runCommandWord_needsImmediate hrd]
    rfl

/-- Settles O54: every command completes, and its frame follows from what a command can do (`exec_cases`). -/
theorem everyCommandCompletes : Obligations.EveryCommandCompletes := by
  intro i s
  obtain ⟨t, h⟩ := exec_completes i s
  obtain ⟨hill, hwerr, hctl, houtside⟩ := exec_frame h
  exact ⟨t, h, hill, hwerr, exec_of_ne_draw h, exec_sameLoad_of_ne_li h, fun r => exec_reg_of_ne_destination h, hctl,
    fun a => by rw [exec_mem h], houtside⟩

/-- Settles O55: the arms of the commands that neither sample nor draw do not mention MEM. -/
theorem otherCommandsIgnoreMemory : Obligations.OtherCommandsIgnoreMemory := by
  intro i s m hsample hdraw
  cases i with
  | tgeth rd ra rb | tgethi rd ra rb | tgetc rd ra rb | tgetci rd ra rb =>
    obtain ⟨hnearest, hbilinear, hnearestColor, hbilinearColor⟩ := hsample rd ra rb
    contradiction
  | draw => exact absurd rfl hdraw
  | _ => exact ⟨_, rfl, rfl⟩

end Sys2Proof.Proofs
end

section
/-! SUPPORT. The column array along a pass (R135, R140, R148): no turn in the depth loop lowers an entry, and a column that
has reached the top of the frame starts no line. -/

namespace Sys2Proof.Machine

open Sys2Proof Sys2Proof.Claim

/-- R140: for a height that is not negative, the top of its line is the smaller of it and `H`, in integers. -/
theorem cast_lineTop (c : ControlRegs) {rh : Word} (h : 0 ≤ rh.toInt) : (lineTop c rh : Int) = min rh.toInt c.height := by
  have hlt := rh.isLt
  have hsigned := rh.toInt_eq_toNat_cond
  rw [lineTop]
  omega

variable {s : State} {p : Pass}

/-- R140: recording a height that is not below the recorded one lowers no entry. -/
theorem State.columnMax_le_setColumnMax {i : Nat} {rh : Word} (h : (s.columnMax i).toInt ≤ rh.toInt) (j : Nat) :
    (s.columnMax j).toInt ≤ ((s.setColumnMax i rh).columnMax j).toInt := by
  rw [State.columnMax, State.columnMax, State.setColumnMax_colmax, columnAt_setColumn]
  split
  next hj => rw [hj]; exact h
  · exact le_rfl

/-- R140, R148: after the column array is cleared, a turn of a sound pass lowers no entry of it. -/
theorem State.columnMax_le_advance (hraises : p.phase.raises s.colmax = true) (hclear : p.phase ≠ .clear) (j : Nat) :
    (s.columnMax j).toInt ≤ ((s.advance p).columnMax j).toInt := by
  obtain ⟨y, x, ch, -, hs⟩ | ⟨hphase, -⟩ | ⟨z, -, -, hs⟩ | ⟨z, -, -, hs⟩ | ⟨z, i, scan, rh, -, -, -, hcolumn⟩ |
    ⟨z, i, scan, hh, top, rh, color, ch, s', hphase, rfl, hline⟩ := s.advance_cases p
  case inl | inr.inr.inl | inr.inr.inr.inl => rw [hs]; exact le_rfl
  case inr.inl => exact absurd hphase hclear
  case inr.inr.inr.inr.inl =>
    obtain ⟨-, hs⟩ | ⟨hhigher, -, hs⟩ | ⟨-, -, hs⟩ := hcolumn <;> rw [hs]
    · exact le_rfl
    · exact State.columnMax_le_setColumnMax hhigher.le j
    · exact le_rfl
  case inr.inr.inr.inr.inr =>
    rw [hphase] at hraises
    obtain ⟨hhigher, -⟩ := raises_line.1 hraises
    obtain ⟨ch', -, hs⟩ | ⟨-, -, hs⟩ | ⟨-, -, hs⟩ := hline <;> rw [hs]
    · exact le_rfl
    · exact le_rfl
    · exact State.columnMax_le_setColumnMax (s := s) hhigher.le j

theorem afterColumn_ne_line (c : ControlRegs) (z i : Nat) (scan : ScanLine) (z' i' : Nat) (scan' : ScanLine)
    (hh top : Nat) (rh color : Word) (ch : Channel) :
    afterColumn c z i scan ≠ .line z' i' scan' hh top rh color ch := by
  unfold afterColumn
  split <;> nofun

/-- R148: where the recorded height is at `H` or above, no row is left to draw, so the column is done at once. -/
theorem State.advance_hidden_column {z i : Nat} {scan : ScanLine} (hphase : p.phase = .column z i scan)
    (hreached : (p.latch.height : Int) ≤ (s.columnMax i).toInt) :
    (s.advance p).mem = s.mem ∧ (s.advance p).pass = some { p with phase := afterColumn p.latch z i scan } := by
  obtain ⟨y, x, ch, h, -⟩ | ⟨h, -⟩ | ⟨z, h, -⟩ | ⟨z, h, -⟩ | ⟨z', i', scan', rh, h, -, -, hcolumn⟩ |
    ⟨z, i, scan, hh, top, rh, color, ch, s', h, -⟩ := s.advance_cases p <;> rw [hphase] at h <;> cases h
  obtain ⟨-, hs⟩ | ⟨-, -, hs⟩ | ⟨-, hvisible, -⟩ := hcolumn
  · rw [hs]; exact ⟨rfl, rfl⟩
  · rw [hs]; exact ⟨rfl, rfl⟩
  · have htop : lineTop p.latch rh ≤ p.latch.height := min_le_right _ _
    omega

theorem State.sequencerTurn_of_pass (hp : s.pass = some p) : s.sequencerTurn = s.advance p := by
  rw [State.sequencerTurn, hp]

end Sys2Proof.Machine

namespace Sys2Proof.Proofs

open Sys2Proof Sys2Proof.Machine Sys2Proof.Claim

/-- Settles O34: the laws of the column array, and what a turn of a sound pass does to it. -/
theorem occlusionNeverRecedes : Obligations.OcclusionNeverRecedes := by
  refine ⟨fun c rh hrh => ?_, columnAt_clearColumns, fun cols i j rh => columnAt_setColumn cols i j rh,
    fun s c hp i => ?_, fun s p hinv hp _ hclear => ?_⟩
  · rw [cast_lineTop c hrh, c.height_eq_mod]
  · rw [State.sequencerTurn_of_pass hp, ← c.width_eq_mod]
    exact columnAt_clearColumns s.colmax c.width i
  · obtain ⟨-, -, hraises⟩ := State.drawsIn_of_inv hinv hp
    rw [State.sequencerTurn_of_pass hp]
    refine ⟨State.columnMax_le_advance hraises hclear, fun z i scan hphase hreached => ?_⟩
    obtain ⟨hmem, hpass⟩ := State.advance_hidden_column hphase hreached
    exact ⟨fun a => by rw [hmem], _, hpass, afterColumn_ne_line _ _ _ _⟩

end Sys2Proof.Proofs
end

section
/-! SUPPORT. A pass left alone (R134 to R144): the turns of the sequencer from each phase, and what a pixel, a line, a column,
a depth and the whole pass lead to, as the loops of the spec. -/

namespace Sys2Proof.Machine

open Sys2Proof Sys2Proof.Claim

/-! States that differ from `s` in what a pass changes. -/

/-- `s` with a pass on the latched registers `c` at phase `ph`, MEM and the column array being those of `v`. -/
def State.drawing (s : State) (c : ControlRegs) (v : Canvas) (ph : Phase) : State :=
  { s with mem := v.mem, colmax := v.cols, pass := some { latch := c, phase := ph } }

/-- `s` with no pass in progress, MEM and the column array being those of `v`. -/
def State.drawn (s : State) (v : Canvas) : State := { s with mem := v.mem, colmax := v.cols, pass := none }

/-- What a pass changes, as it stands in `s`. -/
def State.canvas (s : State) : Canvas := { mem := s.mem, cols := s.colmax }

theorem State.drawing_canvas {s : State} {c : ControlRegs} {ph : Phase}
    (hp : s.pass = some { latch := c, phase := ph }) : s.drawing c s.canvas ph = s := by
  rw [State.drawing, ← hp]
  rfl

/-- Some number of turns of the sequencer lead from `s` to `t`. -/
def State.Leads (s t : State) : Prop := ∃ n, State.sequencerTurn^[n] s = t

theorem State.Leads.refl (s : State) : s.Leads s := ⟨0, rfl⟩

theorem State.Leads.turns {s t : State} (n : Nat) (h : State.sequencerTurn^[n] s = t) : s.Leads t := ⟨n, h⟩

theorem State.Leads.turn {s t : State} (h : s.sequencerTurn = t) : s.Leads t := ⟨1, h⟩

theorem State.Leads.trans {s t u : State} (h : s.Leads t) (h' : t.Leads u) : s.Leads u := by
  obtain ⟨n, rfl⟩ := h
  obtain ⟨m, rfl⟩ := h'
  exact ⟨m + n, Function.iterate_add_apply _ m n s⟩

/-- If each round of a loop leads from its state to the next round's, the whole loop leads from its first state to its
last. -/
theorem leads_loop {α : Type} (stateAt : Nat → α → State) (f : Nat → α → α) {n : Nat}
    (hround : ∀ k a, k < n → (stateAt k a).Leads (stateAt (k + 1) (f k a))) (a : α) : (stateAt 0 a).Leads (stateAt n (loop n f a)) := by
  induction n with
  | zero => exact .refl _
  | succ n ih => exact (ih fun k a hk => hround k a (by omega)).trans (hround n _ n.lt_succ_self)

variable (s : State) (c : ControlRegs)

/-! The sky (R134). -/

/-- R54: three turns write a pixel of the sky. -/
theorem skyPixel_turns (v : Canvas) (y x : Nat) :
    State.sequencerTurn^[3] (s.drawing c v (.sky y x .red)) =
      s.drawing c { v with mem := putPixel c v.mem x y c.skyColor } (afterSky c y x .blue) := rfl

/-- Where the sky stands before column `x` of row `y`; after the last column, in the next row. -/
def skyColumn (c : ControlRegs) (y x : Nat) : Phase :=
  if x < c.width then .sky y x .red else if y + 1 < c.height then .sky (y + 1) 0 .red else .clear

/-- Where the sky stands before row `y`; after the last row, at the clearing of the columns. -/
def skyRow (c : ControlRegs) (y : Nat) : Phase := if y < c.height then .sky y 0 .red else .clear

theorem leads_skyRow {y : Nat} (hwidth : 0 < c.width) (hy : y < c.height) (v : Canvas) :
    (s.drawing c v (skyRow c y)).Leads
      (s.drawing c { v with mem := loop c.width (fun x m => putPixel c m x y c.skyColor) v.mem } (skyRow c (y + 1))) := by
  have hfirst : skyRow c y = skyColumn c y 0 := by rw [skyRow, skyColumn, if_pos hy, if_pos hwidth]
  have hlast : skyRow c (y + 1) = skyColumn c y c.width := by rw [skyRow, skyColumn, if_neg (lt_irrefl _)]
  rw [hfirst, hlast]
  refine leads_loop (fun x m => s.drawing c { v with mem := m } (skyColumn c y x)) _ (fun x m hx => ?_) v.mem
  refine .turns 3 ?_
  rw [skyColumn, if_pos hx, skyPixel_turns]
  rfl

theorem leads_sky (hwidth : 0 < c.width) (hheight : 0 < c.height) (v : Canvas) :
    (s.drawing c v (.sky 0 0 .red)).Leads (s.drawing c { v with mem := skyFill c v.mem } .clear) := by
  have hfirst : Phase.sky 0 0 .red = skyRow c 0 := (if_pos hheight).symm
  have hlast : Phase.clear = skyRow c c.height := (if_neg (lt_irrefl _)).symm
  rw [hfirst, hlast]
  exact leads_loop (fun y m => s.drawing c { v with mem := m } (skyRow c y)) _
    (fun y m hy => leads_skyRow s c hwidth hy { v with mem := m }) v.mem

/-! A line (R140). -/

section line

variable (z i : Nat) (scan : ScanLine) (top : Nat) (rh color : Word)

/-- Where a line stands before height `hh`; at its top, the column takes the new height and the next one follows. -/
def State.lineAt (s : State) (c : ControlRegs) (z i : Nat) (scan : ScanLine) (top : Nat) (rh color : Word)
    (cols : List Word) (hh : Nat) (m : Memory) : State :=
  if hh < top then s.drawing c { mem := m, cols := cols } (.line z i scan hh top rh color .red)
  else s.drawing c { mem := m, cols := setColumn cols i rh } (afterColumn c z i scan)

/-- R54: three turns write a pixel of a line. -/
theorem linePixel_turns (v : Canvas) (hh : Nat) :
    State.sequencerTurn^[3] (s.drawing c v (.line z i scan hh top rh color .red)) =
      s.lineAt c z i scan top rh color v.cols (hh + 1) (putPixel c v.mem i (c.height - 1 - hh) color) := by
  rw [State.lineAt]
  show (if hh + 1 < top then _ else _) = _
  split <;> rfl

theorem leads_line (cols : List Word) (lo : Nat) (m : Memory) :
    (s.lineAt c z i scan top rh color cols lo m).Leads
      (s.drawing c { mem := drawLine c i lo top color m, cols := setColumn cols i rh } (afterColumn c z i scan)) := by
  have hlast : ∀ m, s.lineAt c z i scan top rh color cols (lo + (top - lo)) m =
      s.drawing c { mem := m, cols := setColumn cols i rh } (afterColumn c z i scan) := fun m => if_neg (by omega)
  rw [← hlast]
  refine leads_loop (fun k m => s.lineAt c z i scan top rh color cols (lo + k) m) _ (fun k m hk => .turns 3 ?_) m
  have hvisible : lo + k < top := by omega
  rw [State.lineAt, if_pos hvisible, linePixel_turns]
  rfl

end line

/-! Columns, depths and the pass (R135 to R144). -/

/-- The projected height of column `i` at depth `z`, with the map as MEM holds it (R138, R139). -/
def columnHeight (c : ControlRegs) (z i : Nat) (m : Memory) : Word :=
  projectedHeight c (passHeight c m (columnX (scanLine c z) i) (columnY (scanLine c z) i)) z

/-- The colour of the line of column `i` at depth `z`, with the map as MEM holds it (R138, R140). -/
def columnColor (c : ControlRegs) (z i : Nat) (m : Memory) : Word :=
  lineColor c (passColor c m (columnX (scanLine c z) i) (columnY (scanLine c z) i)) z

theorem drawColumn_eq (z i : Nat) (v : Canvas) : drawColumn c z i v =
    if (columnAt v.cols i).slt (columnHeight c z i v.mem) = true then
      { mem := drawLine c i (columnAt v.cols i).toInt.toNat (lineTop c (columnHeight c z i v.mem))
          (columnColor c z i v.mem) v.mem
        cols := setColumn v.cols i (columnHeight c z i v.mem) }
    else v := rfl

/-- R138 to R140: one column of one depth. -/
theorem leads_drawColumn (z i : Nat) (v : Canvas) : (s.drawing c v (.column z i (scanLine c z))).Leads
    (s.drawing c (drawColumn c z i v) (afterColumn c z i (scanLine c z))) := by
  have hturn : (s.drawing c v (.column z i (scanLine c z))).sequencerTurn =
      if (columnAt v.cols i).slt (columnHeight c z i v.mem) = true then
        s.lineAt c z i (scanLine c z) (lineTop c (columnHeight c z i v.mem)) (columnHeight c z i v.mem)
          (columnColor c z i v.mem) v.cols (columnAt v.cols i).toInt.toNat v.mem
      else s.drawing c v (afterColumn c z i (scanLine c z)) := rfl
  refine .trans (.turn hturn) ?_
  rw [drawColumn_eq]
  split
  · exact leads_line s c z i _ _ _ _ _ _ _
  · exact .refl _

/-- Where a depth stands before column `i`; after the last column, at the next depth. -/
def depthColumn (c : ControlRegs) (z i : Nat) : Phase :=
  if i < c.width then .column z i (scanLine c z) else .depth (z + 1)

theorem leads_drawDepth {z : Nat} (hwidth : 0 < c.width) (hz : (z : Int) ≤ c.distMax.toInt) (v : Canvas) :
    (s.drawing c v (.depth z)).Leads (s.drawing c (drawDepth c z v) (.depth (z + 1))) := by
  have hturn : (s.drawing c v (.depth z)).sequencerTurn = s.drawing c v (depthColumn c z 0) := by
    rw [depthColumn, if_pos hwidth]
    exact if_pos hz
  have hlast : Phase.depth (z + 1) = depthColumn c z c.width := (if_neg (lt_irrefl _)).symm
  refine State.Leads.trans (.turn hturn) ?_
  rw [hlast]
  refine leads_loop (fun i v => s.drawing c v (depthColumn c z i)) _ (fun i v hi => ?_) v
  have hcolumn := leads_drawColumn s c z i v
  rw [depthColumn, if_pos hi]
  exact hcolumn

/-- R134 to R144: a pass that starts on a drawable frame leads to its end, with the spec's frame drawn. -/
theorem leads_drawFrame (hdraw : c.drawable = true) (v : Canvas) :
    (s.drawing c v (.sky 0 0 .red)).Leads (s.drawn (drawFrame c v)) := by
  obtain ⟨hwidth, -, hheight⟩ := c.drawable_iff.1 hdraw
  have hclear : ∀ v : Canvas, (s.drawing c v .clear).sequencerTurn =
      s.drawing c { v with cols := clearColumns c.width v.cols } (.depth 1) := fun _ => rfl
  have hdepths := leads_loop (fun k v => s.drawing c v (.depth (k + 1))) (fun k => drawDepth c (k + 1))
    (n := c.distMax.toInt.toNat) (fun k v hk => leads_drawDepth s c hwidth (by omega) v)
  have hover : ¬ ((c.distMax.toInt.toNat + 1 : Nat) : Int) ≤ c.distMax.toInt := by omega
  have hend : ∀ v, (s.drawing c v (.depth (c.distMax.toInt.toNat + 1))).sequencerTurn = s.drawn v := fun v =>
    if_neg hover
  exact (leads_sky s c hwidth hheight v).trans ((State.Leads.turn (hclear _)).trans
    ((hdepths _).trans (.turn (hend _))))

/-! The pass as a run of the machine, and its first three turns as the writes of one pixel. -/

/-- With no action of the outside coming, a run is turns of the sequencer. -/
theorem run_of_inputs_nil (n : Nat) {s : State} (h : s.inputs = []) :
    Sys2Proof.core.run n s = .next (State.sequencerTurn^[n] s) := by
  induction n generalizing s with
  | zero => rfl
  | succ n ih =>
    obtain ⟨-, -, -, -, hinputs, -⟩ := s.sequencerTurn_frame
    have hstep : Sys2Proof.core.step s = .next s.sequencerTurn := step_of_inputs_nil h
    simp only [Host.Core.run, hstep]
    exact ih (hinputs.trans h)

/-- R54 with numbers: the byte of each channel. -/
theorem channelByte_eq_ofNat (color : Word) : channelByte color .red = BitVec.ofNat 8 color.toNat ∧
    channelByte color .green = BitVec.ofNat 8 (color.toNat / 2 ^ 8) ∧
    channelByte color .blue = BitVec.ofNat 8 (color.toNat / 2 ^ 16) := by
  refine ⟨BitVec.eq_of_toNat_eq ?_, BitVec.eq_of_toNat_eq ?_, BitVec.eq_of_toNat_eq ?_⟩ <;>
    rw [toNat_channelByte, colorChannel, BitVec.toNat_ofNat]

/-- R53, R54: `put_pixel` with the addresses and bytes as numbers. -/
theorem putPixel_eq (m : Memory) (x y : Nat) (color : Word) :
    let p := c.fbBase.toNat + y * c.fbStride.toNat + 4 * x
    putPixel c m x y color =
      ((m.write (BitVec.ofNat 32 (p + c.ctrl.toNat / 2 ^ 8 % 4)) (BitVec.ofNat 8 color.toNat)).write
        (BitVec.ofNat 32 (p + c.ctrl.toNat / 2 ^ 10 % 4)) (BitVec.ofNat 8 (color.toNat / 2 ^ 8))).write
        (BitVec.ofNat 32 (p + c.ctrl.toNat / 2 ^ 12 % 4)) (BitVec.ofNat 8 (color.toNat / 2 ^ 16)) := by
  obtain ⟨hred, hgreen, hblue⟩ := channelByte_eq_ofNat color
  simp only [putPixel, putChannel, channelAddr_eq_ofNat, hred, hgreen, hblue, Channel.offsetBit]

theorem lineAt_mem (z i : Nat) (scan : ScanLine) (top : Nat) (rh color : Word) (cols : List Word) (hh : Nat)
    (m : Memory) : (s.lineAt c z i scan top rh color cols hh m).mem = m := by
  rw [State.lineAt]
  split <;> rfl

end Sys2Proof.Machine

namespace Sys2Proof.Proofs

open Sys2Proof Sys2Proof.Machine Sys2Proof.Claim

/-- Settles O35: a pass just started leads to the spec's frame, by turns that are steps while the outside is silent. -/
theorem passDrawsTheFrame : Obligations.PassDrawsTheFrame := by
  intro s hinputs hinv hp
  obtain ⟨hdraws, -⟩ := State.drawsIn_of_inv hinv hp
  have hleads := leads_drawFrame s s.ctl hdraws.drawable s.canvas
  rw [State.drawing_canvas hp] at hleads
  obtain ⟨n, hn⟩ := hleads
  refine ⟨n, s.drawn (drawFrame s.ctl s.canvas), ?_, rfl, rfl, rfl, ⟨fun _ => rfl, fun _ => rfl⟩, rfl, ⟨rfl, rfl⟩,
    ⟨rfl, rfl, rfl⟩, rfl, rfl⟩
  rw [run_of_inputs_nil n hinputs, hn]

/-- Settles O33: three turns write a pixel of the sky or of a line, and a read after a write is a law of MEM. -/
theorem pixelIsThreeByteWrites : Obligations.PixelIsThreeByteWrites := by
  refine ⟨fun m a b v hm => Memory.read_write m a b v hm, fun s c y x color hpixel => ?_⟩
  have hmem : (State.sequencerTurn^[3] s).mem = putPixel c s.mem x y color := by
    obtain ⟨hp, rfl⟩ | ⟨z, scan, hh, top, rh, hp, rfl⟩ := hpixel
    · have hturns := skyPixel_turns s c s.canvas y x
      rw [State.drawing_canvas hp] at hturns
      rw [hturns]
      rfl
    · have hturns := linePixel_turns s c z x scan top rh color s.canvas hh
      rw [State.drawing_canvas hp] at hturns
      rw [hturns, lineAt_mem]
      rfl
  exact hmem.trans (putPixel_eq c s.mem x y color)

end Sys2Proof.Proofs
end

section
/-! SUPPORT. A binary32 pattern as a sign, a significand and a scale, and FROMF as truncation with saturation (R104). -/

namespace Sys2Proof.Machine

open Sys2Proof Sys2Proof.Claim

/-- The sign as a factor. -/
def signOf (negative : Bool) : Int := if negative then -1 else 1

theorem signOf_mul_self (negative : Bool) : signOf negative * signOf negative = 1 := by
  cases negative <;> rfl

theorem abs_signOf_mul (negative : Bool) (q : ℚ) : |(signOf negative : ℚ) * q| = |q| := by
  cases negative <;> simp [signOf]

/-! The fields of a pattern (41_conversions.md, introduction). -/

theorem floatExponent_eq (f : Word) : floatExponent f = exponent f := by
  simp [floatExponent, exponent, Nat.shiftRight_eq_div_pow]

theorem floatFraction_eq (f : Word) : floatFraction f = fraction f := by
  simp [floatFraction, fraction]

theorem floatSign_eq (f : Word) : floatSign f = decide (2 ^ 31 ≤ f.toNat) := f.msb_eq_decide

theorem floatSignificand_lt (f : Word) : floatSignificand f < 2 ^ 24 := by
  have hlt : fraction f < 2 ^ 23 := Nat.mod_lt _ (by decide)
  rw [floatSignificand, floatFraction_eq]
  split <;> omega

/-- A finite value is its sign times its significand times a power of two. -/
theorem floatValue_eq (f : Word) : floatValue f =
    signOf (floatSign f) * (floatSignificand f * (2 : ℚ) ^ ((floatScale f : Int) - 150)) := by
  have hsign : (signOf (floatSign f) : ℚ) = if 2 ^ 31 ≤ f.toNat then -1 else 1 := by
    rw [floatSign_eq, signOf]; push_cast; simp only [decide_eq_true_eq]
  have hsignificand : (floatSignificand f : ℚ) = if exponent f = 0 then (fraction f : ℚ) else 2 ^ 23 + fraction f := by
    rw [floatSignificand, floatExponent_eq, floatFraction_eq]; push_cast; rfl
  have hscale : (floatScale f : Int) = max (exponent f : Int) 1 := by
    rw [floatScale, floatExponent_eq]; push_cast; rfl
  rw [floatValue, hsign, hsignificand, hscale, mul_assoc]

/-! Truncation and saturation. -/

theorem truncate_signOf_mul (negative : Bool) {q : ℚ} (hq : 0 ≤ q) :
    truncate (signOf negative * q) = signOf negative * ⌊q⌋ := by
  cases negative with
  | false => simp [signOf, truncate, hq]
  | true =>
    have hneg : (signOf true : ℚ) * q = -q := by simp [signOf]
    rw [hneg, truncate]
    split
    next h =>
      obtain rfl : q = 0 := by linarith
      simp
    · rw [Int.ceil_neg, signOf]; simp

/-- R104: the model's magnitude is the floor of the exact product by 1024. -/
theorem floor_scaled (n scale : Nat) :
    ⌊(n : ℚ) * 2 ^ ((scale : Int) - 150) * 1024⌋ = scaledMagnitude n scale := by
  have hscale : (n : ℚ) * 2 ^ ((scale : Int) - 150) * 1024 = n * 2 ^ ((scale : Int) - 140) := by
    have hpow : (2 : ℚ) ^ ((scale : Int) - 140) = 2 ^ ((scale : Int) - 150) * 2 ^ (10 : Int) := by
      rw [← zpow_add₀ (by norm_num)]; congr 1; ring
    rw [hpow]; norm_num; ring
  rw [hscale, scaledMagnitude]
  split
  next h =>
    have hexp : (scale : Int) - 140 = -((140 - scale : Nat) : Int) := by omega
    rw [hexp, zpow_neg, zpow_natCast, ← div_eq_mul_inv]
    exact_mod_cast Rat.floor_natCast_div_natCast n (2 ^ (140 - scale))
  next h =>
    have hexp : (scale : Int) - 140 = ((scale - 140 : Nat) : Int) := by omega
    rw [hexp, zpow_natCast]
    exact_mod_cast Int.floor_natCast (n * 2 ^ (scale - 140))

/-- R104: the exact value times 1024, truncated toward zero. -/
theorem truncate_floatValue (f : Word) : truncate (floatValue f * 1024) =
    signOf (floatSign f) * scaledMagnitude (floatSignificand f) (floatScale f) := by
  rw [floatValue_eq, mul_assoc, truncate_signOf_mul _ (by positivity), floor_scaled]

/-- R104: saturation by magnitude is saturation of the signed value. -/
theorem saturate_eq (negative : Bool) (m : Nat) : saturate negative m =
    if 2 ^ 31 - 1 < signOf negative * (m : Int) then 0x7FFFFFFF#32
    else if signOf negative * (m : Int) < -2 ^ 31 then 0x80000000#32 else s32 (signOf negative * m) := by
  cases negative with
  | false =>
    have hhigh : 2 ^ 31 - 1 < (m : Int) ↔ 2 ^ 31 ≤ m := by omega
    have hlow : ¬ (m : Int) < -2 ^ 31 := by omega
    simp only [saturate, signOf, Bool.false_eq_true, if_false, one_mul, hhigh, if_neg hlow, s32_natCast]
  | true =>
    have hhigh : ¬ 2 ^ 31 - 1 < -(m : Int) := by omega
    have hlow : -(m : Int) < -2 ^ 31 ↔ 2 ^ 31 < m := by omega
    simp only [saturate, signOf, if_true, neg_one_mul, if_neg hhigh, hlow, s32_neg, s32_natCast]

/-- R104 for a finite value. -/
theorem fxFromFloat_of_finite {f : Word} (h : exponent f ≠ 255) : fxFromFloat f =
    if 2 ^ 31 - 1 < truncate (floatValue f * 1024) then 0x7FFFFFFF#32
    else if truncate (floatValue f * 1024) < -2 ^ 31 then 0x80000000#32 else s32 (truncate (floatValue f * 1024)) := by
  rw [fxFromFloat, floatExponent_eq, if_neg h, saturate_eq, truncate_floatValue]

/-- R104: infinities saturate, and NaN gives 0. -/
theorem fxFromFloat_of_not_finite {f : Word} (h : exponent f = 255) : fxFromFloat f =
    if fraction f ≠ 0 then 0#32 else if 2 ^ 31 ≤ f.toNat then 0x80000000#32 else 0x7FFFFFFF#32 := by
  rw [fxFromFloat, floatExponent_eq, if_pos h, floatFraction_eq, floatSign_eq, ite_not]
  split
  · simp [saturate]
  · rfl

theorem fxFromFloat_eq (f : Word) : fxFromFloat f = fixedOfFloat f := by
  unfold fixedOfFloat
  split
  next h => exact fxFromFloat_of_not_finite h
  next h => exact fxFromFloat_of_finite h

end Sys2Proof.Machine

namespace Sys2Proof.Proofs

open Sys2Proof Sys2Proof.Machine Sys2Proof.Claim

/-- Settles O13: the model's shift of the significand is the floor of the exact product, with the sign put back. -/
theorem floatBecomesFixed : Obligations.FloatBecomesFixed := fun rd ra =>
  ⟨decodeWord_rr 0x13#6 rfl rd ra, computes_of_writeUnary (fun _ => rfl) fxFromFloat_eq⟩

end Sys2Proof.Proofs
end

section
/-! SUPPORT. TOF (R108): a magnitude rounded to a 24-bit significand, the pattern that holds it, and that no finite binary32
value is nearer. -/

namespace Sys2Proof.Machine

open Sys2Proof Sys2Proof.Claim

/-! Rounding to a multiple of a power of two. -/

theorem roundShift_cases (n k : Nat) :
    (2 * (n % 2 ^ k) ≤ 2 ^ k ∧ (2 * (n % 2 ^ k) = 2 ^ k → n / 2 ^ k % 2 = 0) ∧ roundShift n k = n / 2 ^ k) ∨
    (2 ^ k ≤ 2 * (n % 2 ^ k) ∧ (2 * (n % 2 ^ k) = 2 ^ k → n / 2 ^ k % 2 = 1) ∧ roundShift n k = n / 2 ^ k + 1) := by
  rw [roundShift]
  split <;> omega

/-- A multiple of the power of two is not changed. -/
theorem roundShift_mul_of_dvd {n k : Nat} (h : 2 ^ k ∣ n) : roundShift n k * 2 ^ k = n := by
  have hpos : 0 < 2 ^ k := Nat.two_pow_pos k
  have hmod : n % 2 ^ k = 0 := Nat.mod_eq_zero_of_dvd h
  rw [roundShift, hmod, if_neg (by omega)]
  exact Nat.div_mul_cancel h

/-- R108: no multiple of the power of two is nearer than the rounded one, and on a tie the rounded one is even. -/
theorem roundShift_nearest (m k : Nat) (n : Int) :
    |(roundShift m k : Int) * 2 ^ k - m| ≤ |n * 2 ^ k - m| ∧
    (|(roundShift m k : Int) * 2 ^ k - m| = |n * 2 ^ k - m| → n = roundShift m k ∨ roundShift m k % 2 = 0) := by
  have hsplit : (m : Int) = (m / 2 ^ k : Nat) * 2 ^ k + (m % 2 ^ k : Nat) := by
    exact_mod_cast (Nat.div_add_mod' m (2 ^ k)).symm
  have hcast : (2 : Int) ^ k = (2 ^ k : Nat) := by push_cast; rfl
  have hlt : m % 2 ^ k < 2 ^ k := Nat.mod_lt _ (Nat.two_pow_pos k)
  have hround := roundShift_cases m k
  rw [hcast] at hsplit ⊢
  generalize 2 ^ k = P, m / 2 ^ k = q, m % 2 ^ k = r, roundShift m k = R at *
  have hP : (r : Int) < P := by exact_mod_cast hlt
  have hcases : (n = q ∧ n * P = q * P) ∨ (n = q + 1 ∧ n * P = q * P + P) ∨ n * P ≤ q * P - P ∨
      q * P + 2 * P ≤ n * P := by
    rcases lt_trichotomy n q with h | rfl | h
    · exact .inr (.inr (.inl (by nlinarith)))
    · exact .inl ⟨rfl, rfl⟩
    · rcases (show (q : Int) + 1 ≤ n from h).eq_or_lt with rfl | h'
      · exact .inr (.inl ⟨rfl, by ring⟩)
      · exact .inr (.inr (.inr (by nlinarith)))
  have hR : (R = q ∧ (R : Int) * P = q * P) ∨ (R = q + 1 ∧ (R : Int) * P = q * P + P) := by
    rcases hround with ⟨-, -, rfl⟩ | ⟨-, -, rfl⟩
    · exact .inl ⟨rfl, rfl⟩
    · exact .inr ⟨rfl, by push_cast; ring⟩
  rw [Int.abs_eq_natAbs, Int.abs_eq_natAbs]
  omega

/-! The significand of a magnitude (R108). -/

/-- A magnitude with 24 significant bits, rounded where it has more. -/
def roundedSignificand (m : Nat) : Nat :=
  if Nat.log2 m ≤ 23 then m * 2 ^ (23 - Nat.log2 m) else roundShift m (Nat.log2 m - 23)

theorem magnitudeToFloat_eq (m : Nat) :
    magnitudeToFloat m = (Nat.log2 m + 117) * 2 ^ 23 + (roundedSignificand m - 2 ^ 23) := rfl

/-- R108: the significand is normal; rounding up can make it 2^24. -/
theorem roundedSignificand_bounds {m : Nat} (hm : m ≠ 0) :
    2 ^ 23 ≤ roundedSignificand m ∧ roundedSignificand m ≤ 2 ^ 24 := by
  have hlo : 2 ^ Nat.log2 m ≤ m := Nat.log2_self_le hm
  have hhi : m < 2 ^ (Nat.log2 m + 1) := Nat.lt_log2_self
  rw [roundedSignificand]
  generalize Nat.log2 m = e at *
  split
  next h =>
    have hpow : 2 ^ e * 2 ^ (23 - e) = 2 ^ 23 := by rw [← pow_add]; congr 1; omega
    have hlow := Nat.mul_le_mul_right (2 ^ (23 - e)) hlo
    have hhigh := Nat.mul_le_mul_right (2 ^ (23 - e)) hhi.le
    rw [pow_succ] at hhigh
    exact ⟨by omega, by linarith⟩
  next h =>
    have hpow : 2 ^ 23 * 2 ^ (e - 23) = 2 ^ e := by rw [← pow_add]; congr 1; omega
    have hlow : 2 ^ 23 ≤ m / 2 ^ (e - 23) := by
      rw [Nat.le_div_iff_mul_le (Nat.two_pow_pos _), hpow]; exact hlo
    have hhigh : m / 2 ^ (e - 23) < 2 ^ 24 := by
      rw [Nat.div_lt_iff_lt_mul (Nat.two_pow_pos _)]
      rw [pow_succ] at hhi
      linarith
    obtain ⟨-, -, hround⟩ | ⟨-, -, hround⟩ := roundShift_cases m (e - 23) <;> omega

/-- The number that the pattern of a magnitude holds, 1024-fold. -/
def roundedMagnitude (m : Nat) : ℚ := roundedSignificand m * 2 ^ ((Nat.log2 m : Int) - 23)

/-- R108: a magnitude of at most 24 significant bits is held exactly. -/
theorem roundedMagnitude_of_le {m : Nat} (h : Nat.log2 m ≤ 23) : roundedMagnitude m = m := by
  have hexp : (Nat.log2 m : Int) - 23 = -((23 - Nat.log2 m : Nat) : Int) := by omega
  rw [roundedMagnitude, roundedSignificand, if_pos h, hexp, zpow_neg, zpow_natCast]
  push_cast
  field_simp

/-- R108: a longer magnitude is rounded to a multiple of a power of two. -/
theorem roundedMagnitude_of_lt {m : Nat} (h : 23 < Nat.log2 m) :
    roundedMagnitude m = roundShift m (Nat.log2 m - 23) * 2 ^ (Nat.log2 m - 23) := by
  have hexp : (Nat.log2 m : Int) - 23 = ((Nat.log2 m - 23 : Nat) : Int) := by omega
  rw [roundedMagnitude, roundedSignificand, if_neg (by omega), hexp, zpow_natCast]

/-- A magnitude whose last set bit is among its 24 leading ones is held exactly. -/
theorem roundedMagnitude_of_dvd {m : Nat} (h : 2 ^ (Nat.log2 m - 23) ∣ m) : roundedMagnitude m = m := by
  rcases Nat.lt_or_ge 23 (Nat.log2 m) with hlt | hle
  · rw [roundedMagnitude_of_lt hlt]
    exact_mod_cast roundShift_mul_of_dvd h
  · exact roundedMagnitude_of_le hle

/-! The pattern of a signed magnitude. -/

/-- A pattern with biased exponent `E` and significand `q`, where a significand of 2^24 carries into the exponent. -/
theorem float_of_toNat {w : Word} {negative : Bool} {E q : Nat}
    (hw : w.toNat = negative.toNat * 2 ^ 31 + (E * 2 ^ 23 + (q - 2 ^ 23))) (hE : 1 ≤ E) (hE' : E < 254) (hq : 2 ^ 23 ≤ q)
    (hq' : q ≤ 2 ^ 24) : exponent w ≠ 255 ∧ fraction w % 2 = q % 2 ∧
      floatValue w = signOf negative * (q * (2 : ℚ) ^ ((E : Int) - 150)) := by
  have hsign : floatSign w = negative := by
    rw [floatSign_eq, hw]; cases negative <;> simp; omega
  have hfields : (exponent w = E ∧ fraction w + 2 ^ 23 = q) ∨ (exponent w = E + 1 ∧ fraction w = 0 ∧ q = 2 ^ 24) := by
    rw [exponent, fraction, hw]
    cases negative <;> simp only [Bool.toNat_false, Bool.toNat_true] <;> omega
  refine ⟨by omega, by omega, ?_⟩
  rw [floatValue_eq, hsign, floatSignificand, floatScale, floatExponent_eq, floatFraction_eq]
  congr 1
  rcases hfields with ⟨hexp, hfrac⟩ | ⟨hexp, hfrac, rfl⟩
  · rw [hexp, if_neg (by omega), max_eq_left hE, Nat.add_comm, hfrac]
  · have hcarry : (2 : ℚ) ^ (((E + 1 : Nat) : Int) - 150) = 2 ^ ((E : Int) - 150) * 2 := by
      rw [← zpow_add_one₀ (by norm_num)]; congr 1; push_cast; ring
    rw [hexp, hfrac, if_neg (by omega), max_eq_left (by omega), hcarry]
    norm_num; ring

theorem signOf_msb_mul_natAbs (a : Word) : signOf a.msb * a.toInt.natAbs = a.toInt := by
  rw [BitVec.msb_eq_toInt, signOf]
  simp only [decide_eq_true_eq]
  split <;> omega

theorem natAbs_toInt_ne_zero {a : Word} (ha : a ≠ 0#32) : a.toInt.natAbs ≠ 0 := by
  rw [Int.natAbs_ne_zero]
  exact fun h => ha (BitVec.toInt_inj.1 (h.trans BitVec.toInt_zero.symm))

theorem log2_natAbs_toInt_le {a : Word} (ha : a ≠ 0#32) : Nat.log2 a.toInt.natAbs ≤ 31 := by
  have hlo := a.le_toInt
  have hhi := a.toInt_lt
  exact Nat.lt_succ_iff.1 ((Nat.log2_lt (natAbs_toInt_ne_zero ha)).2 (by omega))

/-- R108: a nonzero result is the sign bit and the pattern of the magnitude. -/
theorem toNat_fxToFloat {a : Word} (ha : a ≠ 0#32) :
    (fxToFloat a).toNat = a.msb.toNat * 2 ^ 31 + magnitudeToFloat a.toInt.natAbs := by
  have hlog := log2_natAbs_toInt_le ha
  obtain ⟨hlo, hhi⟩ := roundedSignificand_bounds (natAbs_toInt_ne_zero ha)
  have hlt : magnitudeToFloat a.toInt.natAbs < 2 ^ 31 := by rw [magnitudeToFloat_eq]; omega
  have hpattern : (BitVec.ofNat 32 (magnitudeToFloat a.toInt.natAbs)).toNat = magnitudeToFloat a.toInt.natAbs := by
    rw [BitVec.toNat_ofNat, Nat.mod_eq_of_lt (by omega)]
  have hor := Nat.two_pow_add_eq_or_of_lt hlt 1
  rw [fxToFloat, if_neg ha]
  cases a.msb with
  | false => simp only [Bool.false_eq_true, if_false, hpattern, Bool.toNat_false, Nat.zero_mul, Nat.zero_add]
  | true =>
    rw [Nat.mul_one, Nat.or_comm] at hor
    simp only [if_true, BitVec.toNat_or, hpattern, Bool.toNat_true, Nat.one_mul]
    exact hor.symm

/-- The biased exponent of a magnitude is 10 below the one of its significand's scale (R108). -/
theorem two_zpow_sub_eq (e : Nat) : (2 : ℚ) ^ ((e : Int) - 23) = 2 ^ (((e + 117 : Nat) : Int) - 150) * 1024 := by
  have hexp : (e : Int) - 23 = ((e + 117 : Nat) : Int) - 150 + 10 := by omega
  have hscale : (2 : ℚ) ^ (10 : Int) = 1024 := by norm_num
  rw [hexp, zpow_add₀ (by norm_num), hscale]

/-- R108: what TOF's pattern of a nonzero value holds. -/
theorem fxToFloat_spec {a : Word} (ha : a ≠ 0#32) : exponent (fxToFloat a) ≠ 255 ∧
    fraction (fxToFloat a) % 2 = roundedSignificand a.toInt.natAbs % 2 ∧
    floatValue (fxToFloat a) * 1024 = signOf a.msb * roundedMagnitude a.toInt.natAbs := by
  have hlog := log2_natAbs_toInt_le ha
  obtain ⟨hlo, hhi⟩ := roundedSignificand_bounds (natAbs_toInt_ne_zero ha)
  have hword := toNat_fxToFloat ha
  rw [magnitudeToFloat_eq] at hword
  obtain ⟨hfinite, hparity, hvalue⟩ := float_of_toNat hword (by omega) (by omega) hlo hhi
  refine ⟨hfinite, hparity, ?_⟩
  rw [hvalue, roundedMagnitude, two_zpow_sub_eq, mul_assoc, mul_assoc]

/-! No finite value is nearer (R108). -/

/-- A finite value of at least 2^e is a multiple of the unit of a 24-bit significand there. -/
theorem floatValue_multiple {g : Word} {e : Nat} (he : 23 < e) (h : (2 : ℚ) ^ e ≤ |floatValue g|) :
    ∃ n : Int, floatValue g = n * 2 ^ (e - 23) := by
  have hlt : (floatSignificand g : ℚ) < 2 ^ 24 := by exact_mod_cast floatSignificand_lt g
  have hscale : (e : Int) - 23 ≤ (floatScale g : Int) - 150 := by
    rw [floatValue_eq, abs_signOf_mul, abs_of_nonneg (by positivity)] at h
    have hbound : (2 : ℚ) ^ (e : Int) < 2 ^ ((floatScale g : Int) - 150 + 24) := by
      rw [zpow_add₀ (by norm_num), zpow_natCast]
      refine h.trans_lt ?_
      rw [mul_comm]
      exact mul_lt_mul_of_pos_left hlt (by positivity)
    have := (zpow_lt_zpow_iff_right₀ (by norm_num)).1 hbound
    omega
  obtain ⟨j, hj⟩ : ∃ j : Nat, (floatScale g : Int) - 150 = j + (e - 23 : Nat) :=
    ⟨((floatScale g : Int) - 150 - (e - 23 : Nat)).toNat, by omega⟩
  refine ⟨signOf (floatSign g) * (floatSignificand g * 2 ^ j), ?_⟩
  rw [floatValue_eq, hj, zpow_add₀ (by norm_num), zpow_natCast, zpow_natCast]
  push_cast
  ring

/-- R108 for a positive magnitude that is not exact: nothing below 2^e or among the multiples of the unit at 2^e is
nearer. -/
theorem roundedMagnitude_nearest_of_lt {m : Nat} (hm : m ≠ 0) (hlog : 23 < Nat.log2 m) {x : ℚ}
    (hx : x < 2 ^ Nat.log2 m ∨ ∃ n : Int, x = n * 2 ^ (Nat.log2 m - 23)) :
    |roundedMagnitude m - m| ≤ |x - m| ∧
    (|roundedMagnitude m - m| = |x - m| → x = roundedMagnitude m ∨ roundedSignificand m % 2 = 0) := by
  have hsignificand : roundedSignificand m = roundShift m (Nat.log2 m - 23) := if_neg (by omega)
  have hnearest : ∀ n : Int, |roundedMagnitude m - m| ≤ |(n : ℚ) * 2 ^ (Nat.log2 m - 23) - m| ∧
      (|roundedMagnitude m - m| = |(n : ℚ) * 2 ^ (Nat.log2 m - 23) - m| →
        (n : ℚ) * 2 ^ (Nat.log2 m - 23) = roundedMagnitude m ∨ roundedSignificand m % 2 = 0) := fun n => by
    obtain ⟨hle, htie⟩ := roundShift_nearest m (Nat.log2 m - 23) n
    rw [roundedMagnitude_of_lt hlog, hsignificand]
    refine ⟨by exact_mod_cast hle, fun h => (htie (by exact_mod_cast h)).imp_left fun h => ?_⟩
    rw [h, Int.cast_natCast]
  obtain hx | ⟨n, rfl⟩ := hx
  · have hpow : ((2 ^ 23 : Int) : ℚ) * 2 ^ (Nat.log2 m - 23) = 2 ^ Nat.log2 m := by
      have hcast : ((2 ^ 23 : Int) : ℚ) = 2 ^ 23 := by norm_cast
      rw [hcast, ← pow_add]; congr 1; omega
    have hlo : (2 : ℚ) ^ Nat.log2 m ≤ m := by exact_mod_cast Nat.log2_self_le hm
    obtain ⟨hle, -⟩ := hnearest (2 ^ 23)
    have hfar : |roundedMagnitude m - m| < |x - m| := by
      rw [hpow, abs_of_nonpos (by linarith : (2 : ℚ) ^ Nat.log2 m - m ≤ 0)] at hle
      rw [abs_of_neg (by linarith : x - m < 0)]
      linarith
    exact ⟨hfar.le, fun h => absurd h hfar.ne⟩
  · exact hnearest n

/-- R108 for a positive magnitude: a finite value, taken with either sign, is no nearer than the rounded magnitude. -/
theorem roundedMagnitude_nearest {m : Nat} (hm : m ≠ 0) (g : Word) (negative : Bool) :
    |roundedMagnitude m - m| ≤ |signOf negative * floatValue g - m| ∧
    (|roundedMagnitude m - m| = |signOf negative * floatValue g - m| →
      signOf negative * floatValue g = roundedMagnitude m ∨ roundedSignificand m % 2 = 0) := by
  rcases Nat.lt_or_ge 23 (Nat.log2 m) with hlog | hlog
  · refine roundedMagnitude_nearest_of_lt hm hlog ?_
    rcases lt_or_ge (signOf negative * floatValue g) (2 ^ Nat.log2 m) with hx | hx
    · exact .inl hx
    · obtain ⟨n, hn⟩ := floatValue_multiple (g := g) hlog (by
        rw [← abs_signOf_mul negative]; exact hx.trans (le_abs_self _))
      refine .inr ⟨signOf negative * n, ?_⟩
      rw [hn]; push_cast; ring
  · rw [roundedMagnitude_of_le hlog, sub_self, abs_zero]
    exact ⟨abs_nonneg _, fun h => .inl (sub_eq_zero.1 (abs_eq_zero.1 h.symm))⟩

/-- R108: TOF's result is nearest to the raw value among all finite patterns, and even on a tie. -/
theorem isFloatOfFixed_fxToFloat (a : Word) : IsFloatOfFixed a.toInt (fxToFloat a) := by
  refine ⟨fun h => ?_, fun h => ?_⟩
  · have ha : a = 0#32 := BitVec.toInt_inj.1 (h.trans BitVec.toInt_zero.symm)
    rw [fxToFloat, if_pos ha]
  have ha : a ≠ 0#32 := fun e => h (by rw [e, BitVec.toInt_zero])
  obtain ⟨hfinite, hparity, hvalue⟩ := fxToFloat_spec ha
  refine ⟨hfinite, fun g _ => ?_⟩
  obtain ⟨hnearest, htie⟩ := roundedMagnitude_nearest (natAbs_toInt_ne_zero ha) g a.msb
  have hsign : (signOf a.msb : ℚ) * signOf a.msb = 1 := by exact_mod_cast signOf_mul_self a.msb
  have hraw : (a.toInt : ℚ) = signOf a.msb * (a.toInt.natAbs : ℚ) := by
    rw [← Int.cast_natCast, ← Int.cast_mul, signOf_msb_mul_natAbs]
  have hg : floatValue g = signOf a.msb * (signOf a.msb * floatValue g) := by rw [← mul_assoc, hsign, one_mul]
  have hleft : |floatValue (fxToFloat a) * 1024 - a.toInt| = |roundedMagnitude a.toInt.natAbs - a.toInt.natAbs| := by
    rw [hvalue, hraw, ← mul_sub, abs_signOf_mul]
  have hright : |floatValue g - a.toInt| = |signOf a.msb * floatValue g - a.toInt.natAbs| := by
    conv_lhs => rw [hraw, hg, ← mul_sub, abs_signOf_mul]
  rw [hleft, hright, hparity, hvalue]
  exact ⟨hnearest, fun h => (htie h).imp_left fun h => by rw [hg, h]⟩

/-! The round trip (R111). -/

/-- R104, R111: a truncated finite value has at most 24 significant bits. -/
theorem two_pow_dvd_scaledMagnitude {n scale : Nat} (hn : n < 2 ^ 24) :
    2 ^ (Nat.log2 (scaledMagnitude n scale) - 23) ∣ scaledMagnitude n scale := by
  obtain ⟨q, j, hq, hm⟩ : ∃ q j, q < 2 ^ 24 ∧ scaledMagnitude n scale = q * 2 ^ j := by
    rw [scaledMagnitude]
    split
    · exact ⟨_, 0, (Nat.div_le_self _ _).trans_lt hn, (Nat.mul_one _).symm⟩
    · exact ⟨n, _, hn, rfl⟩
  rw [hm]
  by_cases hzero : q * 2 ^ j = 0
  · rw [hzero]; exact dvd_zero _
  · have hlt : q * 2 ^ j < 2 ^ (24 + j) := by
      rw [pow_add]; exact Nat.mul_lt_mul_of_pos_right hq (Nat.two_pow_pos j)
    have hlog := (Nat.log2_lt hzero).2 hlt
    exact (Nat.pow_dvd_pow 2 (by omega)).trans (Nat.dvd_mul_left _ _)

/-- R111: TOF gives a truncated finite value back exactly. -/
theorem floatValue_fxToFloat_of_truncate {f a : Word} (h : a.toInt = truncate (floatValue f * 1024)) :
    floatValue (fxToFloat a) * 1024 = truncate (floatValue f * 1024) := by
  rw [← h]
  by_cases ha : a = 0#32
  · have hzero : floatValue 0#32 = 0 := by simp [floatValue, exponent, fraction]
    rw [ha, fxToFloat, if_pos rfl, hzero, BitVec.toInt_zero, zero_mul, Int.cast_zero]
  · obtain ⟨-, -, hvalue⟩ := fxToFloat_spec ha
    have hmagnitude : a.toInt.natAbs = scaledMagnitude (floatSignificand f) (floatScale f) := by
      rw [h, truncate_floatValue]
      cases floatSign f <;> simp [signOf]
    have hexact : roundedMagnitude a.toInt.natAbs = a.toInt.natAbs := by
      rw [hmagnitude]
      exact roundedMagnitude_of_dvd (two_pow_dvd_scaledMagnitude (floatSignificand_lt f))
    rw [hvalue, hexact, ← Int.cast_natCast, ← Int.cast_mul, signOf_msb_mul_natAbs]

/-- R82: truncation is toward zero, by less than 1. -/
theorem truncate_bounds (q : ℚ) : |(truncate q : ℚ) - q| < 1 ∧ |(truncate q : ℚ)| ≤ |q| := by
  rw [truncate]
  split
  next h =>
    have hle := Int.floor_le q
    have hlt := Int.lt_floor_add_one q
    have hnonneg : (0 : ℚ) ≤ ⌊q⌋ := by exact_mod_cast Int.floor_nonneg.2 h
    rw [abs_sub_comm, abs_of_nonneg (sub_nonneg.2 hle), abs_of_nonneg hnonneg, abs_of_nonneg h]
    exact ⟨by linarith, hle⟩
  next h =>
    have hge := Int.le_ceil q
    have hlt := Int.ceil_lt_add_one q
    have hnonpos : (⌈q⌉ : ℚ) ≤ 0 := by exact_mod_cast Int.ceil_nonpos.2 (by linarith)
    rw [abs_of_nonneg (sub_nonneg.2 hge), abs_of_nonpos hnonpos, abs_of_neg (by linarith)]
    exact ⟨by linarith, by linarith⟩

/-- R104: in range nothing saturates. -/
theorem toInt_fxFromFloat {f : Word} (hfinite : exponent f ≠ 255) (hlo : -2097152 ≤ floatValue f)
    (hhi : floatValue f < 2097152) : (fxFromFloat f).toInt = truncate (floatValue f * 1024) := by
  obtain ⟨hnear, hinside⟩ := truncate_bounds (floatValue f * 1024)
  obtain ⟨hbelow, habove⟩ := abs_lt.1 hnear
  have hlow : -2 ^ 31 ≤ truncate (floatValue f * 1024) := by
    have hbound : |floatValue f * 1024| ≤ 2 ^ 31 := abs_le.2 ⟨by linarith, by linarith⟩
    exact_mod_cast (abs_le.1 (hinside.trans hbound)).1
  have hhigh : truncate (floatValue f * 1024) < 2 ^ 31 := by
    have hbound : (truncate (floatValue f * 1024) : ℚ) < 2 ^ 31 := by
      rcases le_or_gt 0 (floatValue f) with hsign | hsign
      · rw [abs_of_nonneg (a := floatValue f * 1024) (by linarith)] at hinside
        linarith [le_abs_self (truncate (floatValue f * 1024) : ℚ)]
      · linarith
    exact_mod_cast hbound
  rw [fxFromFloat_of_finite hfinite, if_neg (by omega), if_neg (by omega), toInt_s32_of_fits hlow hhigh]

end Sys2Proof.Machine

namespace Sys2Proof.Proofs

open Sys2Proof Sys2Proof.Machine Sys2Proof.Claim

/-- Settles O16: TOF's pattern holds the magnitude rounded to 24 bits, and no finite value is nearer. -/
theorem fixedBecomesFloat : Obligations.FixedBecomesFloat := fun rd ra =>
  ⟨decodeWord_rr 0x17#6 rfl rd ra, fun s =>
    ⟨_, _, rfl, s.setReg_writesOnly rd (fxToFloat (s.reg ra)), isFloatOfFixed_fxToFloat (s.reg ra)⟩⟩

/-- Settles O18: FROMF truncates at 1/1024, and TOF gives the truncated value back exactly. -/
theorem floatRoundTripLosesLittle : Obligations.FloatRoundTripLosesLittle := by
  intro f hfinite hlo hhi
  have hvalue := floatValue_fxToFloat_of_truncate (toInt_fxFromFloat hfinite hlo hhi)
  obtain ⟨hnear, hinside⟩ := truncate_bounds (floatValue f * 1024)
  rw [← hvalue] at hnear hinside
  rw [← sub_mul, abs_mul, abs_of_pos (by norm_num : (0 : ℚ) < 1024)] at hnear
  rw [abs_mul, abs_mul, abs_of_pos (by norm_num : (0 : ℚ) < 1024)] at hinside
  exact ⟨by rw [lt_div_iff₀ (by norm_num)]; exact hnear, le_of_mul_le_mul_right hinside (by norm_num)⟩

end Sys2Proof.Proofs
end
